-- ==== Sys2Proof/Word.lean ====
section
/-!
DEFINITION. The word and byte of the bus (R40, R60) and nothing else: every operation on them that a rule names stands in
Sys2Proof/Machine/.
-/

namespace Sys2Proof

/-- A 32-bit bus address, write value, `openBus` value or response (R40, R60). -/
abbrev Word := BitVec 32

/-- One byte of a content array (R29, R30). -/
abbrev Byte := BitVec 8

end Sys2Proof
end

