-- ==== Sys2Proof/Config.lean ====
section
/-!
DEFINITION. The names the spec gives its enumerations, the inputs fixed at load, the open parameters and the free values.
The open parameters of R7 (`EEP_READ_LEADIN`, `EEP_WIDTH_DETECT`, `SRAM_MAX`) are a record that State carries, so that a
statement about every state is a statement about every value of them; State.reset takes the constants below, which have
no body (entry 7). The values of `draw(T)` (R10) are constants without a body applied to State's counter (entry 8).
-/

namespace Sys2Proof

/-- Width of a bus access (R40). -/
inductive AccessWidth where
  | byte | half | word
  deriving DecidableEq, Repr

/-- The active backing store, `cart.kind` (R22). -/
inductive Kind where
  | none | staticRAM | serialEEPROM | flashROM
  deriving DecidableEq, Repr

/-- A resolved EEPROM address width; an unresolved `eep.bits = 0` is the absence of one (R22, R25). -/
inductive AddrWidth where
  | six | fourteen
  deriving DecidableEq, Repr

/-- The seven values of `eep.phase` (R24). -/
inductive EepPhase where
  | idle | command | address | readStop | readData | writeData | writeStop
  deriving DecidableEq, Repr

/-- The request type `eep.op` (R23). -/
inductive EepOp where
  | read | write
  deriving DecidableEq, Repr

/-- The nine values of `flash.phase` (R27). -/
inductive FlashPhase where
  | idle | unlock1 | unlock2 | idMode | eraseArmed | eraseUnlock1 | eraseUnlock2 | writeMode | bankSwitch
  deriving DecidableEq, Repr

/-- The legal values of the open parameter `EEP_READ_LEADIN` (R7, R67). -/
inductive ReadLeadin where
  | zero | four
  deriving DecidableEq, Repr, Inhabited

/-- The open parameters of R7. `widthDetect` is `EEP_WIDTH_DETECT` as a finite table, the first entry for an integer
deciding and every integer without an entry answering none; its arguments lie in -65..78 (R105, R111), so a table holds
every such function. -/
structure Params where
  readLeadin : ReadLeadin
  widthDetect : List (Int × AddrWidth)
  sramMax : Nat
  deriving DecidableEq, Repr

/-- `EEP_READ_LEADIN` of the machine at reset: OPEN (R7), so it has no body (entry 7). -/
opaque Config.eepReadLeadin : ReadLeadin

/-- `EEP_WIDTH_DETECT` of the machine at reset: OPEN (R7), so it has no body (entry 7). -/
opaque Config.eepWidthDetect : List (Int × AddrWidth)

/-- `SRAM_MAX` of the machine at reset: OPEN (R7), so it has no body (entry 7). -/
opaque Config.sramMax : Nat

/-- `draw(Bit)`: the n-th value drawn, where a bit is drawn (R10, R114; entry 8). -/
opaque Config.freeBit : Nat → Bool

/-- `draw(Byte)`: the n-th value drawn, where a byte is drawn (R10, R161; entry 8). -/
opaque Config.freeByte : Nat → Byte

/-- The kind string of a backing-store descriptor, as far as R181 tells its values apart. -/
inductive KindName where
  | staticRAM
  /-- "StaticRAM (or FRAM-equivalent)" (R181; entry 21). -/
  | fram
  | serialEEPROM
  | flashROM
  /-- Any other string: `BadKind` (R181). -/
  | unrecognized (name : String)
  deriving DecidableEq, Repr

/-- The backing-store descriptor of a load: kind, declared size, and `FLASH_ID` for FlashROM (R201). -/
structure StoreDescriptor where
  kind : KindName
  size : Nat
  flashId : BitVec 16
  deriving DecidableEq, Repr

/-- The operands of `Load` (R201): `ROM_SIZE`, the image bytes from index 0, an optional backing-store descriptor and an
optional preseed blob. -/
structure Descriptor where
  romSize : Nat
  romBytes : List Byte
  store : Option StoreDescriptor
  preseed : Option (List Byte)
  deriving DecidableEq, Repr

/-- The reason codes of `ConfigurationError` (R181). -/
inductive ConfigError where
  | badKind | romTooLarge | eepTooLarge | flashTooLarge | sramTooLarge
  deriving DecidableEq, Repr

end Sys2Proof
end

