-- ==== Sys2Proof/Machine/Commands.lean ====
section
/-!
DEFINITION. The constants of the FlashROM command set (R71), of the EEPROM window (R42) and of the sizes (R7), and the
tests on command words that the opcode table's rows make. They are the spec's decided values (R8; entry 20).
-/

namespace Sys2Proof.Machine

/-- `FLASH_CMD_ADDR` (R71). -/
def flashCmdAddr : BitVec 16 := 0x5555#16
/-- `FLASH_UNLOCK2_ADDR` (R71). -/
def flashUnlock2Addr : BitVec 16 := 0x2AAA#16
/-- `UNLOCK1_BYTE` (R71). -/
def unlock1Byte : Byte := 0xAA#8
/-- `UNLOCK2_BYTE` (R71). -/
def unlock2Byte : Byte := 0x55#8
/-- `CMD_ID_ENTER` (R71). -/
def cmdIdEnter : Byte := 0x90#8
/-- `CMD_ID_EXIT` (R71). -/
def cmdIdExit : Byte := 0xF0#8
/-- `CMD_ERASE_SETUP` (R71). -/
def cmdEraseSetup : Byte := 0x80#8
/-- `CMD_CHIP_ERASE` (R71). -/
def cmdChipErase : Byte := 0x10#8
/-- `CMD_SECTOR_ERASE` (R71). -/
def cmdSectorErase : Byte := 0x30#8
/-- `CMD_PROGRAM` (R71). -/
def cmdProgram : Byte := 0xA0#8
/-- `CMD_BANK_SELECT` (R71). -/
def cmdBankSelect : Byte := 0xB0#8
/-- `BANK_DATA_OFFSET` (R71). -/
def bankDataOffset : BitVec 16 := 0x0000#16

/-- The first unlock word, (0x5555, 0xAA) (R142, R148). -/
def isUnlock1 (off : BitVec 16) (v : Byte) : Bool := off == flashCmdAddr && v == unlock1Byte

/-- The second unlock word, (0x2AAA, 0x55) (R143, R149). -/
def isUnlock2 (off : BitVec 16) (v : Byte) : Bool := off == flashUnlock2Addr && v == unlock2Byte

/-- The command byte `cmd` at `FLASH_CMD_ADDR` (R144, R145, R146, R150, R152, R154). -/
def isCommand (cmd : Byte) (off : BitVec 16) (v : Byte) : Bool := off == flashCmdAddr && v == cmd

/-- A word that `Unlock2` accepts as a command: R156 is every other word. -/
def isUnlock2Command (off : BitVec 16) (v : Byte) : Bool :=
  isCommand cmdIdEnter off v || isCommand cmdIdExit off v || isCommand cmdEraseSetup off v ||
    isCommand cmdProgram off v || isCommand cmdBankSelect off v

/-- `off[11:0] = 0` (R151). -/
def isSectorOffset (off : BitVec 16) : Bool := off &&& 0x0FFF#16 == 0#16

/-- The sector-erase word: 0x30 at a sector offset (R151). -/
def isSectorErase (off : BitVec 16) (v : Byte) : Bool := isSectorOffset off && v == cmdSectorErase

/-- A word that `EraseUnlock2` accepts: R157 is every other word. -/
def isEraseConfirm (off : BitVec 16) (v : Byte) : Bool := isCommand cmdChipErase off v || isSectorErase off v

/-- `EEP_WIN_MASK_SMALL` (R7, R42). -/
def eepWinMaskSmall : Word := 0x0F000000#32
/-- `EEP_WIN_MATCH_SMALL` (R7, R42). -/
def eepWinMatchSmall : Word := 0x0D000000#32
/-- `EEP_WIN_MASK_LARGE` (R7, R42). -/
def eepWinMaskLarge : Word := 0x0FFFFF00#32
/-- `EEP_WIN_MATCH_LARGE` (R7, R42). -/
def eepWinMatchLarge : Word := 0x0DFFFF00#32
/-- 16 MiB: a larger program image moves the EEPROM window (R42). -/
def romSmallMax : Nat := 0x01000000
/-- 32 MiB, the largest program image (R7, R181). -/
def romMax : Nat := 0x02000000
/-- `EEP_MAX` (R7). -/
def eepMax : Nat := 8192
/-- The largest declared EEPROM size with 6 address bits (R25). -/
def eepSixBitMax : Nat := 512
/-- `EEP_STREAM_CAP` (R7, R105). -/
def eepStreamCap : Nat := 79
/-- `FLASH_BANK_SIZE` (R7). -/
def flashBankSize : Nat := 65536
/-- The larger FlashROM size, 128 KiB (R7, R181). -/
def flashMax : Nat := 131072
/-- `FLASH_SECTOR_SIZE` (R7, R151). -/
def flashSectorSize : Nat := 4096

end Sys2Proof.Machine
end

