-- ==== Sys2Proof/Syntax.lean ====
section
/-!
DEFINITION. One constructor per row of spec/opcode_table.json, in the table's order. A row whose rule is "a write in" a
phase, with operands `off` and `v` and an out-of-sequence branch (R142, R143, R148, R149), carries both operands.
-/

namespace Sys2Proof

/-- The 46 rows of the opcode table. -/
inductive Instr where
  /-- READ.B (R80): a bus read of 1 byte; `openBus` is the bus core's last fetched instruction word (R60). -/
  | readB (addr openBus : Word)
  /-- READ.H (R80). -/
  | readH (addr openBus : Word)
  /-- READ.W (R80). -/
  | readW (addr openBus : Word)
  /-- WRITE.B (R81). -/
  | writeB (addr wdata : Word)
  /-- WRITE.H (R81). -/
  | writeH (addr wdata : Word)
  /-- WRITE.W (R81). -/
  | writeW (addr wdata : Word)
  /-- POWER (R203). -/
  | power
  /-- LOAD (R201). -/
  | load (d : Descriptor)
  /-- UNLOAD (R202). -/
  | unload
  /-- EEP.START (R101): a write bit in `Idle`. -/
  | eepStart (b : Bool)
  /-- EEP.REQ_READ (R102): the write bit 1 in `Command`. -/
  | eepReqRead
  /-- EEP.REQ_WRITE (R102): the write bit 0 in `Command`. -/
  | eepReqWrite
  /-- EEP.ADDR_BIT (R103): a write bit in `Address`, width known. -/
  | eepAddrBit (b : Bool)
  /-- EEP.STREAM_BIT (R105): a write bit in `Address`, width unresolved. -/
  | eepStreamBit (b : Bool)
  /-- EEP.DATA_BIT (R106): a write bit in `WriteData`. -/
  | eepDataBit (b : Bool)
  /-- EEP.READ_STOP (R107): a write bit in `ReadStop`. -/
  | eepReadStop (b : Bool)
  /-- EEP.WRITE_STOP (R109): a write bit in `WriteStop`. -/
  | eepWriteStop (b : Bool)
  /-- EEP.ABORT_READ (R110): a write bit in `ReadData`. -/
  | eepAbortRead (b : Bool)
  /-- EEP.READ_BIT (R114): a read in `ReadData`. -/
  | eepReadBit
  /-- EEP.READ_DETECT (R115): a read in `Address`, width unresolved. -/
  | eepReadDetect
  /-- EEP.READ_IDLE (R116): a read in any other phase. -/
  | eepReadIdle
  /-- EEP.POWER (R118): POWER with kind SerialEEPROM. -/
  | eepPower
  /-- EEP.READ_FRAME6 (R65, R120): address `k`, stop bit `s`. -/
  | eepReadFrame6 (k : BitVec 6) (s : Bool)
  /-- EEP.READ_FRAME14 (R65, R120). -/
  | eepReadFrame14 (k : BitVec 14) (s : Bool)
  /-- EEP.WRITE_FRAME6 (R66, R123): address `k`, data `d`, stop bit `s`. -/
  | eepWriteFrame6 (k : BitVec 6) (d : BitVec 64) (s : Bool)
  /-- EEP.WRITE_FRAME14 (R66, R123). -/
  | eepWriteFrame14 (k : BitVec 14) (d : BitVec 64) (s : Bool)
  /-- EEP.READ64 (R67, R122): `EEP_READ_LEADIN + 64` reads. -/
  | eepRead64
  /-- EEP.FRAME_UNRESOLVED (R69, R124): start bit, request type `q`, stream bits, then one read. -/
  | eepFrameUnresolved (q : Bool) (stream : List Bool)
  /-- FL.UNLOCK1 (R142): a byte write in `Idle`. -/
  | flUnlock1 (off : BitVec 16) (v : Byte)
  /-- FL.UNLOCK2 (R143): a byte write in `Unlock1`. -/
  | flUnlock2 (off : BitVec 16) (v : Byte)
  /-- FL.ID_ENTER (R144): (0x5555, 0x90) in `Unlock2`. -/
  | flIdEnter
  /-- FL.ID_EXIT (R145): (0x5555, 0xF0) in `Unlock2`. -/
  | flIdExit
  /-- FL.ERASE_SETUP (R146): (0x5555, 0x80) in `Unlock2`. -/
  | flEraseSetup
  /-- FL.PROGRAM_SETUP (R152): (0x5555, 0xA0) in `Unlock2`. -/
  | flProgramSetup
  /-- FL.BANK_SETUP (R154): (0x5555, 0xB0) in `Unlock2`. -/
  | flBankSetup
  /-- FL.UNLOCK2_OTHER (R156): any other byte write in `Unlock2`. -/
  | flUnlock2Other (off : BitVec 16) (v : Byte)
  /-- FL.ID_MODE_WRITE (R147): any byte write in `IdMode`. -/
  | flIdModeWrite (off : BitVec 16) (v : Byte)
  /-- FL.ERASE_UNLOCK1 (R148): a byte write in `EraseArmed`. -/
  | flEraseUnlock1 (off : BitVec 16) (v : Byte)
  /-- FL.ERASE_UNLOCK2 (R149): a byte write in `EraseUnlock1`. -/
  | flEraseUnlock2 (off : BitVec 16) (v : Byte)
  /-- FL.CHIP_ERASE (R150): (0x5555, 0x10) in `EraseUnlock2`. -/
  | flChipErase
  /-- FL.SECTOR_ERASE (R151): 0x30 at a sector offset in `EraseUnlock2`. -/
  | flSectorErase (off : BitVec 16)
  /-- FL.ERASE_OTHER (R157): any other byte write in `EraseUnlock2`. -/
  | flEraseOther (off : BitVec 16) (v : Byte)
  /-- FL.PROGRAM (R153): any byte write in `WriteMode`. -/
  | flProgram (off : BitVec 16) (v : Byte)
  /-- FL.BANK_SELECT (R155): any byte write in `BankSwitch`. -/
  | flBankSelect (off : BitVec 16) (v : Byte)
  /-- FL.READ (R161): a byte read at `off`. -/
  | flRead (off : BitVec 16)
  /-- FL.POWER (R160): POWER with kind FlashROM. -/
  | flPower
  deriving DecidableEq, Repr

end Sys2Proof
end

