-- ==== Sys2Proof/WellFormed.lean ====
section
/-!
DEFINITION. Which terms of Instr are instructions of the opcode table: the conditions the table's patterns put on operands.
-/

namespace Sys2Proof

open Machine

/-- The operand conditions of the opcode table. A sector erase stands at `off[11:0] = 0` (R151); "any word not matched
above" excludes the words of the rows above it (R156, R157). Every other row takes every operand value. -/
def Instr.wf : Instr → Bool
  | .readB _ _ => true
  | .readH _ _ => true
  | .readW _ _ => true
  | .writeB _ _ => true
  | .writeH _ _ => true
  | .writeW _ _ => true
  | .power => true
  | .load _ => true
  | .unload => true
  | .eepStart _ => true
  | .eepReqRead => true
  | .eepReqWrite => true
  | .eepAddrBit _ => true
  | .eepStreamBit _ => true
  | .eepDataBit _ => true
  | .eepReadStop _ => true
  | .eepWriteStop _ => true
  | .eepAbortRead _ => true
  | .eepReadBit => true
  | .eepReadDetect => true
  | .eepReadIdle => true
  | .eepPower => true
  | .eepReadFrame6 _ _ => true
  | .eepReadFrame14 _ _ => true
  | .eepWriteFrame6 _ _ _ => true
  | .eepWriteFrame14 _ _ _ => true
  | .eepRead64 => true
  | .eepFrameUnresolved _ _ => true
  | .flUnlock1 _ _ => true
  | .flUnlock2 _ _ => true
  | .flIdEnter => true
  | .flIdExit => true
  | .flEraseSetup => true
  | .flProgramSetup => true
  | .flBankSetup => true
  | .flUnlock2Other off v => !isUnlock2Command off v
  | .flIdModeWrite _ _ => true
  | .flEraseUnlock1 _ _ => true
  | .flEraseUnlock2 _ _ => true
  | .flChipErase => true
  | .flSectorErase off => isSectorOffset off
  | .flEraseOther off v => !isEraseConfirm off v
  | .flProgram _ _ => true
  | .flBankSelect _ _ => true
  | .flRead _ => true
  | .flPower => true

/-- `i` is an instruction of the opcode table. -/
abbrev Instr.WellFormed (i : Instr) : Prop := i.wf = true

end Sys2Proof
end

