-- ==== Sys2Proof/Decode.lean ====
section
/-!
DEFINITION. The calls the block takes as raw words (Packet), the decoder from a call to a row of the opcode table, and the
encoder. The same word is a different row in a different phase (the table's "phase" column; R100, R140), so the decoder
also takes what it needs of the engines' state (DecodeCtx; entry 4).
-/

namespace Sys2Proof

open Machine

/-- One call as raw words, one constructor per format of spec/opcode_table.json. -/
inductive Packet where
  /-- TXN4: the 4-bit transaction code and the 32-bit fields of the request; `data` is `wdata` of a write, `openBus` of a
  read, and unused by POWER (R60, R61; entry 15). -/
  | txn4 (t : BitVec 4) (addr data : Word)
  /-- LIFECYCLE: call Load(descriptor) (R201). -/
  | lifecycleLoad (d : Descriptor)
  /-- LIFECYCLE: call Unload() (R202). -/
  | lifecycleUnload
  /-- EEP_BIT: one write bit at the EEPROM window (R63). -/
  | eepBit (b : Bool)
  /-- EEP_READ: one read at the EEPROM window (R63). -/
  | eepRead
  /-- EEP_FRAME: the write bits of one frame in transmission order (R64). -/
  | eepFrame (bits : List Bool)
  /-- EEP_READ_SEQ: `EEP_READ_LEADIN + 64` reads (R67). -/
  | eepReadSeq
  /-- EEP_FRAME of an unresolved width: write bits in transmission order, then one read (R69, R124). -/
  | eepFrameThenRead (bits : List Bool)
  /-- FLASH_CMD24: the command word `c = off << 8 | v` of one byte write (R70). -/
  | flashCmd (c : BitVec 24)
  /-- FLASH_READ: one byte read at `off` (R161). -/
  | flashRead (off : BitVec 16)
  deriving DecidableEq, Repr

/-- Why a packet is no row of the table. -/
inductive DecodeError where
  /-- A reserved transaction code (R62). -/
  | reservedTxn (t : BitVec 4)
  /-- A bit string that has none of the frame patterns (R65, R66, R124). -/
  | notAFrame
  deriving DecidableEq, Repr

/-- What of the engines' state tells rows with the same word apart: the kind that is active (none while unloaded), the
EEPROM phase and address width, and the FlashROM phase. -/
structure DecodeCtx where
  kind : Kind
  eepPhase : EepPhase
  eepBits : Option AddrWidth
  flashPhase : FlashPhase
  deriving DecidableEq, Repr

/-- The low `n` bits of `v`, most significant first (R65, R66, R68). -/
def bitsOf : Nat → Nat → List Bool
  | 0, _ => []
  | n + 1, v => v.testBit n :: bitsOf n v

/-- `val(s)`: the unsigned value of a bit string whose first element is the most significant (R10). -/
def bitsVal : List Bool → Nat
  | [] => 0
  | b :: bs => b.toNat * 2 ^ bs.length + bitsVal bs

/-- `c[23:8]` (R70). -/
def cmdOff (c : BitVec 24) : BitVec 16 := c.extractLsb' 8 16

/-- `c[7:0]` (R70). -/
def cmdByte (c : BitVec 24) : Byte := c.extractLsb' 0 8

/-- `c = off << 8 | v` (R70). -/
def cmdWord (off : BitVec 16) (v : Byte) : BitVec 24 := off ++ v

/-- The row that takes a transaction code (R61, R62). POWER is the active engine's own row where the table has one. -/
def decodeTxn (c : DecodeCtx) (t : BitVec 4) (addr data : Word) : Except DecodeError Instr :=
  if t = 0b0000#4 then .ok (.readB addr data)
  else if t = 0b0001#4 then .ok (.readH addr data)
  else if t = 0b0010#4 then .ok (.readW addr data)
  else if t = 0b0100#4 then .ok (.writeB addr data)
  else if t = 0b0101#4 then .ok (.writeH addr data)
  else if t = 0b0110#4 then .ok (.writeW addr data)
  else if t = 0b1000#4 then
    match c.kind with
    | .serialEEPROM => .ok .eepPower
    | .flashROM => .ok .flPower
    | .none => .ok .power
    | .staticRAM => .ok .power
  else .error (.reservedTxn t)

/-- The row that takes a serial write bit (R100). -/
def decodeEepBit (c : DecodeCtx) (b : Bool) : Instr :=
  match c.eepPhase with
  | .idle => .eepStart b
  | .command => if b then .eepReqRead else .eepReqWrite
  | .address => if c.eepBits = none then .eepStreamBit b else .eepAddrBit b
  | .readStop => .eepReadStop b
  | .readData => .eepAbortRead b
  | .writeData => .eepDataBit b
  | .writeStop => .eepWriteStop b

/-- The row that takes a serial read (R113). -/
def decodeEepRead (c : DecodeCtx) : Instr :=
  match c.eepPhase with
  | .readData => .eepReadBit
  | .address => if c.eepBits = none then .eepReadDetect else .eepReadIdle
  | .idle => .eepReadIdle
  | .command => .eepReadIdle
  | .readStop => .eepReadIdle
  | .writeData => .eepReadIdle
  | .writeStop => .eepReadIdle

/-- The row of a frame: its pattern string fixes the first two bits and the length (R65, R66). -/
def decodeFrame : List Bool → Except DecodeError Instr
  | true :: true :: rest =>
    if rest.length = 7 then
      .ok (.eepReadFrame6 (BitVec.ofNat 6 (bitsVal (rest.take 6))) ((rest.drop 6).headD false))
    else if rest.length = 15 then
      .ok (.eepReadFrame14 (BitVec.ofNat 14 (bitsVal (rest.take 14))) ((rest.drop 14).headD false))
    else .error .notAFrame
  | true :: false :: rest =>
    if rest.length = 71 then
      .ok (.eepWriteFrame6 (BitVec.ofNat 6 (bitsVal (rest.take 6)))
        (BitVec.ofNat 64 (bitsVal ((rest.drop 6).take 64))) ((rest.drop 70).headD false))
    else if rest.length = 79 then
      .ok (.eepWriteFrame14 (BitVec.ofNat 14 (bitsVal (rest.take 14)))
        (BitVec.ofNat 64 (bitsVal ((rest.drop 14).take 64))) ((rest.drop 78).headD false))
    else .error .notAFrame
  | _ => .error .notAFrame

/-- The row of a frame of unresolved width: start bit 1, request type, stream (R69, R124). -/
def decodeUnresolved : List Bool → Except DecodeError Instr
  | true :: q :: stream => .ok (.eepFrameUnresolved q stream)
  | _ => .error .notAFrame

/-- The row that takes a FlashROM byte write (R140). -/
def decodeFlash (c : DecodeCtx) (off : BitVec 16) (v : Byte) : Instr :=
  match c.flashPhase with
  | .idle => .flUnlock1 off v
  | .unlock1 => .flUnlock2 off v
  | .unlock2 =>
    if isCommand cmdIdEnter off v then .flIdEnter
    else if isCommand cmdIdExit off v then .flIdExit
    else if isCommand cmdEraseSetup off v then .flEraseSetup
    else if isCommand cmdProgram off v then .flProgramSetup
    else if isCommand cmdBankSelect off v then .flBankSetup
    else .flUnlock2Other off v
  | .idMode => .flIdModeWrite off v
  | .eraseArmed => .flEraseUnlock1 off v
  | .eraseUnlock1 => .flEraseUnlock2 off v
  | .eraseUnlock2 =>
    if isCommand cmdChipErase off v then .flChipErase
    else if isSectorErase off v then .flSectorErase off
    else .flEraseOther off v
  | .writeMode => .flProgram off v
  | .bankSwitch => .flBankSelect off v

/-- The row of a call, or why there is none. -/
def decode (c : DecodeCtx) : Packet → Except DecodeError Instr
  | .txn4 t addr data => decodeTxn c t addr data
  | .lifecycleLoad d => .ok (.load d)
  | .lifecycleUnload => .ok .unload
  | .eepBit b => .ok (decodeEepBit c b)
  | .eepRead => .ok (decodeEepRead c)
  | .eepFrame bits => decodeFrame bits
  | .eepReadSeq => .ok .eepRead64
  | .eepFrameThenRead bits => decodeUnresolved bits
  | .flashCmd w => .ok (decodeFlash c (cmdOff w) (cmdByte w))
  | .flashRead off => .ok (.flRead off)

/-- The write bits of a read-request frame (R65). -/
def readFrameBits (w k : Nat) (s : Bool) : List Bool := true :: true :: (bitsOf w k ++ [s])

/-- The write bits of a write-request frame (R66). -/
def writeFrameBits (w k d : Nat) (s : Bool) : List Bool := true :: false :: (bitsOf w k ++ (bitsOf 64 d ++ [s]))

/-- The words of a row, from R61, R65, R66 and R70. -/
def encode : Instr → Packet
  | .readB addr openBus => .txn4 0b0000#4 addr openBus
  | .readH addr openBus => .txn4 0b0001#4 addr openBus
  | .readW addr openBus => .txn4 0b0010#4 addr openBus
  | .writeB addr wdata => .txn4 0b0100#4 addr wdata
  | .writeH addr wdata => .txn4 0b0101#4 addr wdata
  | .writeW addr wdata => .txn4 0b0110#4 addr wdata
  | .power => .txn4 0b1000#4 0 0
  | .load d => .lifecycleLoad d
  | .unload => .lifecycleUnload
  | .eepStart b => .eepBit b
  | .eepReqRead => .eepBit true
  | .eepReqWrite => .eepBit false
  | .eepAddrBit b => .eepBit b
  | .eepStreamBit b => .eepBit b
  | .eepDataBit b => .eepBit b
  | .eepReadStop b => .eepBit b
  | .eepWriteStop b => .eepBit b
  | .eepAbortRead b => .eepBit b
  | .eepReadBit => .eepRead
  | .eepReadDetect => .eepRead
  | .eepReadIdle => .eepRead
  | .eepPower => .txn4 0b1000#4 0 0
  | .eepReadFrame6 k s => .eepFrame (readFrameBits 6 k.toNat s)
  | .eepReadFrame14 k s => .eepFrame (readFrameBits 14 k.toNat s)
  | .eepWriteFrame6 k d s => .eepFrame (writeFrameBits 6 k.toNat d.toNat s)
  | .eepWriteFrame14 k d s => .eepFrame (writeFrameBits 14 k.toNat d.toNat s)
  | .eepRead64 => .eepReadSeq
  | .eepFrameUnresolved q stream => .eepFrameThenRead (true :: q :: stream)
  | .flUnlock1 off v => .flashCmd (cmdWord off v)
  | .flUnlock2 off v => .flashCmd (cmdWord off v)
  | .flIdEnter => .flashCmd (cmdWord flashCmdAddr cmdIdEnter)
  | .flIdExit => .flashCmd (cmdWord flashCmdAddr cmdIdExit)
  | .flEraseSetup => .flashCmd (cmdWord flashCmdAddr cmdEraseSetup)
  | .flProgramSetup => .flashCmd (cmdWord flashCmdAddr cmdProgram)
  | .flBankSetup => .flashCmd (cmdWord flashCmdAddr cmdBankSelect)
  | .flUnlock2Other off v => .flashCmd (cmdWord off v)
  | .flIdModeWrite off v => .flashCmd (cmdWord off v)
  | .flEraseUnlock1 off v => .flashCmd (cmdWord off v)
  | .flEraseUnlock2 off v => .flashCmd (cmdWord off v)
  | .flChipErase => .flashCmd (cmdWord flashCmdAddr cmdChipErase)
  | .flSectorErase off => .flashCmd (cmdWord off cmdSectorErase)
  | .flEraseOther off v => .flashCmd (cmdWord off v)
  | .flProgram off v => .flashCmd (cmdWord off v)
  | .flBankSelect off v => .flashCmd (cmdWord off v)
  | .flRead off => .flashRead off
  | .flPower => .txn4 0b1000#4 0 0

/-- The opcode table's "phase" column and the kinds of its POWER rows: whether context `c` is the one in which the row of
`i` is the one its words stand for. -/
def selects (c : DecodeCtx) : Instr → Bool
  | .readB _ _ => true
  | .readH _ _ => true
  | .readW _ _ => true
  | .writeB _ _ => true
  | .writeH _ _ => true
  | .writeW _ _ => true
  | .power => c.kind == .none || c.kind == .staticRAM
  | .load _ => true
  | .unload => true
  | .eepStart _ => c.eepPhase == .idle
  | .eepReqRead => c.eepPhase == .command
  | .eepReqWrite => c.eepPhase == .command
  | .eepAddrBit _ => c.eepPhase == .address && c.eepBits != none
  | .eepStreamBit _ => c.eepPhase == .address && c.eepBits == none
  | .eepDataBit _ => c.eepPhase == .writeData
  | .eepReadStop _ => c.eepPhase == .readStop
  | .eepWriteStop _ => c.eepPhase == .writeStop
  | .eepAbortRead _ => c.eepPhase == .readData
  | .eepReadBit => c.eepPhase == .readData
  | .eepReadDetect => c.eepPhase == .address && c.eepBits == none
  | .eepReadIdle => c.eepPhase != .readData && !(c.eepPhase == .address && c.eepBits == none)
  | .eepPower => c.kind == .serialEEPROM
  | .eepReadFrame6 _ _ => true
  | .eepReadFrame14 _ _ => true
  | .eepWriteFrame6 _ _ _ => true
  | .eepWriteFrame14 _ _ _ => true
  | .eepRead64 => true
  | .eepFrameUnresolved _ _ => true
  | .flUnlock1 _ _ => c.flashPhase == .idle
  | .flUnlock2 _ _ => c.flashPhase == .unlock1
  | .flIdEnter => c.flashPhase == .unlock2
  | .flIdExit => c.flashPhase == .unlock2
  | .flEraseSetup => c.flashPhase == .unlock2
  | .flProgramSetup => c.flashPhase == .unlock2
  | .flBankSetup => c.flashPhase == .unlock2
  | .flUnlock2Other _ _ => c.flashPhase == .unlock2
  | .flIdModeWrite _ _ => c.flashPhase == .idMode
  | .flEraseUnlock1 _ _ => c.flashPhase == .eraseArmed
  | .flEraseUnlock2 _ _ => c.flashPhase == .eraseUnlock1
  | .flChipErase => c.flashPhase == .eraseUnlock2
  | .flSectorErase _ => c.flashPhase == .eraseUnlock2
  | .flEraseOther _ _ => c.flashPhase == .eraseUnlock2
  | .flProgram _ _ => c.flashPhase == .writeMode
  | .flBankSelect _ _ => c.flashPhase == .bankSwitch
  | .flRead _ => true
  | .flPower => c.kind == .flashROM

/-- The FlashROM phase whose row in the opcode table names the command word `c`; a word no row names is `Unlock2`'s
"any word not matched above" (entry 17). -/
def tableFlashPhase (off : BitVec 16) (v : Byte) : FlashPhase :=
  if isUnlock1 off v then .idle
  else if isUnlock2 off v then .unlock1
  else if isUnlock2Command off v then .unlock2
  else if isEraseConfirm off v then .eraseUnlock2
  else .unlock2

/-- The context in which a word of the opcode table is read when nothing else is known (entry 17). -/
def tableCtx : Packet → DecodeCtx
  | .flashCmd w => ⟨.flashROM, .idle, none, tableFlashPhase (cmdOff w) (cmdByte w)⟩
  | .flashRead _ => ⟨.flashROM, .idle, none, .idle⟩
  | .eepBit _ => ⟨.serialEEPROM, .idle, none, .idle⟩
  | .eepRead => ⟨.serialEEPROM, .idle, none, .idle⟩
  | .eepFrame _ => ⟨.serialEEPROM, .idle, none, .idle⟩
  | .eepReadSeq => ⟨.serialEEPROM, .idle, none, .idle⟩
  | .eepFrameThenRead _ => ⟨.serialEEPROM, .idle, none, .idle⟩
  | .txn4 _ _ _ => ⟨.none, .idle, none, .idle⟩
  | .lifecycleLoad _ => ⟨.none, .idle, none, .idle⟩
  | .lifecycleUnload => ⟨.none, .idle, none, .idle⟩

/-- The packet of a table word of `nbits` bits: 8 is a transaction code, 16 a FlashROM read offset, 24 a FlashROM command
word, 80 and 88 the 73- and 81-bit write frames read as one number (entry 17). The fields above the word are 0. -/
def tablePacket (nbits w : Nat) : Option Packet :=
  if nbits = 8 then (if w < 16 then some (.txn4 (BitVec.ofNat 4 w) 0 0) else none)
  else if nbits = 16 then some (.flashRead (BitVec.ofNat 16 w))
  else if nbits = 24 then some (.flashCmd (BitVec.ofNat 24 w))
  else if nbits = 80 then some (.eepFrame (bitsOf 73 w))
  else if nbits = 88 then some (.eepFrame (bitsOf 81 w))
  else none

/-- The row the decoder reads from the table word `w` of `nbits` bits. -/
def decodeTableWord (nbits w : Nat) : Option Instr :=
  match tablePacket nbits w with
  | some p =>
    match decode (tableCtx p) p with
    | .ok i => some i
    | .error _ => none
  | none => none

end Sys2Proof
end

