-- ==== Sys2Proof/Machine/State.lean ====
section
/-!
DEFINITION. The machine's state as plain data (10_state.md), the calls it takes, the responses it gives, the reasons a
step stops, and the state at creation (R34, R200).
-/

namespace Sys2Proof.Machine

/-- A byte array as (index, byte) pairs: indices strictly rising, no entry equal to what an unlisted index reads as
(Machine/Ops.lean's Memory.wf; entry 11). -/
abbrev Memory := List Host.Cell

/-- `cart.*` (R22). -/
structure Cart where
  loaded : Bool
  kind : Kind
  deriving DecidableEq, Repr

/-- `rom.*` (R22, R30). -/
structure Rom where
  size : Nat
  image : Memory
  deriving DecidableEq, Repr

/-- `eep.*` (R22, R23). `bits` absent is the value 0, unresolved (R25). -/
structure Eep where
  size : Nat
  bits : Option AddrWidth
  winMask : Word
  winMatch : Word
  phase : EepPhase
  op : EepOp
  count : Nat
  addr : BitVec 14
  buf : BitVec 64
  stream : List Bool
  content : Memory
  deriving DecidableEq, Repr

/-- `flash.*` (R22, R26). -/
structure Flash where
  size : Nat
  id : BitVec 16
  phase : FlashPhase
  bank : BitVec 1
  content : Memory
  deriving DecidableEq, Repr

/-- `sram.*` (R22, R30). -/
structure Sram where
  size : Nat
  mask : Word
  content : Memory
  deriving DecidableEq, Repr

/-- The array `contentPointer()` gives (R94). -/
inductive ContentArray where
  | eepContent | flashContent | sramContent
  deriving DecidableEq, Repr

/-- What the caller of the last call got back (R60, R95; entry 3). -/
inductive Response where
  /-- A write, a power event or an unload: nothing (R60). -/
  | nothing
  /-- `rdata` of one read, zero-extended to 32 bits (R60, R80). -/
  | rdata (v : Word)
  /-- The bits of a sequence of reads, in order (R122). -/
  | bits (bs : List Bool)
  /-- `Load` succeeded (R95). -/
  | loadOk
  /-- `Load` raised ConfigurationError (R181). -/
  | configurationError (code : ConfigError)
  /-- `contentPointer()`: an array, or null (R94). -/
  | pointer (a : Option ContentArray)
  /-- `contentSize()` (R94). -/
  | size (n : Nat)
  /-- A content byte read through `contentPointer()` (R95). -/
  | contentByte (b : Byte)
  deriving DecidableEq, Repr

/-- What the persistence collaborator may do between transactions (R94, R95; entry 19). -/
inductive PersistenceCall where
  | contentPointer
  | contentSize
  | readContent (i : Nat)
  | writeContent (i : Nat) (b : Byte)
  deriving DecidableEq, Repr

/-- One call to the block (R60, R95): a word of the opcode table's formats, or a persistence access. -/
inductive Call where
  | packet (p : Packet)
  | persistence (c : PersistenceCall)
  deriving DecidableEq, Repr

/-- The whole state. `params` are the open parameters of R7, `input`, `resp` and `draws` the model's own (entries 1, 3,
7, 8); every other field is the spec's (R22, R23, R26, R30). -/
structure State where
  cart : Cart
  rom : Rom
  eep : Eep
  flash : Flash
  sram : Sram
  params : Params
  input : List Call
  resp : Response
  draws : Nat
  deriving DecidableEq, Repr

/-- No call faults: "No bus transaction raises an exception, traps or fails" (R180), and ConfigurationError is a response
(R181). The type has no value. -/
inductive Fault where
  deriving DecidableEq, Repr

/-- Why a step is refused. -/
inductive Refusal where
  /-- exec's arms for an instruction without a meaning (none is left). Safe. -/
  | notModelled (mnemonic : String)
  /-- A read or write while `cart.loaded = false`, and an engine row then: raised by the bus rows and the engine rows
  (R92: "a model refuses it"). Safe. -/
  | unloaded
  /-- An engine row while its engine is not the active backing store: raised by the EEP and FL rows (R22: its fields "have
  no meaning and are never read"; entry 5). Safe. -/
  | engineInactive
  /-- A reserved transaction code: raised by step on what decode rejects (R62). Safe. -/
  | reservedTxn (t : BitVec 4)
  /-- A bit string that is no frame of the table: raised by step on what decode rejects (entry 6). Safe. -/
  | notAFrame
  /-- A declared size within the maximum but outside the legal sets: raised by LOAD (R181, D15, D27; entry 13). Safe. -/
  | illegalSize
  /-- A content byte access with no active backing store or outside `contentSize()`: raised by persistence calls (R95:
  "must keep within contentSize()"; entry 19). Safe. -/
  | contentOutOfRange
  deriving DecidableEq, Repr

/-- What a step answers. -/
abbrev Result := Host.Outcome State Fault Refusal

/-- The machine at creation: `cart.loaded = false` (R34, R200); every other field is unspecified there and holds the value
entry 10 names; the open parameters are constants without a body (entry 7). -/
def State.reset : State where
  cart := { loaded := false, kind := .none }
  rom := { size := 0, image := [] }
  eep := { size := 0, bits := none, winMask := 0, winMatch := 0, phase := .idle, op := .read, count := 0, addr := 0,
           buf := 0, stream := [], content := [] }
  flash := { size := 0, id := 0, phase := .idle, bank := 0, content := [] }
  sram := { size := 0, mask := 0, content := [] }
  params := { readLeadin := Config.eepReadLeadin, widthDetect := Config.eepWidthDetect, sramMax := Config.sramMax }
  input := []
  resp := .nothing
  draws := 0

end Sys2Proof.Machine
end

