-- ==== Sys2Proof/Machine/Ops.lean ====
section
/-!
DEFINITION. The named operations over byte arrays and over the state that the families share: array reads and writes, the
address classifier (R41), responses, and ConfigurationError, the one exception of the spec (R181); there is no exception
return (R182).
-/

namespace Sys2Proof.Machine

/-- What an unlisted index reads as: the erased byte, "all-1 bytes" (R12, R34; entry 11). -/
def erasedByte : Byte := 0xFF#8

/-- The byte at index `a`. -/
def Memory.read : Memory → Nat → Byte
  | [], _ => erasedByte
  | (k, v) :: m, a => if k = a then v else Memory.read m a

/-- Write byte `b` at index `a`, keeping the canonical form. -/
def Memory.write : Memory → Nat → Byte → Memory
  | [], a, b => if b = erasedByte then [] else [(a, b)]
  | (k, v) :: m, a, b =>
    if a < k then (if b = erasedByte then (k, v) :: m else (a, b) :: (k, v) :: m)
    else if a = k then (if b = erasedByte then m else (a, b) :: m)
    else (k, v) :: Memory.write m a b

/-- Write bytes at consecutive indices from `a`. -/
def Memory.writeBytes (m : Memory) (a : Nat) : List Byte → Memory
  | [] => m
  | b :: bs => Memory.writeBytes (Memory.write m a b) (a + 1) bs

/-- Set the `n` bytes from index `lo` to the erased byte (R150, R151, R201). -/
def Memory.erase (m : Memory) (lo n : Nat) : Memory := m.filter fun c => decide (c.1 < lo ∨ lo + n ≤ c.1)

/-- The array whose bytes from index `a` are `bs` and whose other bytes are erased (R201). -/
def Memory.ofBytes (a : Nat) : List Byte → Memory
  | [] => []
  | b :: bs => if b = erasedByte then Memory.ofBytes (a + 1) bs else (a, b) :: Memory.ofBytes (a + 1) bs

/-- Every listed index is at least `lo`, indices rise strictly, and no listed byte is the erased byte. -/
def Memory.wfFrom (lo : Nat) : Memory → Bool
  | [] => true
  | (k, v) :: m => decide (lo ≤ k) && decide (v ≠ erasedByte) && Memory.wfFrom (k + 1) m

/-- The canonical form of a byte array. -/
def Memory.wf (m : Memory) : Bool := Memory.wfFrom 0 m

/-- No index at or above `n` is listed (R29). -/
def Memory.within (m : Memory) (n : Nat) : Bool := m.all fun c => decide (c.1 < n)

/-- The target of a transaction (R41). -/
inductive Target where
  | staticRAM | serialEEPROM | flashROM | programImage | openBus
  deriving DecidableEq, Repr

/-- `(a & 0x0E000000) = 0x0E000000`, the window of StaticRAM and FlashROM (R41). -/
def inSaveWindow (a : Word) : Bool := a &&& 0x0E000000#32 == 0x0E000000#32

/-- `(a & eep.winMask) = eep.winMatch` (R41). -/
def inEepWindow (e : Eep) (a : Word) : Bool := a &&& e.winMask == e.winMatch

/-- `classify(a)`: the first test that holds (R41), on the address as issued (R43). -/
def classify (s : State) (a : Word) : Target :=
  if s.cart.kind = .staticRAM ∧ inSaveWindow a then .staticRAM
  else if s.cart.kind = .serialEEPROM ∧ inEepWindow s.eep a then .serialEEPROM
  else if s.cart.kind = .flashROM ∧ inSaveWindow a then .flashROM
  else if a < 0x0E000000#32 then .programImage
  else .openBus

/-- The EEPROM window that `Load` sets from `rom.size`: mask and match (R42). -/
def eepWindow (romSize : Nat) : Word × Word :=
  if romSize > romSmallMax then (eepWinMaskLarge, eepWinMatchLarge) else (eepWinMaskSmall, eepWinMatchSmall)

/-- The active backing store: none while unloaded (R92, R203). -/
def activeKind (s : State) : Kind := if s.cart.loaded then s.cart.kind else .none

/-- The decoder's view of the state (R100, R140). -/
def decodeCtx (s : State) : DecodeCtx := ⟨activeKind s, s.eep.phase, s.eep.bits, s.flash.phase⟩

/-- The answer of an engine row: refused while unloaded (R92) and while the engine is not the active one (R22; entry 5). -/
def onEngine (k : Kind) (s : State) (s' : State) : Result :=
  if s.cart.loaded = false then .refused .unloaded
  else if s.cart.kind = k then .next s'
  else .refused .engineInactive

/-- `raise ConfigurationError(code)`: `cart.loaded = false`, and the caller of `Load` gets the code (R181; entry 12). -/
def raiseConfigurationError (code : ConfigError) (s : State) : State :=
  { s with cart := { s.cart with loaded := false }, resp := .configurationError code }

end Sys2Proof.Machine
end

