-- ==== Sys2Proof/Machine/Operands.lean ====
section
/-!
DEFINITION. Operand forms: alignment (R44), byte order (R45), and the fields each target takes of an address or a value
(R46 to R50).
-/

namespace Sys2Proof.Machine

/-- The bytes of an access: n = 1, 2 or 4 (R60). -/
def widthBytes : AccessWidth → Nat
  | .byte => 1
  | .half => 2
  | .word => 4

/-- `align(a, width)` (R44). -/
def align : AccessWidth → Word → Word
  | .byte, a => a
  | .half, a => a &&& ~~~1#32
  | .word, a => a &&& ~~~3#32

/-- The little-endian composition of bytes, zero-extended to 32 bits (R45, R47). -/
def leWord : List Byte → Word
  | [] => 0#32
  | b :: bs => b.setWidth 32 ||| (leWord bs <<< 8)

/-- Byte `i` of a value: `v[8i+7:8i]` (R45). -/
def byteOf (v : Word) (i : Nat) : Byte := v.extractLsb' (8 * i) 8

/-- The `n` low bytes of a value, lowest first (R45, R87). -/
def lowBytes (n : Nat) (v : Word) : List Byte := (List.range n).map (byteOf v)

/-- `zext(bit)` (R46). -/
def zextBit (b : Bool) : Word := (BitVec.ofBool b).setWidth 32

/-- `v[0]`, the serial bit of an EEPROM write (R46). -/
def serialBit (v : Word) : Bool := v.getLsbD 0

/-- `A[15:0]`, the FlashROM offset (R49). -/
def flashOffset (A : Word) : BitVec 16 := A.setWidth 16

/-- `v[7:0]`, the byte of a FlashROM write (R48). -/
def flashByte (v : Word) : Byte := v.setWidth 8

/-- `openBus[8n-1:0]`, zero-extended (R90). -/
def openBusValue : AccessWidth → Word → Word
  | .byte, v => v &&& 0x000000FF#32
  | .half, v => v &&& 0x0000FFFF#32
  | .word, v => v

/-- `(A & 0x01FFFFFF) + i mod rom.size` (R88). -/
def romIndex (r : Rom) (A : Word) (i : Nat) : Nat := ((A &&& 0x01FFFFFF#32).toNat + i) % r.size

/-- `(A + i) & sram.mask` (R86, R87). -/
def sramIndex (m : Sram) (A : Word) (i : Nat) : Nat := ((A + BitVec.ofNat 32 i) &&& m.mask).toNat

/-- Shift a bit in at the least significant end, modulo the width (R103, R106). -/
def shiftIn {w : Nat} (v : BitVec w) (b : Bool) : BitVec w := (v <<< 1) ||| (BitVec.ofBool b).setWidth w

/-- The address bits of a width (R22). -/
def addrBits : AddrWidth → Nat
  | .six => 6
  | .fourteen => 14

/-- `EEP_READ_LEADIN` as a number (R7). -/
def leadinCount : ReadLeadin → Nat
  | .zero => 0
  | .four => 4

/-- `EEP_WIDTH_DETECT(n)` (R7, R111). -/
def widthDetect : List (Int × AddrWidth) → Int → Option AddrWidth
  | [], _ => none
  | (k, w) :: t, n => if k = n then some w else widthDetect t n

/-- The block bytes `d[63:56], d[55:48], …, d[7:0]` (R68, R108). -/
def blockBytes (d : BitVec 64) : List Byte := (List.range 8).map fun i => d.extractLsb' (56 - 8 * i) 8

end Sys2Proof.Machine
end

