-- ==== Sys2Proof/Machine/EepromEngine.lean ====
section
/-!
DEFINITION. The Serial EEPROM engine: one function per arm of `EepWriteBit` and `EepReadBit` (41_eeprom.md), on the
engine's own state. The EEP rows and the bus rows call these.
-/

namespace Sys2Proof.Machine

/-- What one `EepReadBit()` gives: the bit, the engine after it, and how many values have been drawn. -/
structure EepRead where
  bit : Bool
  eep : Eep
  draws : Nat
  deriving DecidableEq, Repr

/-- `EepToIdle()`, the canonical idle state (R100). -/
def eepToIdle (e : Eep) : Eep :=
  { e with phase := .idle, op := .read, count := 0, addr := 0, buf := 0, stream := [] }

/-- `EepBase()` (R50, R100). -/
def eepBase (e : Eep) : Nat := e.addr.toNat % (e.size / 8) * 8

/-- `EepDataBit(j)` (R50, R100). -/
def eepDataBit (e : Eep) (j : Nat) : Bool := (e.content.read (eepBase e + j / 8)).getLsbD (7 - j % 8)

/-- `EepCommit()`: the 8 bytes of the block (R108). -/
def eepCommit (e : Eep) : Eep := { e with content := e.content.writeBytes (eepBase e) (blockBytes e.buf) }

/-- EEP.START (R101). -/
def eepStartArm (b : Bool) (e : Eep) : Eep := if b then { e with phase := .command } else e

/-- EEP.REQ_READ and EEP.REQ_WRITE (R102). -/
def eepRequestArm (b : Bool) (e : Eep) : Eep :=
  { e with op := if b then .read else .write, phase := .address, count := 0, addr := 0, buf := 0, stream := [] }

/-- The address is complete (R104). -/
def eepLatch (e : Eep) : Eep :=
  match e.op with
  | .read => { e with phase := .readStop, count := 0 }
  | .write => { e with phase := .writeData, count := 0, buf := 0 }

/-- EEP.ADDR_BIT (R103, R104). -/
def eepAddrArm (w : AddrWidth) (b : Bool) (e : Eep) : Eep :=
  let shifted := { e with addr := shiftIn e.addr b, count := e.count + 1 }
  if e.count + 1 = addrBits w then eepLatch shifted else shifted

/-- EEP.STREAM_BIT (R105). -/
def eepStreamArm (b : Bool) (e : Eep) : Eep :=
  if e.stream.length = eepStreamCap then eepToIdle e else { e with stream := e.stream ++ [b] }

/-- EEP.DATA_BIT (R106): the commit is on the 64th bit. -/
def eepDataArm (b : Bool) (e : Eep) : Eep :=
  let shifted := { e with buf := shiftIn e.buf b, count := e.count + 1 }
  if e.count + 1 = 64 then { eepCommit shifted with phase := .writeStop, count := 0 } else shifted

/-- EEP.READ_STOP (R107); the bit's value is ignored. -/
def eepReadStopArm (_b : Bool) (e : Eep) : Eep := { e with phase := .readData, count := 0 }

/-- EEP.WRITE_STOP (R109); the bit's value is ignored. -/
def eepWriteStopArm (_b : Bool) (e : Eep) : Eep := eepToIdle e

/-- EEP.ABORT_READ (R110): to idle, then R101 on the bit. -/
def eepAbortArm (b : Bool) (e : Eep) : Eep := eepStartArm b (eepToIdle e)

/-- `EepWriteBit(b)`: the one arm that the phase selects (R100, R121). -/
def eepWriteBit (b : Bool) (e : Eep) : Eep :=
  match e.phase with
  | .idle => eepStartArm b e
  | .command => eepRequestArm b e
  | .address =>
    match e.bits with
    | some w => eepAddrArm w b e
    | none => eepStreamArm b e
  | .readStop => eepReadStopArm b e
  | .readData => eepAbortArm b e
  | .writeData => eepDataArm b e
  | .writeStop => eepWriteStopArm b e

/-- EEP.READ_BIT, `EepReadData()` (R114): a lead-in draw or a data bit (entry 8). -/
def eepReadDataArm (p : Params) (draws : Nat) (e : Eep) : EepRead :=
  let lead := leadinCount p.readLeadin
  let next := { e with count := e.count + 1 }
  { bit := if e.count < lead then Config.freeBit draws else eepDataBit e (e.count - lead)
    eep := if e.count + 1 = lead + 64 then eepToIdle next else next
    draws := if e.count < lead then draws + 1 else draws }

/-- The integer n that `EEP_WIDTH_DETECT` is asked about (R69, R111). -/
def eepDetectCount (e : Eep) : Int :=
  match e.op with
  | .read => (e.stream.length : Int) - 1
  | .write => (e.stream.length : Int) - 65

/-- The stream up to `n` elements; the spec states no value for an element past its end, so one is drawn (entry 9). -/
def eepPadded (stream : List Bool) (n draws : Nat) : List Bool :=
  stream ++ (List.range (n - stream.length)).map fun i => Config.freeBit (draws + i)

/-- EEP.DETECT of a read request with width `w`: this read is read number 0 of the data (R111). -/
def eepDetectRead (w : AddrWidth) (p : Params) (draws : Nat) (e : Eep) : EepRead :=
  let bits := eepPadded e.stream (addrBits w) draws
  eepReadDataArm p (draws + (addrBits w - e.stream.length))
    { e with bits := some w, addr := BitVec.ofNat 14 (bitsVal (bits.take (addrBits w))), stream := [], phase := .readData,
             count := 0 }

/-- EEP.DETECT of a write request with width `w`: commit, then idle; the read returns 1 (R111). -/
def eepDetectWrite (w : AddrWidth) (draws : Nat) (e : Eep) : EepRead :=
  let bits := eepPadded e.stream (addrBits w + 64) draws
  let latched := { e with bits := some w, addr := BitVec.ofNat 14 (bitsVal (bits.take (addrBits w))),
                          buf := BitVec.ofNat 64 (bitsVal ((bits.drop (addrBits w)).take 64)) }
  { bit := true, eep := eepToIdle (eepCommit latched), draws := draws + (addrBits w + 64 - e.stream.length) }

/-- EEP.READ_DETECT, `EepDetect()` (R111, R112, R115). -/
def eepDetectArm (p : Params) (draws : Nat) (e : Eep) : EepRead :=
  match widthDetect p.widthDetect (eepDetectCount e) with
  | none => { bit := true, eep := eepToIdle e, draws := draws }
  | some w =>
    match e.op with
    | .read => eepDetectRead w p draws e
    | .write => eepDetectWrite w draws e

/-- EEP.READ_IDLE (R116): 1, and no change. -/
def eepReadIdleArm (draws : Nat) (e : Eep) : EepRead := { bit := true, eep := e, draws := draws }

/-- `EepReadBit()`: the one arm that the phase selects (R113, R121). -/
def eepReadBit (p : Params) (draws : Nat) (e : Eep) : EepRead :=
  match e.phase with
  | .readData => eepReadDataArm p draws e
  | .address =>
    match e.bits with
    | some _ => eepReadIdleArm draws e
    | none => eepDetectArm p draws e
  | .idle => eepReadIdleArm draws e
  | .command => eepReadIdleArm draws e
  | .readStop => eepReadIdleArm draws e
  | .writeData => eepReadIdleArm draws e
  | .writeStop => eepReadIdleArm draws e

/-- One serial write bit delivered to the engine (R83). -/
def deliverEepBit (b : Bool) (s : State) : State := { s with eep := eepWriteBit b s.eep, resp := .nothing }

/-- Serial write bits delivered one after another (R53, R64). -/
def deliverEepBits : List Bool → State → State
  | [], s => s
  | b :: bs, s => deliverEepBits bs (deliverEepBit b s)

/-- One serial read, its bit zero-extended (R82). -/
def deliverEepRead (s : State) : State :=
  let r := eepReadBit s.params s.draws s.eep
  { s with eep := r.eep, draws := r.draws, resp := .rdata (zextBit r.bit) }

/-- `n` serial reads one after another: the bits, the engine and the draws after them (R53, R67). -/
def eepReadBits (p : Params) : Nat → Nat → Eep → List Bool × Eep × Nat
  | 0, draws, e => ([], e, draws)
  | n + 1, draws, e =>
    let r := eepReadBit p draws e
    let rest := eepReadBits p n r.draws r.eep
    (r.bit :: rest.1, rest.2)

/-- `Power()` of the engine (R118). -/
def eepPower (s : State) : State := { s with eep := eepToIdle s.eep, resp := .nothing }

end Sys2Proof.Machine
end

