-- ==== Sys2Proof/Machine/FlashEngine.lean ====
section
/-!
DEFINITION. The FlashROM engine: one function per arm of `FlashWriteByte`, and `FlashReadByte` (42_flashrom.md), on the
engine's own state. The FL rows and the bus rows call these.
-/

namespace Sys2Proof.Machine

/-- `FlashToIdle()` (42_flashrom.md, shared definitions). -/
def flashToIdle (f : Flash) : Flash := { f with phase := .idle }

/-- `FlashIdx(off)`, the bank-adjusted address (R49). -/
def flashIdx (f : Flash) (off : BitVec 16) : Nat := f.bank.toNat * flashBankSize + off.toNat

/-- FL.UNLOCK1 (R142). -/
def flashUnlock1Arm (off : BitVec 16) (v : Byte) (f : Flash) : Flash :=
  if isUnlock1 off v then { f with phase := .unlock1 } else flashToIdle f

/-- FL.UNLOCK2 (R143). -/
def flashUnlock2Arm (off : BitVec 16) (v : Byte) (f : Flash) : Flash :=
  if isUnlock2 off v then { f with phase := .unlock2 } else flashToIdle f

/-- FL.ID_ENTER (R144). -/
def flashIdEnterArm (f : Flash) : Flash := { f with phase := .idMode }

/-- FL.ID_EXIT (R145). -/
def flashIdExitArm (f : Flash) : Flash := flashToIdle f

/-- FL.ERASE_SETUP (R146). -/
def flashEraseSetupArm (f : Flash) : Flash := { f with phase := .eraseArmed }

/-- FL.PROGRAM_SETUP (R152). -/
def flashProgramSetupArm (f : Flash) : Flash := { f with phase := .writeMode }

/-- FL.BANK_SETUP (R154): recognised on a 128 KiB part only. -/
def flashBankSetupArm (f : Flash) : Flash :=
  if f.size = flashMax then { f with phase := .bankSwitch } else flashToIdle f

/-- FL.UNLOCK2_OTHER (R156). -/
def flashUnlock2OtherArm (f : Flash) : Flash := flashToIdle f

/-- FL.ID_MODE_WRITE (R147): to idle, then R142 on the same write. -/
def flashIdModeWriteArm (off : BitVec 16) (v : Byte) (f : Flash) : Flash := flashUnlock1Arm off v (flashToIdle f)

/-- FL.ERASE_UNLOCK1 (R148). -/
def flashEraseUnlock1Arm (off : BitVec 16) (v : Byte) (f : Flash) : Flash :=
  if isUnlock1 off v then { f with phase := .eraseUnlock1 } else flashToIdle f

/-- FL.ERASE_UNLOCK2 (R149). -/
def flashEraseUnlock2Arm (off : BitVec 16) (v : Byte) (f : Flash) : Flash :=
  if isUnlock2 off v then { f with phase := .eraseUnlock2 } else flashToIdle f

/-- FL.CHIP_ERASE (R150). -/
def flashChipEraseArm (f : Flash) : Flash := flashToIdle { f with content := f.content.erase 0 f.size }

/-- FL.SECTOR_ERASE (R151). -/
def flashSectorEraseArm (off : BitVec 16) (f : Flash) : Flash :=
  flashToIdle { f with content := f.content.erase (flashIdx f off) flashSectorSize }

/-- FL.ERASE_OTHER (R157). -/
def flashEraseOtherArm (f : Flash) : Flash := flashToIdle f

/-- FL.PROGRAM (R153): a program can only clear bits. -/
def flashProgramArm (off : BitVec 16) (v : Byte) (f : Flash) : Flash :=
  flashToIdle { f with content := f.content.write (flashIdx f off) (f.content.read (flashIdx f off) &&& v) }

/-- FL.BANK_SELECT (R155). -/
def flashBankSelectArm (off : BitVec 16) (v : Byte) (f : Flash) : Flash :=
  flashToIdle (if off = bankDataOffset then { f with bank := v.setWidth 1 } else f)

/-- `FlashWriteByte(off, v)`: the one arm that the phase and the word select (R140, R159). -/
def flashWriteByte (off : BitVec 16) (v : Byte) (f : Flash) : Flash :=
  match f.phase with
  | .idle => flashUnlock1Arm off v f
  | .unlock1 => flashUnlock2Arm off v f
  | .unlock2 =>
    if isCommand cmdIdEnter off v then flashIdEnterArm f
    else if isCommand cmdIdExit off v then flashIdExitArm f
    else if isCommand cmdEraseSetup off v then flashEraseSetupArm f
    else if isCommand cmdProgram off v then flashProgramSetupArm f
    else if isCommand cmdBankSelect off v then flashBankSetupArm f
    else flashUnlock2OtherArm f
  | .idMode => flashIdModeWriteArm off v f
  | .eraseArmed => flashEraseUnlock1Arm off v f
  | .eraseUnlock1 => flashEraseUnlock2Arm off v f
  | .eraseUnlock2 =>
    if isCommand cmdChipErase off v then flashChipEraseArm f
    else if isSectorErase off v then flashSectorEraseArm off f
    else flashEraseOtherArm f
  | .writeMode => flashProgramArm off v f
  | .bankSwitch => flashBankSelectArm off v f

/-- `FlashReadByte(off)` (R161): the byte, and how many values have been drawn (entry 8). -/
def flashReadByte (f : Flash) (off : BitVec 16) (draws : Nat) : Byte × Nat :=
  if f.phase = .idMode then
    if off = 0x0000#16 then (f.id.extractLsb' 0 8, draws)
    else if off = 0x0001#16 then (f.id.extractLsb' 8 8, draws)
    else (Config.freeByte draws, draws + 1)
  else (f.content.read (flashIdx f off), draws)

/-- `n` byte reads from `off`, lowest first, offsets modulo 2^16 (R47). -/
def flashReadBytes (f : Flash) : Nat → BitVec 16 → Nat → List Byte × Nat
  | 0, _, draws => ([], draws)
  | n + 1, off, draws =>
    let r := flashReadByte f off draws
    let rest := flashReadBytes f n (off + 1#16) r.2
    (r.1 :: rest.1, rest.2)

/-- `FlashRead(A, n)` (R47, R84). -/
def deliverFlashRead (n : Nat) (off : BitVec 16) (s : State) : State :=
  let r := flashReadBytes s.flash n off s.draws
  { s with draws := r.2, resp := .rdata (leWord r.1) }

/-- One byte write delivered to the engine (R85). -/
def deliverFlashByte (off : BitVec 16) (v : Byte) (s : State) : State :=
  { s with flash := flashWriteByte off v s.flash, resp := .nothing }

/-- `Power()` of the engine (R160). -/
def flashPower (s : State) : State := { s with flash := flashToIdle s.flash, resp := .nothing }

end Sys2Proof.Machine
end

