-- ==== Sys2Proof/Machine/Bus.lean ====
section
/-!
DEFINITION. The bus transactions: READ.B/H/W (R80), WRITE.B/H/W (R81), POWER (R203), and the context targets ProgramImage,
StaticRAM and open bus (R86 to R91).
-/

namespace Sys2Proof.Machine

/-- `SramRead(A, n)` (R86). -/
def sramRead (m : Sram) (A : Word) (n : Nat) : Word :=
  leWord ((List.range n).map fun i => m.content.read (sramIndex m A i))

/-- `SramWrite(A, n, v)`: the bytes from byte number `i` on (R87). -/
def sramWriteFrom (A : Word) (i : Nat) : List Byte → Sram → Sram
  | [], m => m
  | b :: bs, m => sramWriteFrom A (i + 1) bs { m with content := m.content.write (sramIndex m A i) b }

/-- `RomRead(A, n)` (R88). -/
def romRead (r : Rom) (A : Word) (n : Nat) : Word :=
  leWord ((List.range n).map fun i => r.image.read (romIndex r A i))

/-- `MemRead(a, n)` on a loaded cartridge (R80). -/
def memRead (w : AccessWidth) (a openBus : Word) (s : State) : State :=
  let A := align w a
  match classify s a with
  | .staticRAM => { s with resp := .rdata (sramRead s.sram A (widthBytes w)) }
  | .serialEEPROM => deliverEepRead s
  | .flashROM => deliverFlashRead (widthBytes w) (flashOffset A) s
  | .programImage => { s with resp := .rdata (romRead s.rom A (widthBytes w)) }
  | .openBus => { s with resp := .rdata (openBusValue w openBus) }

/-- `MemWrite(a, n, v)` on a loaded cartridge (R81). -/
def memWrite (w : AccessWidth) (a v : Word) (s : State) : State :=
  let A := align w a
  match classify s a with
  | .staticRAM => { s with sram := sramWriteFrom A 0 (lowBytes (widthBytes w) v) s.sram, resp := .nothing }
  | .serialEEPROM => deliverEepBit (serialBit v) s
  | .flashROM => deliverFlashByte (flashOffset A) (flashByte v) s
  | .programImage => { s with resp := .nothing }
  | .openBus => { s with resp := .nothing }

/-- A transaction needs a loaded cartridge (R92). -/
def requireLoaded (s : State) (s' : State) : Result := if s.cart.loaded then .next s' else .refused .unloaded

/-- `Power()`: forwarded to the active backend; no effect if none is active (R203). -/
def powerActive (s : State) : State :=
  match activeKind s with
  | .serialEEPROM => eepPower s
  | .flashROM => flashPower s
  | .staticRAM => { s with resp := .nothing }
  | .none => { s with resp := .nothing }

/-- READ.B (R80). -/
def execReadB (addr openBus : Word) (s : State) : Result := requireLoaded s (memRead .byte addr openBus s)

/-- READ.H (R80). -/
def execReadH (addr openBus : Word) (s : State) : Result := requireLoaded s (memRead .half addr openBus s)

/-- READ.W (R80). -/
def execReadW (addr openBus : Word) (s : State) : Result := requireLoaded s (memRead .word addr openBus s)

/-- WRITE.B (R81). -/
def execWriteB (addr wdata : Word) (s : State) : Result := requireLoaded s (memWrite .byte addr wdata s)

/-- WRITE.H (R81). -/
def execWriteH (addr wdata : Word) (s : State) : Result := requireLoaded s (memWrite .half addr wdata s)

/-- WRITE.W (R81). -/
def execWriteW (addr wdata : Word) (s : State) : Result := requireLoaded s (memWrite .word addr wdata s)

/-- POWER (R203). -/
def execPower (s : State) : Result := .next (powerActive s)

end Sys2Proof.Machine
end

