-- ==== Sys2Proof/Machine/Eeprom.lean ====
section
/-!
DEFINITION. The EEP rows that are one serial event (R101 to R118). A row hands its bit, or its read, to the engine, which
takes it by the one arm its phase selects (R100, R113; entry 4): in the phase of the row's "phase" column that is the row's
own arm.
-/

namespace Sys2Proof.Machine

/-- EEP.START (R101). -/
def execEepStart (b : Bool) (s : State) : Result := onEngine .serialEEPROM s (deliverEepBit b s)

/-- EEP.REQ_READ (R102): the bit 1. -/
def execEepReqRead (s : State) : Result := onEngine .serialEEPROM s (deliverEepBit true s)

/-- EEP.REQ_WRITE (R102): the bit 0. -/
def execEepReqWrite (s : State) : Result := onEngine .serialEEPROM s (deliverEepBit false s)

/-- EEP.ADDR_BIT (R103, R104). -/
def execEepAddrBit (b : Bool) (s : State) : Result := onEngine .serialEEPROM s (deliverEepBit b s)

/-- EEP.STREAM_BIT (R105). -/
def execEepStreamBit (b : Bool) (s : State) : Result := onEngine .serialEEPROM s (deliverEepBit b s)

/-- EEP.DATA_BIT (R106, R108). -/
def execEepDataBit (b : Bool) (s : State) : Result := onEngine .serialEEPROM s (deliverEepBit b s)

/-- EEP.READ_STOP (R107). -/
def execEepReadStop (b : Bool) (s : State) : Result := onEngine .serialEEPROM s (deliverEepBit b s)

/-- EEP.WRITE_STOP (R109). -/
def execEepWriteStop (b : Bool) (s : State) : Result := onEngine .serialEEPROM s (deliverEepBit b s)

/-- EEP.ABORT_READ (R110). -/
def execEepAbortRead (b : Bool) (s : State) : Result := onEngine .serialEEPROM s (deliverEepBit b s)

/-- EEP.READ_BIT (R114). -/
def execEepReadBit (s : State) : Result := onEngine .serialEEPROM s (deliverEepRead s)

/-- EEP.READ_DETECT (R115, R111, R112). -/
def execEepReadDetect (s : State) : Result := onEngine .serialEEPROM s (deliverEepRead s)

/-- EEP.READ_IDLE (R116). -/
def execEepReadIdle (s : State) : Result := onEngine .serialEEPROM s (deliverEepRead s)

/-- EEP.POWER (R118): the POWER transaction, which reaches the active backend (R203; entry 15). -/
def execEepPower (s : State) : Result := .next (powerActive s)

end Sys2Proof.Machine
end

