-- ==== Sys2Proof/Machine/EepromFrames.lean ====
section
/-!
DEFINITION. The EEP rows that are sequences of serial events: frames (R65, R66, R120, R123, R124) and the read-data
sequence (R67, R122). One row runs its events one after another, with no other call between them (R53, R207; entry 6).
-/

namespace Sys2Proof.Machine

/-- EEP.READ_FRAME6 (R65, R120). -/
def execEepReadFrame6 (k : BitVec 6) (stop : Bool) (s : State) : Result :=
  onEngine .serialEEPROM s (deliverEepBits (readFrameBits 6 k.toNat stop) s)

/-- EEP.READ_FRAME14 (R65, R120). -/
def execEepReadFrame14 (k : BitVec 14) (stop : Bool) (s : State) : Result :=
  onEngine .serialEEPROM s (deliverEepBits (readFrameBits 14 k.toNat stop) s)

/-- EEP.WRITE_FRAME6 (R66, R123). -/
def execEepWriteFrame6 (k : BitVec 6) (d : BitVec 64) (stop : Bool) (s : State) : Result :=
  onEngine .serialEEPROM s (deliverEepBits (writeFrameBits 6 k.toNat d.toNat stop) s)

/-- EEP.WRITE_FRAME14 (R66, R123). -/
def execEepWriteFrame14 (k : BitVec 14) (d : BitVec 64) (stop : Bool) (s : State) : Result :=
  onEngine .serialEEPROM s (deliverEepBits (writeFrameBits 14 k.toNat d.toNat stop) s)

/-- `EEP_READ_LEADIN + 64` reads; the caller gets the bits in order (R67, R122). -/
def deliverEepRead64 (s : State) : State :=
  let r := eepReadBits s.params (leadinCount s.params.readLeadin + 64) s.draws s.eep
  { s with eep := r.2.1, draws := r.2.2, resp := .bits r.1 }

/-- EEP.READ64 (R67, R122). -/
def execEepRead64 (s : State) : Result := onEngine .serialEEPROM s (deliverEepRead64 s)

/-- EEP.FRAME_UNRESOLVED (R69, R124): the write bits, then one read. -/
def execEepFrameUnresolved (q : Bool) (stream : List Bool) (s : State) : Result :=
  onEngine .serialEEPROM s (deliverEepRead (deliverEepBits (true :: q :: stream) s))

end Sys2Proof.Machine
end

