-- ==== Sys2Proof/Machine/FlashRom.lean ====
section
/-!
DEFINITION. The FL rows (R142 to R161). A row hands its byte write to the engine, which takes it by the one rule its phase
selects (R140, R141; entry 4): in the phase of the row's "phase" column that is the row's own rule.
-/

namespace Sys2Proof.Machine

/-- FL.UNLOCK1 (R142). -/
def execFlUnlock1 (off : BitVec 16) (v : Byte) (s : State) : Result := onEngine .flashROM s (deliverFlashByte off v s)

/-- FL.UNLOCK2 (R143). -/
def execFlUnlock2 (off : BitVec 16) (v : Byte) (s : State) : Result := onEngine .flashROM s (deliverFlashByte off v s)

/-- FL.ID_ENTER (R144). -/
def execFlIdEnter (s : State) : Result := onEngine .flashROM s (deliverFlashByte flashCmdAddr cmdIdEnter s)

/-- FL.ID_EXIT (R145). -/
def execFlIdExit (s : State) : Result := onEngine .flashROM s (deliverFlashByte flashCmdAddr cmdIdExit s)

/-- FL.ERASE_SETUP (R146). -/
def execFlEraseSetup (s : State) : Result := onEngine .flashROM s (deliverFlashByte flashCmdAddr cmdEraseSetup s)

/-- FL.PROGRAM_SETUP (R152). -/
def execFlProgramSetup (s : State) : Result := onEngine .flashROM s (deliverFlashByte flashCmdAddr cmdProgram s)

/-- FL.BANK_SETUP (R154). -/
def execFlBankSetup (s : State) : Result := onEngine .flashROM s (deliverFlashByte flashCmdAddr cmdBankSelect s)

/-- FL.UNLOCK2_OTHER (R156). -/
def execFlUnlock2Other (off : BitVec 16) (v : Byte) (s : State) : Result :=
  onEngine .flashROM s (deliverFlashByte off v s)

/-- FL.ID_MODE_WRITE (R147). -/
def execFlIdModeWrite (off : BitVec 16) (v : Byte) (s : State) : Result :=
  onEngine .flashROM s (deliverFlashByte off v s)

/-- FL.ERASE_UNLOCK1 (R148). -/
def execFlEraseUnlock1 (off : BitVec 16) (v : Byte) (s : State) : Result :=
  onEngine .flashROM s (deliverFlashByte off v s)

/-- FL.ERASE_UNLOCK2 (R149). -/
def execFlEraseUnlock2 (off : BitVec 16) (v : Byte) (s : State) : Result :=
  onEngine .flashROM s (deliverFlashByte off v s)

/-- FL.CHIP_ERASE (R150). -/
def execFlChipErase (s : State) : Result := onEngine .flashROM s (deliverFlashByte flashCmdAddr cmdChipErase s)

/-- FL.SECTOR_ERASE (R151). -/
def execFlSectorErase (off : BitVec 16) (s : State) : Result :=
  onEngine .flashROM s (deliverFlashByte off cmdSectorErase s)

/-- FL.ERASE_OTHER (R157). -/
def execFlEraseOther (off : BitVec 16) (v : Byte) (s : State) : Result :=
  onEngine .flashROM s (deliverFlashByte off v s)

/-- FL.PROGRAM (R153). -/
def execFlProgram (off : BitVec 16) (v : Byte) (s : State) : Result := onEngine .flashROM s (deliverFlashByte off v s)

/-- FL.BANK_SELECT (R155). -/
def execFlBankSelect (off : BitVec 16) (v : Byte) (s : State) : Result :=
  onEngine .flashROM s (deliverFlashByte off v s)

/-- FL.READ (R161): one byte, zero-extended. -/
def execFlRead (off : BitVec 16) (s : State) : Result := onEngine .flashROM s (deliverFlashRead 1 off s)

/-- FL.POWER (R160): the POWER transaction, which reaches the active backend (R203; entry 15). -/
def execFlPower (s : State) : Result := .next (powerActive s)

end Sys2Proof.Machine
end

