-- ==== Sys2Proof/Machine/Lifecycle.lean ====
section
/-!
DEFINITION. LOAD (R201, R181) and UNLOAD (R202).
-/

namespace Sys2Proof.Machine

/-- The conditions of R181 on the descriptor's backing store. -/
def storeErrors (p : Params) : Option StoreDescriptor → List ConfigError
  | none => []
  | some d =>
    match d.kind with
    | .unrecognized _ => [.badKind]
    | .serialEEPROM => if d.size > eepMax then [.eepTooLarge] else []
    | .flashROM => if d.size > flashMax then [.flashTooLarge] else []
    | .staticRAM => if d.size > p.sramMax then [.sramTooLarge] else []
    | .fram => if d.size > p.sramMax then [.sramTooLarge] else []

/-- The conditions of R181 that hold, at most two of them. -/
def loadErrors (p : Params) (d : Descriptor) : List ConfigError :=
  (if d.romSize > romMax then [.romTooLarge] else []) ++ storeErrors p d.store

/-- A declared EEPROM size is 0 or a multiple of 8 in 8..8192 (R7, D15). -/
def legalEepSize (n : Nat) : Bool := decide (n % 8 = 0 ∧ n ≤ eepMax)

/-- A FlashROM size is 64 or 128 KiB (R7, D27). -/
def legalFlashSize (n : Nat) : Bool := decide (n = flashBankSize ∨ n = flashMax)

/-- A StaticRAM size is a power of two, at least 4 (R7). -/
def legalSramSize (n : Nat) : Bool := decide (4 ≤ n ∧ 2 ^ n.log2 = n)

/-- The declared size is in the legal set of its kind (R7, R181). -/
def legalStoreSize : Option StoreDescriptor → Bool
  | none => true
  | some d =>
    match d.kind with
    | .unrecognized _ => true
    | .serialEEPROM => legalEepSize d.size
    | .flashROM => legalFlashSize d.size
    | .staticRAM => legalSramSize d.size
    | .fram => legalSramSize d.size

/-- Both declared sizes are legal; `ROM_SIZE` is at least 1 (R7; entry 13). -/
def legalSizes (d : Descriptor) : Bool := decide (1 ≤ d.romSize) && legalStoreSize d.store

/-- Fill with 0xFF, then preseed: min(blob length, size) bytes from index 0 (R201). -/
def preseeded (size : Nat) (blob : Option (List Byte)) : Memory :=
  match blob with
  | none => []
  | some bytes => Memory.ofBytes 0 (bytes.take size)

/-- `eep.size` of a declared size (R7, R201). -/
def eepSizeOf (declared : Nat) : Nat := if declared = 0 then eepMax else declared

/-- `eep.bits` of a declared size: width selection (R25, R201). -/
def eepBitsOf (declared : Nat) : Option AddrWidth :=
  if declared = 0 then none else if declared ≤ eepSixBitMax then some .six else some .fourteen

/-- The EEPROM engine after Load (R201). -/
def loadEep (d : Descriptor) (declared : Nat) (e : Eep) : Eep :=
  eepToIdle { e with size := eepSizeOf declared, bits := eepBitsOf declared, winMask := (eepWindow d.romSize).1,
                     winMatch := (eepWindow d.romSize).2, content := preseeded (eepSizeOf declared) d.preseed }

/-- The FlashROM engine after Load (R201). -/
def loadFlash (d : Descriptor) (size : Nat) (id : BitVec 16) : Flash :=
  { size := size, id := id, phase := .idle, bank := 0, content := preseeded size d.preseed }

/-- The StaticRAM after Load (R201). -/
def loadSram (d : Descriptor) (size : Nat) : Sram :=
  { size := size, mask := BitVec.ofNat 32 (size - 1), content := preseeded size d.preseed }

/-- The part of Load that the descriptor's kind selects; only the active engine's fields are set (R201; entry 14). An
unrecognised kind never comes here (R181). -/
def loadStore (d : Descriptor) (s : State) : State :=
  match d.store with
  | none => { s with cart := { s.cart with kind := .none } }
  | some st =>
    match st.kind with
    | .serialEEPROM => { s with cart := { s.cart with kind := .serialEEPROM }, eep := loadEep d st.size s.eep }
    | .flashROM => { s with cart := { s.cart with kind := .flashROM }, flash := loadFlash d st.size st.flashId }
    | .staticRAM => { s with cart := { s.cart with kind := .staticRAM }, sram := loadSram d st.size }
    | .fram => { s with cart := { s.cart with kind := .staticRAM }, sram := loadSram d st.size }
    | .unrecognized _ => { s with cart := { s.cart with kind := .none } }

/-- The program image (R201): the bytes given, cut at `ROM_SIZE` (entry 11). -/
def loadRom (d : Descriptor) : Rom := { size := d.romSize, image := Memory.ofBytes 0 (d.romBytes.take d.romSize) }

/-- A Load whose conditions all hold (R201). -/
def loadSuccess (d : Descriptor) (s : State) : State :=
  let configured := loadStore d { s with rom := loadRom d }
  { configured with cart := { configured.cart with loaded := true }, resp := .loadOk }

/-- LOAD (R201). Where two conditions of R181 hold the spec names neither code first, so a draw chooses (entry 12). -/
def execLoad (d : Descriptor) (s : State) : Result :=
  match loadErrors s.params d with
  | [] => if legalSizes d then .next (loadSuccess d s) else .refused .illegalSize
  | [code] => .next (raiseConfigurationError code s)
  | code :: other :: _ =>
    .next (raiseConfigurationError (if Config.freeBit s.draws then other else code) { s with draws := s.draws + 1 })

/-- UNLOAD (R202): no-op if not loaded; the arrays keep their bytes. -/
def execUnload (s : State) : Result := .next { s with cart := { s.cart with loaded := false }, resp := .nothing }

end Sys2Proof.Machine
end

