-- ==== Sys2Proof/Machine/Dispatch.lean ====
section
/-!
DEFINITION. exec: one arm per row of the opcode table, each a direct call of that row's meaning.
-/

namespace Sys2Proof.Machine

def exec (i : Instr) (s : State) : Host.Outcome State Fault Refusal :=
  match i with
  | .readB addr openBus => Sys2Proof.Machine.execReadB addr openBus s
  | .readH addr openBus => Sys2Proof.Machine.execReadH addr openBus s
  | .readW addr openBus => Sys2Proof.Machine.execReadW addr openBus s
  | .writeB addr wdata => Sys2Proof.Machine.execWriteB addr wdata s
  | .writeH addr wdata => Sys2Proof.Machine.execWriteH addr wdata s
  | .writeW addr wdata => Sys2Proof.Machine.execWriteW addr wdata s
  | .power => Sys2Proof.Machine.execPower s
  | .load d => Sys2Proof.Machine.execLoad d s
  | .unload => Sys2Proof.Machine.execUnload s
  | .eepStart b => Sys2Proof.Machine.execEepStart b s
  | .eepReqRead => Sys2Proof.Machine.execEepReqRead s
  | .eepReqWrite => Sys2Proof.Machine.execEepReqWrite s
  | .eepAddrBit b => Sys2Proof.Machine.execEepAddrBit b s
  | .eepStreamBit b => Sys2Proof.Machine.execEepStreamBit b s
  | .eepDataBit b => Sys2Proof.Machine.execEepDataBit b s
  | .eepReadStop b => Sys2Proof.Machine.execEepReadStop b s
  | .eepWriteStop b => Sys2Proof.Machine.execEepWriteStop b s
  | .eepAbortRead b => Sys2Proof.Machine.execEepAbortRead b s
  | .eepReadBit => Sys2Proof.Machine.execEepReadBit s
  | .eepReadDetect => Sys2Proof.Machine.execEepReadDetect s
  | .eepReadIdle => Sys2Proof.Machine.execEepReadIdle s
  | .eepPower => Sys2Proof.Machine.execEepPower s
  | .eepReadFrame6 k stop => Sys2Proof.Machine.execEepReadFrame6 k stop s
  | .eepReadFrame14 k stop => Sys2Proof.Machine.execEepReadFrame14 k stop s
  | .eepWriteFrame6 k d stop => Sys2Proof.Machine.execEepWriteFrame6 k d stop s
  | .eepWriteFrame14 k d stop => Sys2Proof.Machine.execEepWriteFrame14 k d stop s
  | .eepRead64 => Sys2Proof.Machine.execEepRead64 s
  | .eepFrameUnresolved q stream => Sys2Proof.Machine.execEepFrameUnresolved q stream s
  | .flUnlock1 off v => Sys2Proof.Machine.execFlUnlock1 off v s
  | .flUnlock2 off v => Sys2Proof.Machine.execFlUnlock2 off v s
  | .flIdEnter => Sys2Proof.Machine.execFlIdEnter s
  | .flIdExit => Sys2Proof.Machine.execFlIdExit s
  | .flEraseSetup => Sys2Proof.Machine.execFlEraseSetup s
  | .flProgramSetup => Sys2Proof.Machine.execFlProgramSetup s
  | .flBankSetup => Sys2Proof.Machine.execFlBankSetup s
  | .flUnlock2Other off v => Sys2Proof.Machine.execFlUnlock2Other off v s
  | .flIdModeWrite off v => Sys2Proof.Machine.execFlIdModeWrite off v s
  | .flEraseUnlock1 off v => Sys2Proof.Machine.execFlEraseUnlock1 off v s
  | .flEraseUnlock2 off v => Sys2Proof.Machine.execFlEraseUnlock2 off v s
  | .flChipErase => Sys2Proof.Machine.execFlChipErase s
  | .flSectorErase off => Sys2Proof.Machine.execFlSectorErase off s
  | .flEraseOther off v => Sys2Proof.Machine.execFlEraseOther off v s
  | .flProgram off v => Sys2Proof.Machine.execFlProgram off v s
  | .flBankSelect off v => Sys2Proof.Machine.execFlBankSelect off v s
  | .flRead off => Sys2Proof.Machine.execFlRead off s
  | .flPower => Sys2Proof.Machine.execFlPower s

end Sys2Proof.Machine
end

