-- ==== Sys2Proof/Machine/Fetch.lean ====
section
/-!
DEFINITION. What step needs to take a call: the refusal of a packet that is no row, and how a word of the opcode table is
placed as the next call (entries 17, 18).
-/

namespace Sys2Proof.Machine

/-- The refusal of what decode rejects (R62; entry 6). -/
def rejection : DecodeError → Refusal
  | .reservedTxn t => .reservedTxn t
  | .notAFrame => .notAFrame

/-- The smallest backing-store descriptor of a kind, for a word that needs its engine (entry 17). -/
def smallestStore : Kind → Option StoreDescriptor
  | .none => none
  | .staticRAM => some { kind := .staticRAM, size := 4, flashId := 0 }
  | .serialEEPROM => some { kind := .serialEEPROM, size := 512, flashId := 0 }
  | .flashROM => some { kind := .flashROM, size := flashMax, flashId := 0 }

/-- A load of the smallest cartridge of a kind, which keeps the last response (R205; entry 17). -/
def loadSmallest (k : Kind) (s : State) : State :=
  { loadSuccess { romSize := 1, romBytes := [], store := smallestStore k, preseed := none } s with resp := s.resp }

/-- A loaded cartridge of any kind (R205). -/
def ensureLoaded (s : State) : State := if s.cart.loaded then s else loadSmallest .none s

/-- A loaded cartridge of kind `k`. -/
def ensureKind (k : Kind) (s : State) : State := if activeKind s = k then s else loadSmallest k s

/-- The state in which `p` is the row that decodeTableWord reads from it (entry 17). -/
def selectRow (p : Packet) (s : State) : State :=
  match p with
  | .txn4 t _ _ =>
    if t = 0b1000#4 then { s with cart := { s.cart with kind := .none } } else ensureLoaded s
  | .lifecycleLoad _ => s
  | .lifecycleUnload => s
  | .eepBit _ => let e := ensureKind .serialEEPROM s; { e with eep := { e.eep with phase := .idle } }
  | .eepRead => let e := ensureKind .serialEEPROM s; { e with eep := { e.eep with phase := .idle } }
  | .eepFrame _ => ensureKind .serialEEPROM s
  | .eepReadSeq => ensureKind .serialEEPROM s
  | .eepFrameThenRead _ => ensureKind .serialEEPROM s
  | .flashCmd w =>
    let f := ensureKind .flashROM s
    { f with flash := { f.flash with phase := tableFlashPhase (cmdOff w) (cmdByte w) } }
  | .flashRead _ => ensureKind .flashROM s

/-- The table word `w` of `nbits` bits as the next call. A number that is no word of the table is placed as an empty bit
string, which step refuses. -/
def placeTableWord (nbits w : Nat) (s : State) : State :=
  match tablePacket nbits w with
  | some p => { selectRow p s with input := .packet p :: s.input }
  | none => { s with input := .packet (.eepFrame []) :: s.input }

end Sys2Proof.Machine
end

