-- ==== Sys2Proof/Machine/Persistence.lean ====
section
/-!
DEFINITION. The content accessors and the persistence collaborator's accesses between transactions (R94, R95; entry 19).
-/

namespace Sys2Proof.Machine

/-- `contentPointer()`: the active backend's array, or null (R94). -/
def contentPointer (s : State) : Option ContentArray :=
  match activeKind s with
  | .serialEEPROM => some .eepContent
  | .flashROM => some .flashContent
  | .staticRAM => some .sramContent
  | .none => none

/-- `contentSize()`: the active backend's logical size, or 0 (R94). -/
def contentSize (s : State) : Nat :=
  match activeKind s with
  | .serialEEPROM => s.eep.size
  | .flashROM => s.flash.size
  | .staticRAM => s.sram.size
  | .none => 0

/-- Byte `i` of the active backend's array (R94, R95). -/
def contentByte (s : State) (i : Nat) : Byte :=
  match activeKind s with
  | .serialEEPROM => s.eep.content.read i
  | .flashROM => s.flash.content.read i
  | .staticRAM => s.sram.content.read i
  | .none => erasedByte

/-- A host write of byte `i` of the active backend's array; no phase changes (R95, D39). -/
def setContentByte (s : State) (i : Nat) (b : Byte) : State :=
  match activeKind s with
  | .serialEEPROM => { s with eep := { s.eep with content := s.eep.content.write i b } }
  | .flashROM => { s with flash := { s.flash with content := s.flash.content.write i b } }
  | .staticRAM => { s with sram := { s.sram with content := s.sram.content.write i b } }
  | .none => s

/-- One persistence access (R94, R95): it must keep within `contentSize()`. -/
def persistenceCall (c : PersistenceCall) (s : State) : Result :=
  match c with
  | .contentPointer => .next { s with resp := .pointer (contentPointer s) }
  | .contentSize => .next { s with resp := .size (contentSize s) }
  | .readContent i =>
    if i < contentSize s then .next { s with resp := .contentByte (contentByte s i) } else .refused .contentOutOfRange
  | .writeContent i b =>
    if i < contentSize s then .next { setContentByte s i b with resp := .nothing } else .refused .contentOutOfRange

end Sys2Proof.Machine
end

