-- ==== Sys2Proof/Machine/Step.lean ====
section
/-!
DEFINITION. One step is one call (R11, R21): the oldest call still to come is taken, decoded and run whole (R52, R53).
-/

namespace Sys2Proof.Machine

/-- One step. With no call to come the block holds its state (entry 2). -/
def step (s : State) : Host.Outcome State Fault Refusal :=
  match s.input with
  | [] => .next s
  | .packet p :: rest =>
    match decode (decodeCtx s) p with
    | .ok i => exec i { s with input := rest }
    | .error e => .refused (rejection e)
  | .persistence c :: rest => persistenceCall c { s with input := rest }

/-- `s` with the table word `w` of `nbits` bits placed as the next call (entry 17). -/
def State.withFetchWord (s : State) (nbits w : Nat) : State := placeTableWord nbits w s

end Sys2Proof.Machine
end

