-- ==== Sys2Proof/Safety.lean ====
section
/-!
DEFINITION. What every reachable state keeps: the invariants of R33, the legal values of R22 for the active engine, and the
canonical form and extent of the byte arrays (R29).
-/

namespace Sys2Proof.Machine

/-- The Serial EEPROM engine is the active backing store of a loaded cartridge. -/
abbrev State.EepromActive (s : State) : Prop := s.cart.loaded = true ∧ s.cart.kind = .serialEEPROM

/-- The FlashROM engine is the active backing store of a loaded cartridge. -/
abbrev State.FlashActive (s : State) : Prop := s.cart.loaded = true ∧ s.cart.kind = .flashROM

/-- READ.B, READ.H or READ.W. -/
def readRow : AccessWidth → Word → Word → Instr
  | .byte, a, openBus => .readB a openBus
  | .half, a, openBus => .readH a openBus
  | .word, a, openBus => .readW a openBus

/-- WRITE.B, WRITE.H or WRITE.W. -/
def writeRow : AccessWidth → Word → Word → Instr
  | .byte, a, v => .writeB a v
  | .half, a, v => .writeH a v
  | .word, a, v => .writeW a v

/-- The engine that the event of an EEP or FL row reaches (R82 to R85); a bus, lifecycle or POWER row has none. -/
def engineOf : Instr → Option Kind
  | .readB _ _ => none
  | .readH _ _ => none
  | .readW _ _ => none
  | .writeB _ _ => none
  | .writeH _ _ => none
  | .writeW _ _ => none
  | .power => none
  | .load _ => none
  | .unload => none
  | .eepStart _ => some .serialEEPROM
  | .eepReqRead => some .serialEEPROM
  | .eepReqWrite => some .serialEEPROM
  | .eepAddrBit _ => some .serialEEPROM
  | .eepStreamBit _ => some .serialEEPROM
  | .eepDataBit _ => some .serialEEPROM
  | .eepReadStop _ => some .serialEEPROM
  | .eepWriteStop _ => some .serialEEPROM
  | .eepAbortRead _ => some .serialEEPROM
  | .eepReadBit => some .serialEEPROM
  | .eepReadDetect => some .serialEEPROM
  | .eepReadIdle => some .serialEEPROM
  | .eepPower => none
  | .eepReadFrame6 _ _ => some .serialEEPROM
  | .eepReadFrame14 _ _ => some .serialEEPROM
  | .eepWriteFrame6 _ _ _ => some .serialEEPROM
  | .eepWriteFrame14 _ _ _ => some .serialEEPROM
  | .eepRead64 => some .serialEEPROM
  | .eepFrameUnresolved _ _ => some .serialEEPROM
  | .flUnlock1 _ _ => some .flashROM
  | .flUnlock2 _ _ => some .flashROM
  | .flIdEnter => some .flashROM
  | .flIdExit => some .flashROM
  | .flEraseSetup => some .flashROM
  | .flProgramSetup => some .flashROM
  | .flBankSetup => some .flashROM
  | .flUnlock2Other _ _ => some .flashROM
  | .flIdModeWrite _ _ => some .flashROM
  | .flEraseUnlock1 _ _ => some .flashROM
  | .flEraseUnlock2 _ _ => some .flashROM
  | .flChipErase => some .flashROM
  | .flSectorErase _ => some .flashROM
  | .flEraseOther _ _ => some .flashROM
  | .flProgram _ _ => some .flashROM
  | .flBankSelect _ _ => some .flashROM
  | .flRead _ => some .flashROM
  | .flPower => none

/-- LOAD, the one row that sets the configuration (R22). -/
def isLoad : Instr → Bool
  | .load _ => true
  | _ => false

/-- A row that is a sequence of serial write bits (R64): it holds a whole frame. -/
def isFrame : Instr → Bool
  | .eepReadFrame6 _ _ => true
  | .eepReadFrame14 _ _ => true
  | .eepWriteFrame6 _ _ _ => true
  | .eepWriteFrame14 _ _ _ => true
  | .eepFrameUnresolved _ _ => true
  | _ => false

/-- The answer of `f` on the state that `r` leaves; a fault or a refusal stays. -/
def andThen (r : Result) (f : State → Result) : Result :=
  match r with
  | .next t => f t
  | .fault e => .fault e
  | .refused e => .refused e

/-- Serial write bits sent one at a time, each as the row its phase selects (R100, R53); a refusal ends the run. -/
def sendBits : List Bool → State → Result
  | [], s => .next s
  | b :: bs, s => andThen (exec (decodeEepBit (decodeCtx s) b) s) (sendBits bs)

/-- Serial write bits one at a time, then one serial read (R69, R113). -/
def sendBitsThenRead (bits : List Bool) (s : State) : Result :=
  andThen (sendBits bits s) fun t => exec (decodeEepRead (decodeCtx t)) t

/-- The bit a serial read answered, its `rdata` zero-extended (R82). -/
def answeredBit (s : State) : Bool :=
  match s.resp with
  | .rdata v => v.getLsbD 0
  | _ => false

/-- `n` serial reads taken one at a time, each as the row its phase selects (R113, R67); the state after them answers
their bits in order, and a refusal ends the run. `taken` are the bits of the reads before. -/
def takeReads : Nat → List Bool → State → Result
  | 0, taken, s => .next { s with resp := .bits taken }
  | n + 1, taken, s =>
    andThen (exec (decodeEepRead (decodeCtx s)) s) fun t => takeReads n (taken ++ [answeredBit t]) t

/-- A reserved transaction code (R62). -/
def reservedCode (t : BitVec 4) : Prop :=
  t.extractLsb' 2 2 = 0b11#2 ∨ t.extractLsb' 0 2 = 0b11#2 ∨ (t.extractLsb' 2 2 = 0b10#2 ∧ t.extractLsb' 0 2 ≠ 0b00#2)

/-- The byte `j` that Load leaves in an array of `size` bytes: the preseed's, else 0xFF (R201). -/
def preseedByte (size : Nat) (blob : Option (List Byte)) (j : Nat) : Byte :=
  if j < size then ((blob.getD [])[j]?).getD 0xFF#8 else 0xFF#8

/-- The conditions of ConfigurationError on a descriptor, with their codes (R181). -/
def raises (p : Params) (d : Descriptor) (code : ConfigError) : Prop :=
  match code with
  | .romTooLarge => 0x02000000 < d.romSize
  | .badKind => ∃ st name, d.store = some st ∧ st.kind = .unrecognized name
  | .eepTooLarge => ∃ st, d.store = some st ∧ st.kind = .serialEEPROM ∧ 8192 < st.size
  | .flashTooLarge => ∃ st, d.store = some st ∧ st.kind = .flashROM ∧ 131072 < st.size
  | .sramTooLarge => ∃ st, d.store = some st ∧ (st.kind = .staticRAM ∨ st.kind = .fram) ∧ p.sramMax < st.size

/-- The content after a block write: the bytes of `d` at the block, most significant first, and no other byte (R123). -/
def blockWritten (size k : Nat) (d : BitVec 64) (before after : Memory) : Prop :=
  (∀ i, i < 8 → after.read (k % (size / 8) * 8 + i) = d.extractLsb' (56 - 8 * i) 8) ∧
  ∀ j, j < k % (size / 8) * 8 ∨ k % (size / 8) * 8 + 8 ≤ j → after.read j = before.read j

/-- `eep.count` in each phase (R33): below the address width in `Address` of a known width, below 64 in `WriteData`, below
the length of the read sequence in `ReadData`, and 0 otherwise. -/
def eepCountOk (p : Params) (e : Eep) : Bool :=
  match e.phase with
  | .address =>
    match e.bits with
    | some w => decide (e.count < addrBits w)
    | none => decide (e.count = 0)
  | .writeData => decide (e.count < 64)
  | .readData => decide (e.count < leadinCount p.readLeadin + 64)
  | .idle => decide (e.count = 0)
  | .command => decide (e.count = 0)
  | .readStop => decide (e.count = 0)
  | .writeStop => decide (e.count = 0)

/-- The invariants of the EEPROM engine (R33, R29, and the stream cap of R23). -/
structure EepInv (p : Params) (e : Eep) : Prop where
  stream_unresolved : e.stream ≠ [] → e.bits = none ∧ e.phase = .address
  stream_cap : e.stream.length ≤ eepStreamCap
  count_ok : eepCountOk p e = true
  idle_canonical : e.phase = .idle → eepToIdle e = e
  content_wf : e.content.wf = true
  content_within : e.content.within e.size = true

/-- The invariants of the FlashROM engine (R33, R28, R29). -/
structure FlashInv (f : Flash) : Prop where
  one_bank : f.size = flashBankSize → f.bank = 0
  bank_switch : f.phase = .bankSwitch → f.size = flashMax
  content_wf : f.content.wf = true
  content_within : f.content.within f.size = true

/-- The legal sizes of the active backing store and of the image while a cartridge is loaded (R22, R7). -/
def legalConfig (s : State) : Bool :=
  decide (1 ≤ s.rom.size ∧ s.rom.size ≤ romMax) &&
  match s.cart.kind with
  | .none => true
  | .staticRAM => legalSramSize s.sram.size && decide (s.sram.mask = BitVec.ofNat 32 (s.sram.size - 1))
  | .serialEEPROM => legalEepSize s.eep.size && decide (8 ≤ s.eep.size) &&
      decide ((s.eep.winMask, s.eep.winMatch) = eepWindow s.rom.size)
  | .flashROM => legalFlashSize s.flash.size

/-- The invariant of the machine. -/
structure State.Inv (s : State) : Prop where
  legal : s.cart.loaded = true → legalConfig s = true
  eep : EepInv s.params s.eep
  flash : FlashInv s.flash
  sram_wf : s.sram.content.wf = true
  sram_within : s.sram.content.within s.sram.size = true
  rom_wf : s.rom.image.wf = true
  rom_within : s.rom.image.within s.rom.size = true

end Sys2Proof.Machine
end

