-- ==== Sys2Proof/Certificates/Slice0/Obligations.lean ====
section
/-!
DEFINITION. The statements for the provers, each over every state (the open parameters of R7 are a field of it) and every
value drawn.
-/

open Sys2Proof Sys2Proof.Machine

/-! ## Encoding -/

/-- In the context that selects its row, every instruction's words decode to it (R61, R65, R66, R70, R100, R140).
That the phase selects the row is entry 4. -/
def Obligations.DecodeOfEncodeIsTheRow : Prop :=
  ∀ (c : DecodeCtx) (i : Instr), i.WellFormed → selects c i = true → decode c (encode i) = .ok i

/-- What decodes is a well-formed row that its context selects, and the row's words are the ones decoded. Of a POWER call,
whose address and data fields are not used, they are the code with both fields 0 (entry 15).
That the phase selects the row is entry 4. -/
def Obligations.DecodedRowEncodesBack : Prop :=
  ∀ (c : DecodeCtx) (p : Packet) (i : Instr), decode c p = .ok i →
    i.WellFormed ∧ selects c i = true ∧ 
      (encode i = p ∨ ∃ addr data, p = .txn4 0b1000#4 addr data ∧ encode i = .txn4 0b1000#4 0 0)

/-- Every serial bit, serial read and FlashROM byte write stands for exactly one row in every context (R100, R113, R140).
That the phase selects the row is entry 4. -/
def Obligations.EveryEngineEventSelectsExactlyOneRow : Prop :=
  ∀ c : DecodeCtx,
    (∀ b : Bool, ∃! i : Instr, i.WellFormed ∧ selects c i = true ∧ encode i = .eepBit b) ∧
    (∃! i : Instr, i.WellFormed ∧ selects c i = true ∧ encode i = .eepRead) ∧
    (∀ w : BitVec 24, ∃! i : Instr, i.WellFormed ∧ selects c i = true ∧ encode i = .flashCmd w)

/-- Words written out from the spec's encodings: two bus codes and POWER (R61), a request-type bit, a detecting read, a
6-bit read frame (R65), and FlashROM command words in four phases (R70, R71).
That the phase picks the row is entry 4, that POWER is EEP.POWER under kind SerialEEPROM entry 15. -/
def Obligations.WordsOfTheSpecDecode : Prop :=
  (∀ c addr openBus, decode c (.txn4 0b0001#4 addr openBus) = .ok (.readH addr openBus)) ∧
  (∀ c addr wdata, decode c (.txn4 0b0110#4 addr wdata) = .ok (.writeW addr wdata)) ∧
  decode ⟨.serialEEPROM, .idle, some .six, .idle⟩ (.txn4 0b1000#4 0 0) = .ok .eepPower ∧
  decode ⟨.serialEEPROM, .command, some .six, .idle⟩ (.eepBit true) = .ok .eepReqRead ∧
  decode ⟨.serialEEPROM, .address, none, .idle⟩ .eepRead = .ok .eepReadDetect ∧
  (∀ c, decode c (.eepFrame [true, true, false, false, false, false, true, true, false]) =
    .ok (.eepReadFrame6 3#6 false)) ∧
  (∀ k m b, decode ⟨k, m, b, .idle⟩ (.flashCmd 0x5555AA#24) = .ok (.flUnlock1 0x5555#16 0xAA#8)) ∧
  (∀ k m b, decode ⟨k, m, b, .eraseArmed⟩ (.flashCmd 0x5555AA#24) = .ok (.flEraseUnlock1 0x5555#16 0xAA#8)) ∧
  (∀ k m b, decode ⟨k, m, b, .unlock2⟩ (.flashCmd 0x555590#24) = .ok .flIdEnter) ∧
  (∀ k m b, decode ⟨k, m, b, .eraseUnlock2⟩ (.flashCmd 0x300030#24) = .ok (.flSectorErase 0x3000#16)) ∧
  (∀ k m b, decode ⟨k, m, b, .eraseUnlock2⟩ (.flashCmd 0x300130#24) = .ok (.flEraseOther 0x3001#16 0x30#8))

/-- Exactly the reserved transaction codes are refused, by name, and every other code is a row (R62). -/
def Obligations.ReservedCodesAreRefused : Prop :=
  ∀ (s : State) (t : BitVec 4) (addr data : Word) (rest : List Call),
    s.input = .packet (.txn4 t addr data) :: rest →
      (reservedCode t → step s = .refused (.reservedTxn t)) ∧
      (¬reservedCode t → ∃ i, decode (decodeCtx s) (.txn4 t addr data) = .ok i)

/-! ## The step and the whole machine -/

/-- One step is one call: a step takes the oldest call, runs the row it decodes to, and refuses what is no row; with no
call to come nothing changes (R21, R52, R53; entries 1, 2). -/
def Obligations.StepRunsTheDecodedRow : Prop :=
  ∀ s : State,
    (s.input = [] → step s = .next s) ∧
    (∀ p rest i, s.input = .packet p :: rest → decode (decodeCtx s) p = .ok i → i.WellFormed →
      step s = exec i { s with input := rest }) ∧
    (∀ p rest e, s.input = .packet p :: rest → decode (decodeCtx s) p = .error e → step s = .refused (rejection e)) ∧
    (∀ c rest, s.input = .persistence c :: rest → step s = persistenceCall c { s with input := rest })

/-- Every step keeps the invariant of the machine (R33, R22, R29). R33 is an inference the spec marks as derived. -/
def Obligations.EveryStepKeepsTheInvariant : Prop :=
  ∀ s s' : State, s.Inv → step s = .next s' → s'.Inv

/-- The machine at creation has the invariant and is unloaded (R34, R200; its other fields hold the values of entry 10). -/
def Obligations.ResetHasTheInvariant : Prop :=
  State.reset.Inv ∧ State.reset.cart.loaded = false

/-- On a loaded cartridge every read, write and power transaction answers a next state: none fails (R180).
The queue of calls is entry 1. -/
def Obligations.LoadedTransactionsNeverFail : Prop :=
  ∀ (s : State) (t : BitVec 4) (addr data : Word) (rest : List Call),
    s.cart.loaded = true → ¬reservedCode t → s.input = .packet (.txn4 t addr data) :: rest →
      ∃ s', step s = .next s' ∧ s'.cart = s.cart ∧ s'.input = rest

/-- No row but LOAD changes the configuration, but for UNLOAD's `cart.loaded` and for `eep.bits`, which may go from
unresolved to a width and then stays (R22, R25). -/
def Obligations.OnlyLoadChangesTheConfiguration : Prop :=
  ∀ (i : Instr) (s s' : State), isLoad i = false → exec i s = .next s' →
    (i ≠ .unload → s'.cart.loaded = s.cart.loaded) ∧
    s'.cart.kind = s.cart.kind ∧ s'.rom = s.rom ∧ s'.params = s.params ∧
    s'.eep.size = s.eep.size ∧ s'.eep.winMask = s.eep.winMask ∧ s'.eep.winMatch = s.eep.winMatch ∧
    s'.flash.size = s.flash.size ∧ s'.flash.id = s.flash.id ∧
    s'.sram.size = s.sram.size ∧ s'.sram.mask = s.sram.mask ∧
    (∀ w, s.eep.bits = some w → s'.eep.bits = some w)

/-- A single call changes EEPROM content only on the 64th data bit of a write, or where the width of an unresolved write
request is detected; every abandoned frame leaves it unchanged (R117).
R117 is an inference the spec marks as derived. -/
def Obligations.EepromContentChangesOnlyInACommit : Prop :=
  ∀ (i : Instr) (s s' : State), isLoad i = false → isFrame i = false → exec i s = .next s' →
    s'.eep.content ≠ s.eep.content →
      s.EepromActive ∧
      ((s.eep.phase = .writeData ∧ s.eep.count = 63) ∨
       (s.eep.phase = .address ∧ s.eep.bits = none ∧ s.eep.op = .write ∧
        widthDetect s.params.widthDetect (s.eep.stream.length - 65) ≠ none))

/-- FlashROM content and bank change only in the phases that take an erase confirmation, a data byte or a bank number, and
there only as R150, R151, R153 and R155 say; an unexpected write in `Unlock1` or `Unlock2` returns to `Idle` (R158).
R158 is an inference the spec marks as derived. -/
def Obligations.FlashContentAndBankChangeOnlyInTheirPhases : Prop :=
  (∀ (i : Instr) (s s' : State), isLoad i = false → exec i s = .next s' →
    (s'.flash.content ≠ s.flash.content →
      s.FlashActive ∧ (s.flash.phase = .eraseUnlock2 ∨ s.flash.phase = .writeMode)) ∧
    (s'.flash.bank ≠ s.flash.bank → s.FlashActive ∧ s.flash.phase = .bankSwitch)) ∧
  (∀ (off : BitVec 16) (v : Byte) (f : Flash), f.phase = .unlock1 → isUnlock2 off v = false →
    flashWriteByte off v f = { f with phase := .idle }) ∧
  (∀ (off : BitVec 16) (v : Byte) (f : Flash), f.phase = .unlock2 → isUnlock2Command off v = false →
    flashWriteByte off v f = { f with phase := .idle })

/-- A backing store that is not the active one is left alone by every row but LOAD (R22). -/
def Obligations.InactiveBackingStoresAreUntouched : Prop :=
  ∀ (i : Instr) (s s' : State), isLoad i = false → exec i s = .next s' →
    (¬s.EepromActive → s'.eep = s.eep) ∧
    (¬s.FlashActive → s'.flash = s.flash) ∧
    (¬(s.cart.loaded = true ∧ s.cart.kind = .staticRAM) → s'.sram = s.sram)

/-- An EEP or FL row is refused while no cartridge is loaded and while its engine is not the active one (entry 5).
The refusals are the model's choice. -/
def Obligations.EngineRowsNeedTheirEngine : Prop :=
  ∀ (i : Instr) (k : Kind) (s : State), engineOf i = some k →
    (s.cart.loaded = false → exec i s = .refused .unloaded) ∧
    (s.cart.loaded = true → s.cart.kind ≠ k → exec i s = .refused .engineInactive) ∧
    (s.cart.loaded = true → s.cart.kind = k → ∃ s', exec i s = .next s')

/-- While unloaded, reads and writes are refused, and power has no effect (R92). -/
def Obligations.UnloadedAccessIsRefused : Prop :=
  ∀ (s : State) (w : AccessWidth) (a x : Word), s.cart.loaded = false →
    exec (readRow w a x) s = .refused .unloaded ∧
    exec (writeRow w a x) s = .refused .unloaded ∧
    exec .power s = .next { s with resp := .nothing }

/-! ## Bus transactions -/

/-- The address map (R57, from R41 and R42), for a loaded cartridge. R57 is an inference the spec marks as derived. -/
def Obligations.AddressMapIsTheSpecs : Prop :=
  ∀ (s : State) (a : Word), s.Inv → s.cart.loaded = true →
    let inRom := a.toNat < 0x0E000000
    let inSave := a &&& 0x0E000000#32 = 0x0E000000#32
    (s.cart.kind = .none → classify s a = if inRom then .programImage else .openBus) ∧
    (s.cart.kind = .staticRAM →
      classify s a = if inSave then .staticRAM else if inRom then .programImage else .openBus) ∧
    (s.cart.kind = .flashROM →
      classify s a = if inSave then .flashROM else if inRom then .programImage else .openBus) ∧
    (s.cart.kind = .serialEEPROM → s.rom.size ≤ 0x01000000 →
      classify s a = if a &&& 0x0F000000#32 = 0x0D000000#32 then .serialEEPROM
        else if inRom then .programImage else .openBus) ∧
    (s.cart.kind = .serialEEPROM → 0x01000000 < s.rom.size →
      classify s a = if a &&& 0x0FFFFF00#32 = 0x0DFFFF00#32 then .serialEEPROM
        else if inRom then .programImage else .openBus)

/-- A misaligned access does what the access at the aligned address below it does, at every target (R44, R43). -/
def Obligations.MisalignedAccessIsAppliedBelow : Prop :=
  (∀ w a, (align w a).toNat = a.toNat - a.toNat % widthBytes w) ∧
  ∀ (s : State) (w : AccessWidth) (a x : Word), s.Inv →
    exec (readRow w a x) s = exec (readRow w (align w a) x) s ∧
    exec (writeRow w a x) s = exec (writeRow w (align w a) x) s

/-- A read of the program image gives its bytes, little-endian and mirrored modulo the declared size, and changes no
state (R88, R45, R51). -/
def Obligations.ProgramImageReadIsMirrored : Prop :=
  ∀ (s : State) (w : AccessWidth) (a openBus : Word), s.cart.loaded = true → classify s a = .programImage →
    ∃ v : Word, exec (readRow w a openBus) s = .next { s with resp := .rdata v } ∧
      v.toNat < 2 ^ (8 * widthBytes w) ∧
      ∀ i, i < widthBytes w →
        byteOf v i = s.rom.image.read (((align w a &&& 0x01FFFFFF#32).toNat + i) % s.rom.size)

/-- A StaticRAM read gives the bytes at the masked indices, little-endian, and changes no state (R86, R45, R51). -/
def Obligations.StaticRamReadIsMasked : Prop :=
  ∀ (s : State) (w : AccessWidth) (a openBus : Word), s.cart.loaded = true → classify s a = .staticRAM →
    ∃ v : Word, exec (readRow w a openBus) s = .next { s with resp := .rdata v } ∧
      v.toNat < 2 ^ (8 * widthBytes w) ∧
      ∀ i, i < widthBytes w →
        byteOf v i = s.sram.content.read ((align w a + BitVec.ofNat 32 i) &&& s.sram.mask).toNat

/-- A StaticRAM write stores the low bytes of the value at the masked indices and leaves every other byte and all other
state unchanged (R87, R45). -/
def Obligations.StaticRamWriteStoresItsBytes : Prop :=
  ∀ (s : State) (w : AccessWidth) (a v : Word), s.Inv → s.cart.loaded = true → classify s a = .staticRAM →
    ∃ m : Memory, exec (writeRow w a v) s = .next { s with sram := { s.sram with content := m }, resp := .nothing } ∧
      (∀ i, i < widthBytes w →
        m.read ((align w a + BitVec.ofNat 32 i) &&& s.sram.mask).toNat = byteOf v i) ∧
      ∀ j, (∀ i, i < widthBytes w → j ≠ ((align w a + BitVec.ofNat 32 i) &&& s.sram.mask).toNat) →
        m.read j = s.sram.content.read j

/-- An open-bus read gives the low bits of the bus core's word (R90); open-bus and program-image writes have no effect
(R91, R89). R89 is an inference the spec marks as derived. -/
def Obligations.OpenBusAndImageWritesDoNothing : Prop :=
  ∀ (s : State) (w : AccessWidth) (a x : Word), s.cart.loaded = true →
    (classify s a = .openBus →
      exec (readRow w a x) s = .next { s with resp := .rdata (BitVec.ofNat 32 (x.toNat % 2 ^ (8 * widthBytes w))) }) ∧
    (classify s a = .openBus → exec (writeRow w a x) s = .next { s with resp := .nothing }) ∧
    (classify s a = .programImage → exec (writeRow w a x) s = .next { s with resp := .nothing })

/-- A read or write that reaches the EEPROM is exactly one serial bit at every width: `wdata[0]` in, the bit
zero-extended out (R46, R82, R83). It answers what the row that the phase selects answers (R100, R113, R121), so what the
statements on the EEP rows say of a row holds of the access.
That the phase selects the row is entry 4; one bit at every width is decision D4 of the spec. -/
def Obligations.EepromAccessIsOneSerialBit : Prop :=
  ∀ (s : State) (w : AccessWidth) (a x : Word), s.cart.loaded = true → classify s a = .serialEEPROM →
    (let r := eepReadBit s.params s.draws s.eep
     exec (readRow w a x) s =
       .next { s with eep := r.eep, draws := r.draws, resp := .rdata (if r.bit then 1#32 else 0#32) }) ∧
    exec (writeRow w a x) s = .next { s with eep := eepWriteBit (x.getLsbD 0) s.eep, resp := .nothing } ∧
    exec (readRow w a x) s = exec (decodeEepRead (decodeCtx s)) s ∧
    exec (writeRow w a x) s = exec (decodeEepBit (decodeCtx s) (x.getLsbD 0)) s

/-- A write of any width that reaches the FlashROM is one byte write of `v[7:0]` at `A[15:0]` (R48, R85). -/
def Obligations.FlashWriteIsOneByteWrite : Prop :=
  ∀ (s : State) (w : AccessWidth) (a v : Word), s.cart.loaded = true → classify s a = .flashROM →
    exec (writeRow w a v) s =
      .next { s with flash := flashWriteByte (BitVec.ofNat 16 (align w a).toNat) (BitVec.ofNat 8 v.toNat) s.flash,
                     resp := .nothing }

/-- A FlashROM read is the little-endian composition of the bytes at consecutive offsets modulo 65536, and changes no
state but the count of values drawn: content at the bank-adjusted index, and in ID mode the identifier's two bytes at
offsets 0 and 1 and values drawn elsewhere (R47, R49, R84, R161; entry 8).
R47 and R84 are inferences the spec marks as derived. -/
def Obligations.FlashReadIsComposedOfBytes : Prop :=
  ∀ (s : State) (w : AccessWidth) (a openBus : Word), s.cart.loaded = true → classify s a = .flashROM →
    ∃ (v : Word) (n : Nat), exec (readRow w a openBus) s = .next { s with draws := n, resp := .rdata v } ∧
      v.toNat < 2 ^ (8 * widthBytes w) ∧
      (s.flash.phase ≠ .idMode → n = s.draws) ∧
      ∀ i, i < widthBytes w →
        let off := ((align w a).toNat + i) % 65536
        byteOf v i =
          if s.flash.phase ≠ .idMode then s.flash.content.read (s.flash.bank.toNat * 65536 + off)
          else if off = 0 then BitVec.ofNat 8 (s.flash.id.toNat % 256)
          else if off = 1 then BitVec.ofNat 8 (s.flash.id.toNat / 256)
          else Config.freeByte (s.draws + (if (align w a).toNat % 65536 = 0 then i - 2 else i))

/-! ## Power, load and unload -/

/-- POWER and its two engine rows reset the active engine's protocol state and nothing else (R203, R118, R160).
That the three rows are one transaction, which reaches the active engine whichever row is named, is entry 15. -/
def Obligations.PowerResetsOnlyTheProtocol : Prop :=
  ∀ (i : Instr) (s : State), i = .power ∨ i = .eepPower ∨ i = .flPower →
    (s.EepromActive → exec i s =
      .next { s with eep := { s.eep with phase := .idle, op := .read, count := 0, addr := 0, buf := 0, stream := [] },
                     resp := .nothing }) ∧
    (s.FlashActive → exec i s = .next { s with flash := { s.flash with phase := .idle }, resp := .nothing }) ∧
    (¬s.EepromActive → ¬s.FlashActive → exec i s = .next { s with resp := .nothing })

/-- Loading a Serial EEPROM of a legal declared size: size, address width, window, erased and preseeded content, and the
idle protocol state (R201, R25, R42). That only the active engine's fields are set is entry 14. -/
def Obligations.LoadOfAnEeprom : Prop :=
  ∀ (s : State) (d : Descriptor) (size : Nat) (id : BitVec 16),
    d.store = some ⟨.serialEEPROM, size, id⟩ → size % 8 = 0 → size ≤ 8192 → 1 ≤ d.romSize → d.romSize ≤ 0x02000000 →
    ∃ (img content : Memory), exec (.load d) s = .next
        { s with
          cart := ⟨true, .serialEEPROM⟩
          rom := ⟨d.romSize, img⟩
          eep :=
            { size := if size = 0 then 8192 else size
              bits := if size = 0 then none else if size ≤ 512 then some .six else some .fourteen
              winMask := if d.romSize > 0x01000000 then 0x0FFFFF00#32 else 0x0F000000#32
              winMatch := if d.romSize > 0x01000000 then 0x0DFFFF00#32 else 0x0D000000#32
              phase := .idle, op := .read, count := 0, addr := 0, buf := 0, stream := [], content := content }
          resp := .loadOk } ∧
      (∀ j, content.read j = preseedByte (if size = 0 then 8192 else size) d.preseed j) ∧
      ∀ j, j < d.romSize → j < d.romBytes.length → img.read j = d.romBytes.getD j 0

/-- Loading a FlashROM of 64 or 128 KiB (R201). That only the active engine's fields are set is entry 14. -/
def Obligations.LoadOfAFlashRom : Prop :=
  ∀ (s : State) (d : Descriptor) (size : Nat) (id : BitVec 16),
    d.store = some ⟨.flashROM, size, id⟩ → size = 65536 ∨ size = 131072 → 1 ≤ d.romSize → d.romSize ≤ 0x02000000 →
    ∃ (img content : Memory), exec (.load d) s = .next
        { s with
          cart := ⟨true, .flashROM⟩
          rom := ⟨d.romSize, img⟩
          flash := { size := size, id := id, phase := .idle, bank := 0, content := content }
          resp := .loadOk } ∧
      (∀ j, content.read j = preseedByte size d.preseed j) ∧
      ∀ j, j < d.romSize → j < d.romBytes.length → img.read j = d.romBytes.getD j 0

/-- Loading a StaticRAM (or FRAM) of a power-of-two size, and loading with no backing store (R201, R181).
That only the active engine's fields are set is entry 14, that FRAM is loaded as StaticRAM entry 21. -/
def Obligations.LoadOfAStaticRamOrNone : Prop :=
  ∀ (s : State) (d : Descriptor), 1 ≤ d.romSize → d.romSize ≤ 0x02000000 →
    (∀ (k : KindName) (n : Nat) (id : BitVec 16), k = .staticRAM ∨ k = .fram → d.store = some ⟨k, 2 ^ n, id⟩ → 2 ≤ n →
      2 ^ n ≤ s.params.sramMax →
      ∃ (img content : Memory), exec (.load d) s = .next
          { s with
            cart := ⟨true, .staticRAM⟩
            rom := ⟨d.romSize, img⟩
            sram := { size := 2 ^ n, mask := BitVec.ofNat 32 (2 ^ n - 1), content := content }
            resp := .loadOk } ∧
        (∀ j, content.read j = preseedByte (2 ^ n) d.preseed j) ∧
        ∀ j, j < d.romSize → j < d.romBytes.length → img.read j = d.romBytes.getD j 0) ∧
    (d.store = none →
      ∃ img : Memory, exec (.load d) s = .next
          { s with cart := ⟨true, .none⟩, rom := ⟨d.romSize, img⟩, resp := .loadOk } ∧
        ∀ j, j < d.romSize → j < d.romBytes.length → img.read j = d.romBytes.getD j 0)

/-- Load raises ConfigurationError with a code whose condition holds exactly when one does; it leaves the cartridge
unloaded and everything else as it was (R181).
Which code is given when two conditions hold, and that nothing else changes, is entry 12. -/
def Obligations.LoadRaisesConfigurationError : Prop :=
  ∀ (s : State) (d : Descriptor),
    (∀ code, raises s.params d code → ∃ code' n, raises s.params d code' ∧
      exec (.load d) s =
        .next { s with cart := ⟨false, s.cart.kind⟩, resp := .configurationError code', draws := n }) ∧
    (∀ code s', exec (.load d) s = .next s' → s'.resp = .configurationError code → raises s.params d code)

/-- A declared size within its maximum but outside the legal sets is refused, not raised (R181, R7); so is an image size of
0 with every store, or none, for which no code of R181 is raised.
The order of the checks, and that R181's refusal takes in an image size of 0, are entry 13. -/
def Obligations.IllegalSizesAreRefused : Prop :=
  ∀ (s : State) (d : Descriptor),
    (∀ (k : KindName) (size : Nat) (id : BitVec 16), d.romSize ≤ 0x02000000 → d.store = some ⟨k, size, id⟩ →
      (k = .serialEEPROM → size ≤ 8192 → size % 8 ≠ 0 → exec (.load d) s = .refused .illegalSize) ∧
      (k = .flashROM → size < 131072 → size ≠ 65536 → exec (.load d) s = .refused .illegalSize) ∧
      (k = .staticRAM ∨ k = .fram → size ≤ s.params.sramMax → (size < 4 ∨ ∀ n, size ≠ 2 ^ n) →
        exec (.load d) s = .refused .illegalSize)) ∧
    (d.romSize = 0 → (∀ code, ¬raises s.params d code) → exec (.load d) s = .refused .illegalSize)

/-- Unload marks the cartridge unloaded, and the arrays keep their bytes; after it reads and writes are refused and the
persistence collaborator gets null (R202, R92, R94).
That an unloaded cartridge has no active backend in R94's sense is entry 19. -/
def Obligations.UnloadKeepsTheArrays : Prop :=
  ∀ s : State,
    let t := { s with cart := ⟨false, s.cart.kind⟩, resp := .nothing }
    exec .unload s = .next t ∧
    (∀ w a x, exec (readRow w a x) t = .refused .unloaded ∧ exec (writeRow w a x) t = .refused .unloaded) ∧
    persistenceCall .contentPointer t = .next { t with resp := .pointer none }

/-! ## Serial EEPROM engine -/

/-- EEP.START: in `Idle` a 1 starts a frame and a 0 changes nothing (R101). -/
def Obligations.EepStartBeginsAFrameOnOne : Prop :=
  ∀ (s : State) (b : Bool), s.EepromActive → s.eep.phase = .idle →
    exec (.eepStart b) s =
      .next { s with eep := { s.eep with phase := if b then .command else .idle }, resp := .nothing }

/-- EEP.REQ_READ and EEP.REQ_WRITE: the bit after the start bit is the request type, and the receiving state is cleared
(R102). -/
def Obligations.EepRequestTypeOpensTheAddress : Prop :=
  ∀ s : State, s.EepromActive → s.eep.phase = .command →
    exec .eepReqRead s = .next { s with
      eep := { s.eep with op := .read, phase := .address, count := 0, addr := 0, buf := 0, stream := [] }
      resp := .nothing } ∧
    exec .eepReqWrite s = .next { s with
      eep := { s.eep with op := .write, phase := .address, count := 0, addr := 0, buf := 0, stream := [] }
      resp := .nothing }

/-- EEP.ADDR_BIT: an address bit is shifted in MSB first; the last one of the width latches the address (R103, R104). -/
def Obligations.EepAddressBitShiftsAndLatches : Prop :=
  ∀ (s : State) (w : AddrWidth) (b : Bool), s.EepromActive → s.eep.phase = .address → s.eep.bits = some w →
    let addr := BitVec.ofNat 14 (2 * s.eep.addr.toNat + b.toNat)
    let eep :=
      if s.eep.count + 1 ≠ (match w with | .six => 6 | .fourteen => 14) then
        { s.eep with addr := addr, count := s.eep.count + 1 }
      else match s.eep.op with
        | .read => { s.eep with addr := addr, phase := .readStop, count := 0 }
        | .write => { s.eep with addr := addr, phase := .writeData, count := 0, buf := 0 }
    exec (.eepAddrBit b) s = .next { s with eep := eep, resp := .nothing }

/-- EEP.STREAM_BIT: while the width is unresolved a bit is appended to the stream; at the cap of 79 the engine aborts to
the canonical idle state (R105). -/
def Obligations.EepStreamBitIsBuffered : Prop :=
  ∀ (s : State) (b : Bool), s.EepromActive → s.eep.phase = .address → s.eep.bits = none →
    exec (.eepStreamBit b) s = .next { s with
      eep := if s.eep.stream.length = 79 then
          { s.eep with phase := .idle, op := .read, count := 0, addr := 0, buf := 0, stream := [] }
        else { s.eep with stream := s.eep.stream ++ [b] }
      resp := .nothing }

/-- EEP.DATA_BIT: a data bit is shifted in MSB first, and the content stays; the 64th commits all 8 bytes of the block
that `eep.addr` modulo the block count selects, the most significant byte at its lowest index, and no other byte
(R106, R108, R50). -/
def Obligations.EepDataBitShiftsAndCommits : Prop :=
  ∀ (s : State) (b : Bool), s.Inv → s.EepromActive → s.eep.phase = .writeData →
    let buf := BitVec.ofNat 64 (2 * s.eep.buf.toNat + b.toNat)
    let base := s.eep.addr.toNat % (s.eep.size / 8) * 8
    (s.eep.count ≠ 63 → exec (.eepDataBit b) s = .next { s with
      eep := { s.eep with buf := buf, count := s.eep.count + 1 }, resp := .nothing }) ∧
    (s.eep.count = 63 → ∃ m : Memory,
      exec (.eepDataBit b) s = .next { s with
        eep := { s.eep with buf := buf, phase := .writeStop, count := 0, content := m }, resp := .nothing } ∧
      (∀ i, i < 8 → m.read (base + i) = buf.extractLsb' (56 - 8 * i) 8) ∧
      ∀ j, j < base ∨ base + 8 ≤ j → m.read j = s.eep.content.read j)

/-- EEP.READ_STOP and EEP.WRITE_STOP: a stop bit of either value is accepted; after a read request it opens the read data,
after a write request it returns to the canonical idle state (R107, R109). -/
def Obligations.EepStopBitsOfEitherValueAreAccepted : Prop :=
  ∀ (s : State) (b : Bool), s.EepromActive →
    (s.eep.phase = .readStop → exec (.eepReadStop b) s = .next { s with
      eep := { s.eep with phase := .readData, count := 0 }, resp := .nothing }) ∧
    (s.eep.phase = .writeStop → exec (.eepWriteStop b) s = .next { s with
      eep := { s.eep with phase := .idle, op := .read, count := 0, addr := 0, buf := 0, stream := [] }
      resp := .nothing })

/-- EEP.ABORT_READ: a write during read data ends the read with no content change, and a 1 starts a new frame (R110). -/
def Obligations.EepWriteDuringReadDataAborts : Prop :=
  ∀ (s : State) (b : Bool), s.EepromActive → s.eep.phase = .readData →
    exec (.eepAbortRead b) s = .next { s with
      eep := { s.eep with
        phase := if b then .command else .idle, op := .read, count := 0, addr := 0, buf := 0, stream := [] }
      resp := .nothing }

/-- EEP.READ_BIT: after the lead-in, read number `count` gives data bit `j = count - L` of the block, bit `7 - j mod 8`
of byte `j div 8`; a lead-in bit is a value drawn; the last read returns to the canonical idle state (R114, R50). -/
def Obligations.EepReadBitServesTheBlock : Prop :=
  ∀ s : State, s.EepromActive → s.eep.phase = .readData →
    let lead := match s.params.readLeadin with | .zero => 0 | .four => 4
    let j := s.eep.count - lead
    let base := s.eep.addr.toNat % (s.eep.size / 8) * 8
    let eep :=
      if s.eep.count + 1 = lead + 64 then
        { s.eep with phase := .idle, op := .read, count := 0, addr := 0, buf := 0, stream := [] }
      else { s.eep with count := s.eep.count + 1 }
    ∃ b : Bool, ∃ n : Nat,
      exec .eepReadBit s = .next { s with eep := eep, draws := n, resp := .rdata (if b then 1#32 else 0#32) } ∧
      (lead ≤ s.eep.count → n = s.draws ∧ b = (s.eep.content.read (base + j / 8)).getLsbD (7 - j % 8)) ∧
      (s.eep.count < lead → b = Config.freeBit s.draws)

/-- EEP.READ_DETECT on a read request whose bit count the width parameter resolves: the width is set, the address latched
from the stream, and this read is read number 0 of the data: a value drawn where there is a lead-in, else the first bit of
the block (R111, R114). A stream too short for the width is entry 9. -/
def Obligations.EepDetectReadLatchesAndServes : Prop :=
  ∀ (s : State) (w : AddrWidth), s.EepromActive → s.eep.phase = .address → s.eep.bits = none → s.eep.op = .read →
    widthDetect s.params.widthDetect ((s.eep.stream.length : Int) - 1) = some w →
    addrBits w ≤ s.eep.stream.length →
    let k := bitsVal (s.eep.stream.take (addrBits w))
    ∃ (b : Bool) (n : Nat),
      exec .eepReadDetect s = .next { s with
        eep := { s.eep with bits := some w, addr := BitVec.ofNat 14 k, stream := [], phase := .readData, count := 1 }
        draws := n, resp := .rdata (if b then 1#32 else 0#32) } ∧
      (s.params.readLeadin = .zero →
        n = s.draws ∧ b = (s.eep.content.read (k % (s.eep.size / 8) * 8)).getLsbD 7) ∧
      (s.params.readLeadin = .four → b = Config.freeBit s.draws)

/-- EEP.READ_DETECT on a write request whose bit count the width parameter resolves: the width is set, the 8 bytes are
committed, the read returns 1 and the engine is in the canonical idle state (R111, R108).
A stream too short for the width is entry 9. -/
def Obligations.EepDetectWriteCommits : Prop :=
  ∀ (s : State) (w : AddrWidth), s.Inv → s.EepromActive → s.eep.phase = .address → s.eep.bits = none →
    s.eep.op = .write → widthDetect s.params.widthDetect ((s.eep.stream.length : Int) - 65) = some w →
    addrBits w + 64 ≤ s.eep.stream.length →
    let k := bitsVal (s.eep.stream.take (addrBits w))
    let d := BitVec.ofNat 64 (bitsVal ((s.eep.stream.drop (addrBits w)).take 64))
    let base := k % (s.eep.size / 8) * 8
    ∃ m : Memory,
      exec .eepReadDetect s = .next { s with
        eep := { s.eep with bits := some w, content := m, phase := .idle, op := .read, count := 0, addr := 0, buf := 0,
                            stream := [] }
        resp := .rdata 1#32 } ∧
      (∀ i, i < 8 → m.read (base + i) = d.extractLsb' (56 - 8 * i) 8) ∧
      ∀ j, j < base ∨ base + 8 ≤ j → m.read j = s.eep.content.read j

/-- EEP.READ_DETECT on a bit count the width parameter does not resolve: the stream is dropped, the width stays
unresolved, no content changes and the read returns 1 (R112). -/
def Obligations.EepDetectFailureDropsTheStream : Prop :=
  ∀ s : State, s.EepromActive → s.eep.phase = .address → s.eep.bits = none →
    widthDetect s.params.widthDetect
      ((s.eep.stream.length : Int) - (match s.eep.op with | .read => 1 | .write => 65)) = none →
    exec .eepReadDetect s = .next { s with
      eep := { s.eep with phase := .idle, op := .read, count := 0, addr := 0, buf := 0, stream := [] }
      resp := .rdata 1#32 }

/-- EEP.READ_IDLE: a read outside read data returns 1 and changes nothing (R116). -/
def Obligations.EepReadElsewhereReturnsOne : Prop :=
  ∀ s : State, s.EepromActive → s.eep.phase ≠ .readData → (s.eep.phase = .address → s.eep.bits ≠ none) →
    exec .eepReadIdle s = .next { s with resp := .rdata 1#32 }

/-- EEP.READ_FRAME: from `Idle` the bits of a read request of the engine's width leave `ReadData` with the address
latched, count 0 and the content unchanged (R120, R65). In every state, in another phase or at another width too
(95_test_vectors.md E44), the row answers what its bits answer one at a time (R53, R64).
R120 is an inference the spec marks as derived; one step for a frame is entry 6, whose disproof the last two clauses rule
out; that the phase selects each bit's row is entry 4. -/
def Obligations.ReadFrameLatchesTheAddress : Prop :=
  ∀ (s : State) (stop : Bool),
    (s.EepromActive → s.eep.phase = .idle →
      (∀ k : BitVec 6, s.eep.bits = some .six → exec (.eepReadFrame6 k stop) s = .next { s with
        eep := { s.eep with phase := .readData, op := .read, count := 0, addr := k.setWidth 14, buf := 0, stream := [] }
        resp := .nothing }) ∧
      (∀ k : BitVec 14, s.eep.bits = some .fourteen → exec (.eepReadFrame14 k stop) s = .next { s with
        eep := { s.eep with phase := .readData, op := .read, count := 0, addr := k, buf := 0, stream := [] }
        resp := .nothing })) ∧
    (∀ k : BitVec 6, exec (.eepReadFrame6 k stop) s = sendBits ([true, true] ++ bitsOf 6 k.toNat ++ [stop]) s) ∧
    ∀ k : BitVec 14, exec (.eepReadFrame14 k stop) s = sendBits ([true, true] ++ bitsOf 14 k.toNat ++ [stop]) s

/-- EEP.WRITE_FRAME: from `Idle` the bits of a write request of the engine's width leave the canonical idle state with the
block replaced and every other byte unchanged (R123, R66). In every state, in another phase or at another width too, the
row answers what its bits answer one at a time (R53, R64).
R123 is an inference the spec marks as derived; one step for a frame is entry 6, whose disproof the last two clauses rule
out; that the phase selects each bit's row is entry 4. -/
def Obligations.WriteFrameReplacesTheBlock : Prop :=
  ∀ (s : State) (d : BitVec 64) (stop : Bool),
    (s.Inv → s.EepromActive → s.eep.phase = .idle →
      (∀ k : BitVec 6, s.eep.bits = some .six → ∃ m : Memory,
        exec (.eepWriteFrame6 k d stop) s = .next { s with eep := { s.eep with content := m }, resp := .nothing } ∧
        blockWritten s.eep.size k.toNat d s.eep.content m) ∧
      (∀ k : BitVec 14, s.eep.bits = some .fourteen → ∃ m : Memory,
        exec (.eepWriteFrame14 k d stop) s = .next { s with eep := { s.eep with content := m }, resp := .nothing } ∧
        blockWritten s.eep.size k.toNat d s.eep.content m)) ∧
    (∀ k : BitVec 6, exec (.eepWriteFrame6 k d stop) s =
      sendBits ([true, false] ++ bitsOf 6 k.toNat ++ bitsOf 64 d.toNat ++ [stop]) s) ∧
    ∀ k : BitVec 14, exec (.eepWriteFrame14 k d stop) s =
      sendBits ([true, false] ++ bitsOf 14 k.toNat ++ bitsOf 64 d.toNat ++ [stop]) s

/-- EEP.READ64: after a read frame, `L + 64` reads, of which read `L + j` is data bit `j` of the block; then the canonical
idle state, with the content unchanged (R122). In every state, in another phase or at another count too, the row answers
the bits of its reads taken one at a time (R53, R67).
R122 is an inference the spec marks as derived; one step for the sequence is entry 6, whose disproof the last clause rules
out; that the phase selects each read's row is entry 4. -/
def Obligations.Read64GivesTheBlock : Prop :=
  ∀ s : State,
    let lead := match s.params.readLeadin with | .zero => 0 | .four => 4
    let base := s.eep.addr.toNat % (s.eep.size / 8) * 8
    (s.EepromActive → s.eep.phase = .readData → s.eep.count = 0 → ∃ bits : List Bool,
      exec .eepRead64 s = .next { s with
        eep := { s.eep with phase := .idle, op := .read, count := 0, addr := 0, buf := 0, stream := [] }
        draws := s.draws + lead, resp := .bits bits } ∧
      bits.length = lead + 64 ∧
      ∀ j, j < 64 → bits[lead + j]? = some ((s.eep.content.read (base + j / 8)).getLsbD (7 - j % 8))) ∧
    exec .eepRead64 s = takeReads (lead + 64) [] s

/-- EEP.FRAME_UNRESOLVED of a read request: where the width parameter resolves the frame's bit count to its own number of
address bits, the frame and one read set the width, latch the address and serve read number 0 (R124). In every state and
for every stream the row answers what its bits and then its read answer one at a time (R53, R69).
R124 is an inference the spec marks as derived; one step for frame and read is entry 6, whose disproof the last clause
rules out; that the phase selects each event's row is entry 4. -/
def Obligations.UnresolvedReadFrameAdapts : Prop :=
  ∀ s : State,
    (∀ (w : AddrWidth) (k : List Bool) (stop : Bool), s.EepromActive → s.eep.phase = .idle →
      s.eep.bits = none → k.length = addrBits w →
      widthDetect s.params.widthDetect (addrBits w) = some w →
      ∃ (b : Bool) (n : Nat),
        exec (.eepFrameUnresolved true (k ++ [stop])) s = .next { s with
          eep := { s.eep with bits := some w, addr := BitVec.ofNat 14 (bitsVal k), stream := [], phase := .readData,
                              op := .read, count := 1, buf := 0 }
          draws := n, resp := .rdata (if b then 1#32 else 0#32) } ∧
        (s.params.readLeadin = .zero →
          n = s.draws ∧ b = (s.eep.content.read (bitsVal k % (s.eep.size / 8) * 8)).getLsbD 7) ∧
        (s.params.readLeadin = .four → b = Config.freeBit s.draws)) ∧
    ∀ stream, exec (.eepFrameUnresolved true stream) s = sendBitsThenRead (true :: true :: stream) s

/-- EEP.FRAME_UNRESOLVED of a write request: the frame and one read set the width, commit the 8 bytes, return 1 and leave
the engine in the canonical idle state (R124). In every state and for every stream the row answers what its bits and then
its read answer one at a time (R53, R69).
R124 is an inference the spec marks as derived; one step for frame and read is entry 6, whose disproof the last clause
rules out; that the phase selects each event's row is entry 4. -/
def Obligations.UnresolvedWriteFrameCommits : Prop :=
  ∀ s : State,
    (∀ (w : AddrWidth) (k data : List Bool) (stop : Bool), s.Inv → s.EepromActive → s.eep.phase = .idle →
      s.eep.bits = none → k.length = addrBits w → data.length = 64 →
      widthDetect s.params.widthDetect (addrBits w) = some w →
      ∃ m : Memory,
        exec (.eepFrameUnresolved false (k ++ data ++ [stop])) s = .next { s with
          eep := { s.eep with bits := some w, content := m }, resp := .rdata 1#32 } ∧
        blockWritten s.eep.size (bitsVal k) (BitVec.ofNat 64 (bitsVal data)) s.eep.content m) ∧
    ∀ stream, exec (.eepFrameUnresolved false stream) s = sendBitsThenRead (true :: false :: stream) s

/-- The EEPROM round trip: a write frame for `k`, then a read frame for the same `k`, then READ64 gives, after the
lead-in, exactly the 64 bits written, for both widths and both lead-ins (95_test_vectors.md P2).
R120, R122 and R123, which it rests on, are inferences the spec marks as derived; one step for a frame and for the
read-data sequence is entry 6. -/
def Obligations.EepromRoundTrip : Prop :=
  ∀ (s : State) (d : BitVec 64) (stop stop' : Bool), s.Inv → s.EepromActive → s.eep.phase = .idle →
    let lead := match s.params.readLeadin with | .zero => 0 | .four => 4
    (∀ k : BitVec 6, s.eep.bits = some .six → ∃ s₁ s₂ s₃ bits,
      exec (.eepWriteFrame6 k d stop) s = .next s₁ ∧ exec (.eepReadFrame6 k stop') s₁ = .next s₂ ∧
      exec .eepRead64 s₂ = .next s₃ ∧ s₃.resp = .bits bits ∧ bits.drop lead = bitsOf 64 d.toNat) ∧
    (∀ k : BitVec 14, s.eep.bits = some .fourteen → ∃ s₁ s₂ s₃ bits,
      exec (.eepWriteFrame14 k d stop) s = .next s₁ ∧ exec (.eepReadFrame14 k stop') s₁ = .next s₂ ∧
      exec .eepRead64 s₂ = .next s₃ ∧ s₃.resp = .bits bits ∧ bits.drop lead = bitsOf 64 d.toNat)

/-! ## FlashROM engine -/

/-- FL.UNLOCK1, FL.UNLOCK2, FL.ERASE_UNLOCK1 and FL.ERASE_UNLOCK2: in its phase the expected word goes one phase on, and
every other word returns to `Idle`; content and bank stay (R142, R143, R148, R149). -/
def Obligations.FlashUnlockWritesAdvanceOrAbort : Prop :=
  ∀ (s : State) (off : BitVec 16) (v : Byte), s.FlashActive →
    let next := fun p : FlashPhase => Host.Outcome.next (φ := Fault) (ρ := Refusal)
      { s with flash := { s.flash with phase := p }, resp := .nothing }
    (s.flash.phase = .idle →
      exec (.flUnlock1 off v) s = if off = 0x5555#16 ∧ v = 0xAA#8 then next .unlock1 else next .idle) ∧
    (s.flash.phase = .unlock1 →
      exec (.flUnlock2 off v) s = if off = 0x2AAA#16 ∧ v = 0x55#8 then next .unlock2 else next .idle) ∧
    (s.flash.phase = .eraseArmed →
      exec (.flEraseUnlock1 off v) s = if off = 0x5555#16 ∧ v = 0xAA#8 then next .eraseUnlock1 else next .idle) ∧
    (s.flash.phase = .eraseUnlock1 →
      exec (.flEraseUnlock2 off v) s = if off = 0x2AAA#16 ∧ v = 0x55#8 then next .eraseUnlock2 else next .idle)

/-- FL.ID_ENTER, FL.ID_EXIT, FL.ERASE_SETUP, FL.PROGRAM_SETUP, FL.BANK_SETUP and FL.UNLOCK2_OTHER: the phase each command
leads to from `Unlock2`; content and bank stay; BANK_SETUP is recognised on a 128 KiB part only (R144, R145, R146, R152,
R154, R156). -/
def Obligations.FlashCommandsAfterUnlock : Prop :=
  ∀ s : State, s.FlashActive → s.flash.phase = .unlock2 →
    let next := fun p : FlashPhase => Host.Outcome.next (φ := Fault) (ρ := Refusal)
      { s with flash := { s.flash with phase := p }, resp := .nothing }
    exec .flIdEnter s = next .idMode ∧
    exec .flIdExit s = next .idle ∧
    exec .flEraseSetup s = next .eraseArmed ∧
    exec .flProgramSetup s = next .writeMode ∧
    (s.flash.size = 131072 → exec .flBankSetup s = next .bankSwitch) ∧
    (s.flash.size ≠ 131072 → exec .flBankSetup s = next .idle) ∧
    ∀ off v, (Instr.flUnlock2Other off v).WellFormed → exec (.flUnlock2Other off v) s = next .idle

/-- FL.ID_MODE_WRITE: any write leaves ID mode, and (0x5555, 0xAA) is also the first unlock write (R147). -/
def Obligations.FlashIdModeWriteLeavesIdMode : Prop :=
  ∀ (s : State) (off : BitVec 16) (v : Byte), s.FlashActive → s.flash.phase = .idMode →
    exec (.flIdModeWrite off v) s = .next { s with
      flash := { s.flash with phase := if off = 0x5555#16 ∧ v = 0xAA#8 then .unlock1 else .idle }, resp := .nothing }

/-- FL.CHIP_ERASE: every byte of the part reads 0xFF, in both banks; the bank stays; back to `Idle` (R150). -/
def Obligations.FlashChipEraseSetsEveryByte : Prop :=
  ∀ s : State, s.Inv → s.FlashActive → s.flash.phase = .eraseUnlock2 → ∃ m : Memory,
    exec .flChipErase s = .next { s with flash := { s.flash with phase := .idle, content := m }, resp := .nothing } ∧
    ∀ j, m.read j = if j < s.flash.size then 0xFF#8 else s.flash.content.read j

/-- FL.SECTOR_ERASE: the 4096 bytes of the sector in the current bank read 0xFF, every other byte is unchanged; FL.ERASE_OTHER
erases nothing; both return to `Idle` (R151, R157). -/
def Obligations.FlashSectorEraseSetsItsSector : Prop :=
  ∀ s : State, s.Inv → s.FlashActive → s.flash.phase = .eraseUnlock2 →
    (∀ off : BitVec 16, off.toNat % 4096 = 0 → ∃ m : Memory,
      exec (.flSectorErase off) s =
        .next { s with flash := { s.flash with phase := .idle, content := m }, resp := .nothing } ∧
      ∀ j, m.read j =
        if s.flash.bank.toNat * 65536 + off.toNat ≤ j ∧ j < s.flash.bank.toNat * 65536 + off.toNat + 4096 then 0xFF#8
        else s.flash.content.read j) ∧
    ∀ off v, (Instr.flEraseOther off v).WellFormed →
      exec (.flEraseOther off v) s = .next { s with flash := { s.flash with phase := .idle }, resp := .nothing }

/-- FL.PROGRAM: exactly the byte at the bank-adjusted offset becomes its AND with the value; back to `Idle` (R153, R49). -/
def Obligations.FlashProgramAndsOneByte : Prop :=
  ∀ (s : State) (off : BitVec 16) (v : Byte), s.Inv → s.FlashActive → s.flash.phase = .writeMode → ∃ m : Memory,
    exec (.flProgram off v) s =
      .next { s with flash := { s.flash with phase := .idle, content := m }, resp := .nothing } ∧
    ∀ j, m.read j =
      if j = s.flash.bank.toNat * 65536 + off.toNat then s.flash.content.read j &&& v else s.flash.content.read j

/-- FL.BANK_SELECT: a write at offset 0 sets the bank to `v mod 2`, one at any other offset keeps it; back to `Idle`
(R155). -/
def Obligations.FlashBankSelectSetsTheBank : Prop :=
  ∀ (s : State) (off : BitVec 16) (v : Byte), s.FlashActive → s.flash.phase = .bankSwitch →
    exec (.flBankSelect off v) s = .next { s with
      flash := { s.flash with phase := .idle, bank := if off = 0#16 then BitVec.ofNat 1 (v.toNat % 2) else s.flash.bank }
      resp := .nothing }

/-- FL.READ: in ID mode the identifier's low byte at offset 0 and high byte at offset 1, in either bank, and a value drawn
elsewhere; in every other phase the content; no phase, bank or content changes (R161). -/
def Obligations.FlashReadGivesIdOrContent : Prop :=
  ∀ (s : State) (off : BitVec 16), s.FlashActive → ∃ (b : Byte) (n : Nat),
    exec (.flRead off) s = .next { s with draws := n, resp := .rdata (BitVec.ofNat 32 b.toNat) } ∧
    (s.flash.phase ≠ .idMode → b = s.flash.content.read (s.flash.bank.toNat * 65536 + off.toNat)) ∧
    (s.flash.phase = .idMode → off = 0#16 → b.toNat = s.flash.id.toNat % 256) ∧
    (s.flash.phase = .idMode → off = 1#16 → b.toNat = s.flash.id.toNat / 256) ∧
    (s.flash.phase = .idMode → off ≠ 0#16 → off ≠ 1#16 → b = Config.freeByte s.draws)

/-- The transition table of `FlashWriteByte`: the listed words, and every other write returns to `Idle` with no effect
(R159). R159 is an inference the spec marks as derived. -/
def Obligations.FlashTransitionTable : Prop :=
  ∀ (f : Flash) (off : BitVec 16) (v : Byte),
    let listed := fun o b => off = o ∧ v = b
    let phase' : FlashPhase :=
      match f.phase with
      | .idle => if listed 0x5555#16 0xAA#8 then .unlock1 else .idle
      | .unlock1 => if listed 0x2AAA#16 0x55#8 then .unlock2 else .idle
      | .unlock2 =>
        if listed 0x5555#16 0x90#8 then .idMode
        else if listed 0x5555#16 0x80#8 then .eraseArmed
        else if listed 0x5555#16 0xA0#8 then .writeMode
        else if listed 0x5555#16 0xB0#8 ∧ f.size = 131072 then .bankSwitch
        else .idle
      | .idMode => if listed 0x5555#16 0xAA#8 then .unlock1 else .idle
      | .eraseArmed => if listed 0x5555#16 0xAA#8 then .eraseUnlock1 else .idle
      | .eraseUnlock1 => if listed 0x2AAA#16 0x55#8 then .eraseUnlock2 else .idle
      | .eraseUnlock2 => .idle
      | .writeMode => .idle
      | .bankSwitch => .idle
    let idx := f.bank.toNat * 65536 + off.toNat
    let content' : Memory :=
      match f.phase with
      | .eraseUnlock2 =>
        if listed 0x5555#16 0x10#8 then f.content.erase 0 f.size
        else if off.toNat % 4096 = 0 ∧ v = 0x30#8 then f.content.erase idx 4096
        else f.content
      | .writeMode => f.content.write idx (f.content.read idx &&& v)
      | _ => f.content
    let bank' := if f.phase = .bankSwitch ∧ off = 0#16 then BitVec.ofNat 1 v.toNat else f.bank
    flashWriteByte off v f = { f with phase := phase', content := content', bank := bank' }

/-- Erase then program: after its sector is erased, programming a byte gives exactly the value programmed, and a second
program gives the AND of both (R151, R153; 95_test_vectors.md P3 with 90_conflicts.md C3). The writes are the unlocks of
R142 and R143, the setups of R146 and R152, and the second unlock of R148 and R149. -/
def Obligations.EraseThenProgramGivesTheValue : Prop :=
  ∀ (s : State) (off sector : BitVec 16) (x y : Byte), s.Inv → s.FlashActive → s.flash.phase = .idle →
    sector = off &&& 0xF000#16 →
    let unlock := fun t : State => deliverFlashByte 0x2AAA#16 0x55#8 (deliverFlashByte 0x5555#16 0xAA#8 t)
    let command := fun (c : Byte) (t : State) => deliverFlashByte 0x5555#16 c (unlock t)
    let erased := deliverFlashByte sector 0x30#8 (unlock (command 0x80#8 s))
    let once := deliverFlashByte off x (command 0xA0#8 erased)
    let twice := deliverFlashByte off y (command 0xA0#8 once)
    let idx := s.flash.bank.toNat * 65536 + off.toNat
    once.flash.content.read idx = x ∧ twice.flash.content.read idx = x &&& y ∧
    (∀ j, j < s.flash.bank.toNat * 65536 + sector.toNat ∨ s.flash.bank.toNat * 65536 + sector.toNat + 4096 ≤ j →
      twice.flash.content.read j = s.flash.content.read j) ∧
    twice.flash.phase = .idle ∧ twice.flash.bank = s.flash.bank

/-! ## Persistence -/

/-- The content accessors: the active backend's array and logical size, null and 0 when none is active; a host write
between transactions changes one byte of that array and no phase; an access outside the size is refused
(R94, R95; entry 19). -/
def Obligations.PersistenceReachesTheActiveArray : Prop :=
  ∀ s : State,
    (activeKind s = .none → persistenceCall .contentPointer s = .next { s with resp := .pointer none } ∧
      persistenceCall .contentSize s = .next { s with resp := .size 0 }) ∧
    (s.EepromActive → persistenceCall .contentPointer s = .next { s with resp := .pointer (some .eepContent) } ∧
      persistenceCall .contentSize s = .next { s with resp := .size s.eep.size } ∧
      ∀ i b, i < s.eep.size →
        persistenceCall (.readContent i) s = .next { s with resp := .contentByte (s.eep.content.read i) } ∧
        persistenceCall (.writeContent i b) s =
          .next { s with eep := { s.eep with content := s.eep.content.write i b }, resp := .nothing }) ∧
    (s.FlashActive → persistenceCall .contentPointer s = .next { s with resp := .pointer (some .flashContent) } ∧
      persistenceCall .contentSize s = .next { s with resp := .size s.flash.size } ∧
      ∀ i b, i < s.flash.size →
        persistenceCall (.readContent i) s = .next { s with resp := .contentByte (s.flash.content.read i) } ∧
        persistenceCall (.writeContent i b) s =
          .next { s with flash := { s.flash with content := s.flash.content.write i b }, resp := .nothing }) ∧
    (s.cart.loaded = true → s.cart.kind = .staticRAM →
      persistenceCall .contentPointer s = .next { s with resp := .pointer (some .sramContent) } ∧
      persistenceCall .contentSize s = .next { s with resp := .size s.sram.size } ∧
      ∀ i b, i < s.sram.size →
        persistenceCall (.readContent i) s = .next { s with resp := .contentByte (s.sram.content.read i) } ∧
        persistenceCall (.writeContent i b) s =
          .next { s with sram := { s.sram with content := s.sram.content.write i b }, resp := .nothing }) ∧
    ∀ i b, contentSize s ≤ i → persistenceCall (.readContent i) s = .refused .contentOutOfRange ∧
      persistenceCall (.writeContent i b) s = .refused .contentOutOfRange
end

