-- ==== Sys2Proof/Laws/Bits.lean ====
section
/-!
SUPPORT. Bit strings: `bitsOf` and `bitsVal` are inverse, and the command word holds its two fields.
-/

namespace Sys2Proof

@[simp] theorem bitsOf_length : ∀ n v : Nat, (bitsOf n v).length = n
  | 0, _ => rfl
  | n + 1, v => by rw [bitsOf, List.length_cons, bitsOf_length n v]

theorem bitsVal_cons (b : Bool) (bs : List Bool) : bitsVal (b :: bs) = b.toNat * 2 ^ bs.length + bitsVal bs := rfl

theorem bitsVal_lt : ∀ bs : List Bool, bitsVal bs < 2 ^ bs.length
  | [] => by simp [bitsVal]
  | b :: bs => by
    have ih := bitsVal_lt bs
    rw [bitsVal_cons, List.length_cons, Nat.pow_succ]
    cases b <;> simp <;> omega

/-- The value of the low `n` bits of `v` (R68). -/
theorem bitsVal_bitsOf : ∀ n v : Nat, bitsVal (bitsOf n v) = v % 2 ^ n
  | 0, v => by simp [bitsOf, bitsVal, Nat.mod_one]
  | n + 1, v => by
    rw [bitsOf, bitsVal_cons, bitsOf_length, bitsVal_bitsOf n v, Nat.toNat_testBit, Nat.mod_pow_succ]
    ring

/-- The bits of a bit vector have its value (R68). -/
@[simp] theorem bitsVal_bitsOf_toNat {n : Nat} (v : BitVec n) : bitsVal (bitsOf n v.toNat) = v.toNat := by
  rw [bitsVal_bitsOf, Nat.mod_eq_of_lt v.isLt]

/-- Appending a bit shifts the value left by one (R103, R106). -/
theorem bitsVal_append_singleton : ∀ (bs : List Bool) (b : Bool), bitsVal (bs ++ [b]) = 2 * bitsVal bs + b.toNat
  | [], b => by simp [bitsVal]
  | c :: bs, b => by
    rw [List.cons_append, bitsVal_cons, bitsVal_cons, bitsVal_append_singleton bs b, List.length_append]
    simp only [List.length_cons, List.length_nil, Nat.pow_succ]
    ring

/-- The low `n` bits of a number do not depend on a multiple of `2 ^ k` above them. -/
theorem bitsOf_add_mul {k v : Nat} (hv : v < 2 ^ k) (a : Nat) :
    ∀ n, n ≤ k → bitsOf n (2 ^ k * a + v) = bitsOf n v
  | 0, _ => rfl
  | n + 1, h => by
    rw [bitsOf, bitsOf, bitsOf_add_mul hv a n (by omega), Nat.testBit_two_pow_mul_add a hv, if_pos (by omega)]

/-- A bit string is the bits of its value. -/
theorem bitsOf_bitsVal : ∀ bs : List Bool, bitsOf bs.length (bitsVal bs) = bs
  | [] => rfl
  | b :: bs => by
    have hlt := bitsVal_lt bs
    rw [List.length_cons, bitsOf, bitsVal_cons, Nat.mul_comm, bitsOf_add_mul hlt _ _ le_rfl, bitsOf_bitsVal bs,
      Nat.testBit_two_pow_mul_add _ hlt, if_neg (by omega), Nat.sub_self]
    cases b <;> rfl

theorem getLsbD_cmdWord (off : BitVec 16) (v : Byte) (i : Nat) :
    (cmdWord off v).getLsbD i = if i < 8 then v.getLsbD i else off.getLsbD (i - 8) :=
  BitVec.getLsbD_append

/-- `c[23:8]` of a command word is the offset (R70). -/
@[simp] theorem cmdOff_cmdWord (off : BitVec 16) (v : Byte) : cmdOff (cmdWord off v) = off := by
  ext i hi
  rw [cmdOff, BitVec.getElem_extractLsb', getLsbD_cmdWord, if_neg (by omega), Nat.add_sub_cancel_left,
    BitVec.getLsbD_eq_getElem hi]

/-- `c[7:0]` of a command word is the byte (R70). -/
@[simp] theorem cmdByte_cmdWord (off : BitVec 16) (v : Byte) : cmdByte (cmdWord off v) = v := by
  ext i hi
  rw [cmdByte, BitVec.getElem_extractLsb', getLsbD_cmdWord, Nat.zero_add, if_pos hi, BitVec.getLsbD_eq_getElem hi]

/-- A command word is its two fields (R70). -/
@[simp] theorem cmdWord_fields (c : BitVec 24) : cmdWord (cmdOff c) (cmdByte c) = c := by
  apply BitVec.eq_of_getLsbD_eq
  intro i hi
  rw [getLsbD_cmdWord, cmdOff, cmdByte]
  split
  · rename_i h; simp [h]
  · rename_i h
    rw [BitVec.getLsbD_extractLsb', show 8 + (i - 8) = i by omega]
    simp only [Bool.and_eq_right_iff_imp, decide_eq_true_eq]
    omega

end Sys2Proof
end

