-- ==== Sys2Proof/Laws/Memory.lean ====
section
/-!
SUPPORT. The laws of byte arrays: what a read gives after each operation, that every operation keeps the canonical form, and
that it lists no index outside the array.
-/

namespace Sys2Proof.Machine

@[simp] theorem Memory.read_nil (a : Nat) : Memory.read [] a = erasedByte := rfl

theorem Memory.read_cons (k : Nat) (v : Byte) (m : Memory) (a : Nat) :
    Memory.read ((k, v) :: m) a = if k = a then v else Memory.read m a := rfl

theorem Memory.wfFrom_cons (lo k : Nat) (v : Byte) (m : Memory) :
    Memory.wfFrom lo ((k, v) :: m) = true ↔ lo ≤ k ∧ v ≠ erasedByte ∧ Memory.wfFrom (k + 1) m = true := by
  simp [Memory.wfFrom, and_assoc]

theorem Memory.wfFrom_weaken {lo lo' : Nat} (h : lo' ≤ lo) :
    ∀ {m : Memory}, Memory.wfFrom lo m = true → Memory.wfFrom lo' m = true
  | [], _ => rfl
  | (k, v) :: m, hm => by
    rw [Memory.wfFrom_cons] at hm ⊢
    exact ⟨h.trans hm.1, hm.2⟩

/-- Below its first index an array reads as erased. -/
theorem Memory.read_below {lo a : Nat} (h : a < lo) :
    ∀ {m : Memory}, Memory.wfFrom lo m = true → Memory.read m a = erasedByte
  | [], _ => rfl
  | (k, v) :: m, hm => by
    rw [Memory.wfFrom_cons] at hm
    rw [Memory.read_cons, if_neg (by omega)]
    exact Memory.read_below (by omega) hm.2.2

theorem Memory.read_write_from {lo : Nat} (a x : Nat) (b : Byte) :
    ∀ {m : Memory}, Memory.wfFrom lo m = true →
      Memory.read (Memory.write m a b) x = if x = a then b else Memory.read m x
  | [], _ => by
    by_cases hb : b = erasedByte <;> by_cases hx : x = a <;> simp [Memory.write, Memory.read, hb, hx]
    intro h; exact absurd h.symm hx
  | (k, v) :: m, hm => by
    rw [Memory.wfFrom_cons] at hm
    have below : ∀ {y}, y < k + 1 → Memory.read m y = erasedByte := fun hy => Memory.read_below hy hm.2.2
    have ih := Memory.read_write_from a x b hm.2.2
    unfold Memory.write
    split
    · rename_i hak
      split
      · rename_i hb
        split
        · subst hb; rename_i hx; subst hx
          rw [Memory.read_cons, if_neg (by omega), below (by omega)]
        · rfl
      · rw [Memory.read_cons]
        split
        · rename_i h; rw [if_pos h.symm]
        · rename_i h; rw [if_neg (Ne.symm h)]
    · split
      · rename_i hak; subst hak
        split
        · rename_i hb
          split
          · rename_i hx; subst hx; rw [below (by omega), hb]
          · rename_i hx; rw [Memory.read_cons, if_neg (Ne.symm hx)]
        · rw [Memory.read_cons, Memory.read_cons]
          by_cases hx : x = a
          · subst hx; simp
          · rw [if_neg (Ne.symm hx), if_neg hx, if_neg (Ne.symm hx)]
      · rename_i hak
        rw [Memory.read_cons, Memory.read_cons, ih]
        by_cases hk : k = x
        · subst hk; rw [if_pos rfl, if_pos rfl, if_neg (Ne.symm hak)]
        · rw [if_neg hk, if_neg hk]

/-- A read after a write: the byte written at its index, the old byte elsewhere. -/
theorem Memory.read_write {m : Memory} (hm : m.wf = true) (a x : Nat) (b : Byte) :
    (m.write a b).read x = if x = a then b else m.read x := Memory.read_write_from a x b hm

theorem Memory.wfFrom_write {lo a : Nat} (b : Byte) (h : lo ≤ a) :
    ∀ {m : Memory}, Memory.wfFrom lo m = true → Memory.wfFrom lo (Memory.write m a b) = true
  | [], _ => by
    unfold Memory.write
    split
    · rfl
    · rename_i hb; rw [Memory.wfFrom_cons]; exact ⟨h, hb, rfl⟩
  | (k, v) :: m, hm => by
    rw [Memory.wfFrom_cons] at hm
    unfold Memory.write
    split
    · split
      · rw [Memory.wfFrom_cons]; exact hm
      · rename_i hak hb
        rw [Memory.wfFrom_cons, Memory.wfFrom_cons]
        exact ⟨h, hb, by omega, hm.2⟩
    · split
      · rename_i hak; subst hak
        split
        · exact Memory.wfFrom_weaken (by omega) hm.2.2
        · rename_i hb; rw [Memory.wfFrom_cons]; exact ⟨hm.1, hb, hm.2.2⟩
      · rw [Memory.wfFrom_cons]
        exact ⟨hm.1, hm.2.1, Memory.wfFrom_write b (by omega) hm.2.2⟩

/-- A write keeps the canonical form. -/
theorem Memory.wf_write {m : Memory} (hm : m.wf = true) (a : Nat) (b : Byte) : (m.write a b).wf = true :=
  Memory.wfFrom_write b (Nat.zero_le a) hm

theorem Memory.within_cons (k : Nat) (v : Byte) (m : Memory) (n : Nat) :
    Memory.within ((k, v) :: m) n = true ↔ k < n ∧ Memory.within m n = true := by
  unfold Memory.within
  rw [List.all_cons, Bool.and_eq_true, decide_eq_true_eq]

/-- A write inside the array lists nothing outside it. -/
theorem Memory.within_write {n a : Nat} (b : Byte) (ha : a < n) :
    ∀ {m : Memory}, Memory.within m n = true → Memory.within (Memory.write m a b) n = true
  | [], _ => by
    unfold Memory.write
    split
    · rfl
    · exact (Memory.within_cons a b [] n).2 ⟨ha, rfl⟩
  | (k, v) :: m, hm => by
    have hkm := (Memory.within_cons k v m n).1 hm
    unfold Memory.write
    split
    · split
      · exact hm
      · exact (Memory.within_cons _ _ _ n).2 ⟨ha, hm⟩
    · split
      · split
        · exact hkm.2
        · exact (Memory.within_cons _ _ _ n).2 ⟨ha, hkm.2⟩
      · exact (Memory.within_cons _ _ _ n).2 ⟨hkm.1, Memory.within_write b ha hkm.2⟩

/-- Writing consecutive bytes keeps the canonical form. -/
theorem Memory.wf_writeBytes : ∀ {m : Memory} (a : Nat) (bs : List Byte), m.wf = true → (m.writeBytes a bs).wf = true
  | _, _, [], hm => hm
  | _, a, b :: bs, hm => Memory.wf_writeBytes (a + 1) bs (Memory.wf_write hm a b)

/-- Writing consecutive bytes inside the array lists nothing outside it. -/
theorem Memory.within_writeBytes {n : Nat} :
    ∀ {m : Memory} (a : Nat) (bs : List Byte), a + bs.length ≤ n → Memory.within m n = true →
      Memory.within (m.writeBytes a bs) n = true
  | _, _, [], _, hm => hm
  | _, a, b :: bs, h, hm => by
    simp only [List.length_cons] at h
    exact Memory.within_writeBytes (a + 1) bs (by omega) (Memory.within_write b (by omega) hm)

/-- A read after consecutive writes: byte `x - a` of the list inside them, the old byte outside. -/
theorem Memory.read_writeBytes :
    ∀ {m : Memory} (a : Nat) (bs : List Byte) (x : Nat), m.wf = true →
      (m.writeBytes a bs).read x = if h : a ≤ x ∧ x - a < bs.length then bs[x - a]'h.2 else m.read x
  | _, _, [], _, _ => by simp [Memory.writeBytes]
  | m, a, b :: bs, x, hm => by
    rw [Memory.writeBytes, Memory.read_writeBytes (a + 1) bs x (Memory.wf_write hm a b), Memory.read_write hm]
    by_cases hx : x = a
    · subst hx
      simp
    · by_cases hin : a + 1 ≤ x ∧ x - (a + 1) < bs.length
      · have hout : a ≤ x ∧ x - a < (b :: bs).length := by simp only [List.length_cons]; omega
        rw [dif_pos hin, dif_pos hout]
        have : x - a = x - (a + 1) + 1 := by omega
        simp [this]
      · have hout : ¬(a ≤ x ∧ x - a < (b :: bs).length) := by simp only [List.length_cons]; omega
        rw [dif_neg hin, dif_neg hout, if_neg hx]

theorem Memory.wfFrom_filter (f : Nat × Byte → Bool) :
    ∀ {lo : Nat} {m : Memory}, Memory.wfFrom lo m = true → Memory.wfFrom lo (m.filter f) = true
  | _, [], _ => rfl
  | lo, (k, v) :: m, hm => by
    rw [Memory.wfFrom_cons] at hm
    have ih := Memory.wfFrom_filter f hm.2.2
    rw [List.filter_cons]
    split
    · rw [Memory.wfFrom_cons]; exact ⟨hm.1, hm.2.1, ih⟩
    · exact Memory.wfFrom_weaken (by omega) ih

/-- An erase keeps the canonical form. -/
theorem Memory.wf_erase {m : Memory} (hm : m.wf = true) (lo n : Nat) : (m.erase lo n).wf = true :=
  Memory.wfFrom_filter _ hm

/-- An erase lists no index that was not listed. -/
theorem Memory.within_erase {m : Memory} {k : Nat} (hm : m.within k = true) (lo n : Nat) :
    (m.erase lo n).within k = true := by
  unfold Memory.within Memory.erase at *
  rw [List.all_eq_true] at *
  exact fun c hc => hm c (List.mem_of_mem_filter hc)

theorem Memory.read_erase_from (lo n x : Nat) :
    ∀ {k : Nat} {m : Memory}, Memory.wfFrom k m = true →
      (Memory.erase m lo n).read x = if lo ≤ x ∧ x < lo + n then erasedByte else Memory.read m x
  | _, [], _ => by simp [Memory.erase]
  | _, (k, v) :: m, hm => by
    rw [Memory.wfFrom_cons] at hm
    have ih := Memory.read_erase_from lo n x hm.2.2
    unfold Memory.erase at ih ⊢
    by_cases hout : k < lo ∨ lo + n ≤ k
    · rw [List.filter_cons, if_pos (by simpa using hout), Memory.read_cons, Memory.read_cons, ih]
      by_cases hk : k = x
      · subst hk; rw [if_pos rfl, if_pos rfl, if_neg (by omega)]
      · rw [if_neg hk, if_neg hk]
    · rw [List.filter_cons, if_neg (by simpa using hout), ih, Memory.read_cons]
      by_cases hk : k = x
      · subst hk; rw [if_pos (by omega), if_pos (by omega)]
      · rw [if_neg hk]

/-- A read after an erase: the erased byte in the range, the old byte outside. -/
theorem Memory.read_erase {m : Memory} (hm : m.wf = true) (lo n x : Nat) :
    (m.erase lo n).read x = if lo ≤ x ∧ x < lo + n then erasedByte else m.read x :=
  Memory.read_erase_from lo n x hm

theorem Memory.wfFrom_ofBytes : ∀ (a : Nat) (bs : List Byte), Memory.wfFrom a (Memory.ofBytes a bs) = true
  | _, [] => rfl
  | a, b :: bs => by
    have ih := Memory.wfFrom_ofBytes (a + 1) bs
    unfold Memory.ofBytes
    split
    · exact Memory.wfFrom_weaken (by omega) ih
    · rename_i hb; rw [Memory.wfFrom_cons]; exact ⟨le_rfl, hb, ih⟩

/-- The array of a byte list has the canonical form. -/
theorem Memory.wf_ofBytes (a : Nat) (bs : List Byte) : (Memory.ofBytes a bs).wf = true :=
  Memory.wfFrom_weaken (Nat.zero_le a) (Memory.wfFrom_ofBytes a bs)

/-- The array of a byte list lists nothing past the list. -/
theorem Memory.within_ofBytes : ∀ (a : Nat) (bs : List Byte), (Memory.ofBytes a bs).within (a + bs.length) = true
  | _, [] => rfl
  | a, b :: bs => by
    have ih := Memory.within_ofBytes (a + 1) bs
    have e : a + (b :: bs).length = a + 1 + bs.length := by simp only [List.length_cons]; omega
    rw [e]
    unfold Memory.ofBytes
    split
    · exact ih
    · unfold Memory.within at ih ⊢
      rw [List.all_cons, ih]
      simp only [Bool.and_true, decide_eq_true_eq]
      omega

/-- A read of the array of a byte list: the byte at its place, erased elsewhere. -/
theorem Memory.read_ofBytes :
    ∀ (a : Nat) (bs : List Byte) (x : Nat),
      (Memory.ofBytes a bs).read x = if h : a ≤ x ∧ x - a < bs.length then bs[x - a]'h.2 else erasedByte
  | _, [], _ => by simp [Memory.ofBytes]
  | a, b :: bs, x => by
    have ih := Memory.read_ofBytes (a + 1) bs x
    by_cases hx : x = a
    · subst hx
      rw [dif_pos ⟨le_rfl, by simp⟩]
      unfold Memory.ofBytes
      split
      · rename_i hb
        rw [ih, dif_neg (by omega)]
        simp [hb]
      · rw [Memory.read_cons, if_pos rfl]
        simp
    · have hread : (Memory.ofBytes a (b :: bs)).read x = (Memory.ofBytes (a + 1) bs).read x := by
        rw [Memory.ofBytes]
        split
        · rfl
        · rw [Memory.read_cons, if_neg (Ne.symm hx)]
      rw [hread, ih]
      by_cases hin : a + 1 ≤ x ∧ x - (a + 1) < bs.length
      · have hout : a ≤ x ∧ x - a < (b :: bs).length := by simp only [List.length_cons]; omega
        rw [dif_pos hin, dif_pos hout]
        have : x - a = x - (a + 1) + 1 := by omega
        simp [this]
      · have hout : ¬(a ≤ x ∧ x - a < (b :: bs).length) := by simp only [List.length_cons]; omega
        rw [dif_neg hin, dif_neg hout]

/-- An array that keeps below `n` keeps below any larger bound. -/
theorem Memory.within_of_le {m : Memory} {n k : Nat} (hm : m.within n = true) (h : n ≤ k) : m.within k = true := by
  unfold Memory.within at *
  rw [List.all_eq_true] at *
  intro c hc
  have hlt := hm c hc
  rw [decide_eq_true_eq] at hlt ⊢
  omega

end Sys2Proof.Machine
end

