-- ==== Sys2Proof/Laws/State.lean ====
section
/-!
SUPPORT. One lemma per field per update, so that no later proof unfolds a record update.
-/

namespace Sys2Proof.Machine


@[simp] theorem deliverEepBit_cart (b : Bool) (s : State) : (deliverEepBit b s).cart = s.cart := rfl
@[simp] theorem deliverEepBit_rom (b : Bool) (s : State) : (deliverEepBit b s).rom = s.rom := rfl
@[simp] theorem deliverEepBit_eep (b : Bool) (s : State) : (deliverEepBit b s).eep = eepWriteBit b s.eep := rfl
@[simp] theorem deliverEepBit_flash (b : Bool) (s : State) : (deliverEepBit b s).flash = s.flash := rfl
@[simp] theorem deliverEepBit_sram (b : Bool) (s : State) : (deliverEepBit b s).sram = s.sram := rfl
@[simp] theorem deliverEepBit_params (b : Bool) (s : State) : (deliverEepBit b s).params = s.params := rfl
@[simp] theorem deliverEepBit_input (b : Bool) (s : State) : (deliverEepBit b s).input = s.input := rfl
@[simp] theorem deliverEepBit_resp (b : Bool) (s : State) : (deliverEepBit b s).resp = .nothing := rfl
@[simp] theorem deliverEepBit_draws (b : Bool) (s : State) : (deliverEepBit b s).draws = s.draws := rfl

@[simp] theorem deliverEepRead_cart (s : State) : (deliverEepRead s).cart = s.cart := rfl
@[simp] theorem deliverEepRead_rom (s : State) : (deliverEepRead s).rom = s.rom := rfl
@[simp] theorem deliverEepRead_eep (s : State) :
    (deliverEepRead s).eep = (eepReadBit s.params s.draws s.eep).eep := rfl
@[simp] theorem deliverEepRead_flash (s : State) : (deliverEepRead s).flash = s.flash := rfl
@[simp] theorem deliverEepRead_sram (s : State) : (deliverEepRead s).sram = s.sram := rfl
@[simp] theorem deliverEepRead_params (s : State) : (deliverEepRead s).params = s.params := rfl
@[simp] theorem deliverEepRead_input (s : State) : (deliverEepRead s).input = s.input := rfl
@[simp] theorem deliverEepRead_resp (s : State) :
    (deliverEepRead s).resp = .rdata (zextBit (eepReadBit s.params s.draws s.eep).bit) := rfl
@[simp] theorem deliverEepRead_draws (s : State) :
    (deliverEepRead s).draws = (eepReadBit s.params s.draws s.eep).draws := rfl

@[simp] theorem deliverEepRead64_cart (s : State) : (deliverEepRead64 s).cart = s.cart := rfl
@[simp] theorem deliverEepRead64_rom (s : State) : (deliverEepRead64 s).rom = s.rom := rfl
@[simp] theorem deliverEepRead64_eep (s : State) :
    (deliverEepRead64 s).eep = (eepReadBits s.params (leadinCount s.params.readLeadin + 64) s.draws s.eep).2.1 := rfl
@[simp] theorem deliverEepRead64_flash (s : State) : (deliverEepRead64 s).flash = s.flash := rfl
@[simp] theorem deliverEepRead64_sram (s : State) : (deliverEepRead64 s).sram = s.sram := rfl
@[simp] theorem deliverEepRead64_params (s : State) : (deliverEepRead64 s).params = s.params := rfl
@[simp] theorem deliverEepRead64_input (s : State) : (deliverEepRead64 s).input = s.input := rfl
@[simp] theorem deliverEepRead64_resp (s : State) :
    (deliverEepRead64 s).resp = .bits (eepReadBits s.params (leadinCount s.params.readLeadin + 64) s.draws s.eep).1 := rfl
@[simp] theorem deliverEepRead64_draws (s : State) :
    (deliverEepRead64 s).draws = (eepReadBits s.params (leadinCount s.params.readLeadin + 64) s.draws s.eep).2.2 := rfl

@[simp] theorem eepPower_cart (s : State) : (eepPower s).cart = s.cart := rfl
@[simp] theorem eepPower_rom (s : State) : (eepPower s).rom = s.rom := rfl
@[simp] theorem eepPower_eep (s : State) : (eepPower s).eep = eepToIdle s.eep := rfl
@[simp] theorem eepPower_flash (s : State) : (eepPower s).flash = s.flash := rfl
@[simp] theorem eepPower_sram (s : State) : (eepPower s).sram = s.sram := rfl
@[simp] theorem eepPower_params (s : State) : (eepPower s).params = s.params := rfl
@[simp] theorem eepPower_input (s : State) : (eepPower s).input = s.input := rfl
@[simp] theorem eepPower_resp (s : State) : (eepPower s).resp = .nothing := rfl
@[simp] theorem eepPower_draws (s : State) : (eepPower s).draws = s.draws := rfl

@[simp] theorem deliverFlashByte_cart (off : BitVec 16) (v : Byte) (s : State) :
    (deliverFlashByte off v s).cart = s.cart := rfl
@[simp] theorem deliverFlashByte_rom (off : BitVec 16) (v : Byte) (s : State) :
    (deliverFlashByte off v s).rom = s.rom := rfl
@[simp] theorem deliverFlashByte_eep (off : BitVec 16) (v : Byte) (s : State) :
    (deliverFlashByte off v s).eep = s.eep := rfl
@[simp] theorem deliverFlashByte_flash (off : BitVec 16) (v : Byte) (s : State) :
    (deliverFlashByte off v s).flash = flashWriteByte off v s.flash := rfl
@[simp] theorem deliverFlashByte_sram (off : BitVec 16) (v : Byte) (s : State) :
    (deliverFlashByte off v s).sram = s.sram := rfl
@[simp] theorem deliverFlashByte_params (off : BitVec 16) (v : Byte) (s : State) :
    (deliverFlashByte off v s).params = s.params := rfl
@[simp] theorem deliverFlashByte_input (off : BitVec 16) (v : Byte) (s : State) :
    (deliverFlashByte off v s).input = s.input := rfl
@[simp] theorem deliverFlashByte_resp (off : BitVec 16) (v : Byte) (s : State) :
    (deliverFlashByte off v s).resp = .nothing := rfl
@[simp] theorem deliverFlashByte_draws (off : BitVec 16) (v : Byte) (s : State) :
    (deliverFlashByte off v s).draws = s.draws := rfl

@[simp] theorem deliverFlashRead_cart (n : Nat) (off : BitVec 16) (s : State) :
    (deliverFlashRead n off s).cart = s.cart := rfl
@[simp] theorem deliverFlashRead_rom (n : Nat) (off : BitVec 16) (s : State) :
    (deliverFlashRead n off s).rom = s.rom := rfl
@[simp] theorem deliverFlashRead_eep (n : Nat) (off : BitVec 16) (s : State) :
    (deliverFlashRead n off s).eep = s.eep := rfl
@[simp] theorem deliverFlashRead_flash (n : Nat) (off : BitVec 16) (s : State) :
    (deliverFlashRead n off s).flash = s.flash := rfl
@[simp] theorem deliverFlashRead_sram (n : Nat) (off : BitVec 16) (s : State) :
    (deliverFlashRead n off s).sram = s.sram := rfl
@[simp] theorem deliverFlashRead_params (n : Nat) (off : BitVec 16) (s : State) :
    (deliverFlashRead n off s).params = s.params := rfl
@[simp] theorem deliverFlashRead_input (n : Nat) (off : BitVec 16) (s : State) :
    (deliverFlashRead n off s).input = s.input := rfl
@[simp] theorem deliverFlashRead_resp (n : Nat) (off : BitVec 16) (s : State) :
    (deliverFlashRead n off s).resp = .rdata (leWord (flashReadBytes s.flash n off s.draws).1) := rfl
@[simp] theorem deliverFlashRead_draws (n : Nat) (off : BitVec 16) (s : State) :
    (deliverFlashRead n off s).draws = (flashReadBytes s.flash n off s.draws).2 := rfl

@[simp] theorem flashPower_cart (s : State) : (flashPower s).cart = s.cart := rfl
@[simp] theorem flashPower_rom (s : State) : (flashPower s).rom = s.rom := rfl
@[simp] theorem flashPower_eep (s : State) : (flashPower s).eep = s.eep := rfl
@[simp] theorem flashPower_flash (s : State) : (flashPower s).flash = flashToIdle s.flash := rfl
@[simp] theorem flashPower_sram (s : State) : (flashPower s).sram = s.sram := rfl
@[simp] theorem flashPower_params (s : State) : (flashPower s).params = s.params := rfl
@[simp] theorem flashPower_input (s : State) : (flashPower s).input = s.input := rfl
@[simp] theorem flashPower_resp (s : State) : (flashPower s).resp = .nothing := rfl
@[simp] theorem flashPower_draws (s : State) : (flashPower s).draws = s.draws := rfl

@[simp] theorem raiseConfigurationError_cart (code : ConfigError) (s : State) :
    (raiseConfigurationError code s).cart = { loaded := false, kind := s.cart.kind } := rfl
@[simp] theorem raiseConfigurationError_rom (code : ConfigError) (s : State) :
    (raiseConfigurationError code s).rom = s.rom := rfl
@[simp] theorem raiseConfigurationError_eep (code : ConfigError) (s : State) :
    (raiseConfigurationError code s).eep = s.eep := rfl
@[simp] theorem raiseConfigurationError_flash (code : ConfigError) (s : State) :
    (raiseConfigurationError code s).flash = s.flash := rfl
@[simp] theorem raiseConfigurationError_sram (code : ConfigError) (s : State) :
    (raiseConfigurationError code s).sram = s.sram := rfl
@[simp] theorem raiseConfigurationError_params (code : ConfigError) (s : State) :
    (raiseConfigurationError code s).params = s.params := rfl
@[simp] theorem raiseConfigurationError_input (code : ConfigError) (s : State) :
    (raiseConfigurationError code s).input = s.input := rfl
@[simp] theorem raiseConfigurationError_resp (code : ConfigError) (s : State) :
    (raiseConfigurationError code s).resp = .configurationError code := rfl
@[simp] theorem raiseConfigurationError_draws (code : ConfigError) (s : State) :
    (raiseConfigurationError code s).draws = s.draws := rfl

@[simp] theorem eepToIdle_size (e : Eep) : (eepToIdle e).size = e.size := rfl
@[simp] theorem eepToIdle_bits (e : Eep) : (eepToIdle e).bits = e.bits := rfl
@[simp] theorem eepToIdle_winMask (e : Eep) : (eepToIdle e).winMask = e.winMask := rfl
@[simp] theorem eepToIdle_winMatch (e : Eep) : (eepToIdle e).winMatch = e.winMatch := rfl
@[simp] theorem eepToIdle_phase (e : Eep) : (eepToIdle e).phase = .idle := rfl
@[simp] theorem eepToIdle_op (e : Eep) : (eepToIdle e).op = .read := rfl
@[simp] theorem eepToIdle_count (e : Eep) : (eepToIdle e).count = 0 := rfl
@[simp] theorem eepToIdle_addr (e : Eep) : (eepToIdle e).addr = 0 := rfl
@[simp] theorem eepToIdle_buf (e : Eep) : (eepToIdle e).buf = 0 := rfl
@[simp] theorem eepToIdle_stream (e : Eep) : (eepToIdle e).stream = [] := rfl
@[simp] theorem eepToIdle_content (e : Eep) : (eepToIdle e).content = e.content := rfl

@[simp] theorem eepCommit_size (e : Eep) : (eepCommit e).size = e.size := rfl
@[simp] theorem eepCommit_bits (e : Eep) : (eepCommit e).bits = e.bits := rfl
@[simp] theorem eepCommit_winMask (e : Eep) : (eepCommit e).winMask = e.winMask := rfl
@[simp] theorem eepCommit_winMatch (e : Eep) : (eepCommit e).winMatch = e.winMatch := rfl
@[simp] theorem eepCommit_phase (e : Eep) : (eepCommit e).phase = e.phase := rfl
@[simp] theorem eepCommit_op (e : Eep) : (eepCommit e).op = e.op := rfl
@[simp] theorem eepCommit_count (e : Eep) : (eepCommit e).count = e.count := rfl
@[simp] theorem eepCommit_addr (e : Eep) : (eepCommit e).addr = e.addr := rfl
@[simp] theorem eepCommit_buf (e : Eep) : (eepCommit e).buf = e.buf := rfl
@[simp] theorem eepCommit_stream (e : Eep) : (eepCommit e).stream = e.stream := rfl
@[simp] theorem eepCommit_content (e : Eep) : (eepCommit e).content = e.content.writeBytes (eepBase e) (blockBytes e.buf) := rfl

@[simp] theorem flashToIdle_size (f : Flash) : (flashToIdle f).size = f.size := rfl
@[simp] theorem flashToIdle_id (f : Flash) : (flashToIdle f).id = f.id := rfl
@[simp] theorem flashToIdle_phase (f : Flash) : (flashToIdle f).phase = .idle := rfl
@[simp] theorem flashToIdle_bank (f : Flash) : (flashToIdle f).bank = f.bank := rfl
@[simp] theorem flashToIdle_content (f : Flash) : (flashToIdle f).content = f.content := rfl

end Sys2Proof.Machine
end

