-- ==== Sys2Proof/Laws/Engines.lean ====
section
/-!
SUPPORT. What each shared operation can do, said once: when a row is answered, what an engine event leaves unchanged, where
content can change, and that the engines keep their invariants.
-/

namespace Sys2Proof.Machine

/-! ## When a row is answered -/

theorem onEngine_eq_next {k : Kind} {s t u : State} :
    onEngine k s t = .next u ↔ s.cart.loaded = true ∧ s.cart.kind = k ∧ u = t := by
  unfold onEngine
  split
  · rename_i h; simp [h]
  · rename_i h
    split
    · rename_i hk
      have hl : s.cart.loaded = true := by simpa using h
      exact ⟨fun e => ⟨hl, hk, by cases e; rfl⟩, fun e => by rw [e.2.2]⟩
    · rename_i hk; simp [hk]

theorem onEngine_next {k : Kind} {s t : State} (hl : s.cart.loaded = true) (hk : s.cart.kind = k) :
    onEngine k s t = .next t := onEngine_eq_next.2 ⟨hl, hk, rfl⟩

theorem requireLoaded_eq_next {s t u : State} : requireLoaded s t = .next u ↔ s.cart.loaded = true ∧ u = t := by
  unfold requireLoaded
  split
  · rename_i h; simp [h, eq_comm]
  · rename_i h; simp [h]

theorem requireLoaded_next {s t : State} (hl : s.cart.loaded = true) : requireLoaded s t = .next t :=
  requireLoaded_eq_next.2 ⟨hl, rfl⟩

/-! ## One serial write bit -/

/-- A serial write bit changes no configuration field. -/
theorem eepWriteBit_config (b : Bool) (e : Eep) :
    (eepWriteBit b e).size = e.size ∧ (eepWriteBit b e).bits = e.bits ∧ (eepWriteBit b e).winMask = e.winMask ∧
      (eepWriteBit b e).winMatch = e.winMatch := by
  unfold eepWriteBit
  split
  · unfold eepStartArm; split <;> simp
  · simp [eepRequestArm]
  · split
    · unfold eepAddrArm eepLatch; dsimp only; split
      · split <;> simp
      · simp
    · unfold eepStreamArm; split <;> simp
  · simp [eepReadStopArm]
  · unfold eepAbortArm eepStartArm; split <;> simp
  · unfold eepDataArm; dsimp only; split <;> simp
  · simp [eepWriteStopArm]

/-- A serial write bit changes content only as the 64th data bit, by the commit (R117). -/
theorem eepWriteBit_content (b : Bool) (e : Eep) :
    (eepWriteBit b e).content = e.content ∨
      (e.phase = .writeData ∧ e.count = 63 ∧
        (eepWriteBit b e).content = e.content.writeBytes (eepBase e) (blockBytes (shiftIn e.buf b))) := by
  unfold eepWriteBit
  split
  · left; unfold eepStartArm; split <;> rfl
  · left; rfl
  · left
    split
    · unfold eepAddrArm eepLatch; dsimp only; split
      · split <;> rfl
      · rfl
    · unfold eepStreamArm; split <;> rfl
  · left; rfl
  · left; unfold eepAbortArm eepStartArm; split <;> rfl
  · rename_i hp
    unfold eepDataArm; dsimp only
    split
    · right; exact ⟨hp, by omega, rfl⟩
    · left; rfl
  · left; rfl

/-- An 8-byte block selected modulo the block count lies inside the array (R50). -/
theorem eepBase_add_eight_le {e : Eep} (h8 : e.size % 8 = 0) (hs : 8 ≤ e.size) : eepBase e + 8 ≤ e.size := by
  unfold eepBase
  have hlt : e.addr.toNat % (e.size / 8) < e.size / 8 := Nat.mod_lt _ (by omega)
  omega

theorem blockBytes_length (d : BitVec 64) : (blockBytes d).length = 8 := rfl

/-- The commit keeps the canonical form and the extent of the content. -/
theorem eepCommit_content_ok {e : Eep} (h8 : e.size % 8 = 0) (hs : 8 ≤ e.size) (hw : e.content.wf = true)
    (hin : e.content.within e.size = true) :
    (eepCommit e).content.wf = true ∧ (eepCommit e).content.within e.size = true :=
  ⟨Memory.wf_writeBytes _ _ hw,
    Memory.within_writeBytes _ _ (by rw [blockBytes_length]; exact eepBase_add_eight_le h8 hs) hin⟩

/-- The canonical idle state has the engine's invariant, whatever state it is entered from. -/
theorem eepToIdle_inv {p : Params} {e : Eep} (hw : e.content.wf = true) (hin : e.content.within e.size = true) :
    EepInv p (eepToIdle e) :=
  { stream_unresolved := fun h => absurd rfl h
    stream_cap := Nat.zero_le _
    count_ok := rfl
    idle_canonical := fun _ => rfl
    content_wf := hw
    content_within := hin }

/-- Outside `Address` the stream is empty (R33). -/
theorem EepInv.stream_nil {p : Params} {e : Eep} (h : EepInv p e) (hp : e.phase ≠ .address) : e.stream = [] := by
  by_contra hs
  exact hp (h.stream_unresolved hs).2

theorem eepStartArm_inv {p : Params} {e : Eep} (h : EepInv p e) (hp : e.phase = .idle) (b : Bool) :
    EepInv p (eepStartArm b e) := by
  have hs : e.stream = [] := h.stream_nil (by rw [hp]; decide)
  have hc : e.count = 0 := by simpa [eepCountOk, hp] using h.count_ok
  unfold eepStartArm
  split
  · exact { stream_unresolved := fun hne => absurd hs hne, stream_cap := h.stream_cap, count_ok := by simp [eepCountOk, hc],
            idle_canonical := by simp, content_wf := h.content_wf, content_within := h.content_within }
  · exact h

/-- A serial write bit keeps the invariant of the engine (R33). -/
theorem eepWriteBit_inv {p : Params} {e : Eep} (h : EepInv p e) (h8 : e.size % 8 = 0) (hs : 8 ≤ e.size) (b : Bool) :
    EepInv p (eepWriteBit b e) := by
  have idle := eepToIdle_inv (p := p) h.content_wf h.content_within
  unfold eepWriteBit
  split
  · rename_i hp; exact eepStartArm_inv h hp b
  · exact { stream_unresolved := fun hne => absurd rfl hne, stream_cap := Nat.zero_le _,
            count_ok := by simp only [eepRequestArm, eepCountOk]; split
                           · rename_i w _; cases w <;> rfl
                           · rfl
            idle_canonical := by simp [eepRequestArm], content_wf := h.content_wf, content_within := h.content_within }
  · rename_i hp
    split
    · rename_i w hbits
      have hst : e.stream = [] := by
        by_contra hne
        rw [(h.stream_unresolved hne).1] at hbits
        cases hbits
      have hcount : e.count < addrBits w := by simpa [eepCountOk, hp, hbits] using h.count_ok
      unfold eepAddrArm eepLatch
      dsimp only
      split
      · split
        · exact { stream_unresolved := fun hne => absurd hst hne, stream_cap := h.stream_cap, count_ok := rfl,
                  idle_canonical := by simp, content_wf := h.content_wf, content_within := h.content_within }
        · exact { stream_unresolved := fun hne => absurd hst hne, stream_cap := h.stream_cap, count_ok := rfl,
                  idle_canonical := by simp, content_wf := h.content_wf, content_within := h.content_within }
      · exact { stream_unresolved := fun hne => absurd hst hne, stream_cap := h.stream_cap,
                count_ok := by simp only [eepCountOk, hp, hbits, decide_eq_true_eq]; omega
                idle_canonical := by simp [hp], content_wf := h.content_wf, content_within := h.content_within }
    · rename_i hbits
      unfold eepStreamArm
      split
      · exact idle
      · rename_i hlen
        have hcap := h.stream_cap
        exact { stream_unresolved := fun _ => ⟨hbits, hp⟩
                stream_cap := by simp only [List.length_append, List.length_singleton]; omega
                count_ok := by simpa [eepCountOk, hp, hbits] using h.count_ok
                idle_canonical := by simp [hp], content_wf := h.content_wf, content_within := h.content_within }
  · rename_i hp
    have hst := h.stream_nil (by rw [hp]; decide)
    exact { stream_unresolved := fun hne => absurd hst hne, stream_cap := h.stream_cap,
            count_ok := by simp [eepReadStopArm, eepCountOk]
            idle_canonical := by simp [eepReadStopArm], content_wf := h.content_wf, content_within := h.content_within }
  · exact eepStartArm_inv idle rfl b
  · rename_i hp
    have hst := h.stream_nil (by rw [hp]; decide)
    have hcount : e.count < 64 := by simpa [eepCountOk, hp] using h.count_ok
    unfold eepDataArm
    dsimp only
    split
    · have hok := eepCommit_content_ok (e := { e with buf := shiftIn e.buf b, count := e.count + 1 }) h8 hs
        h.content_wf h.content_within
      exact { stream_unresolved := fun hne => absurd hst hne, stream_cap := h.stream_cap, count_ok := rfl,
              idle_canonical := by simp, content_wf := hok.1, content_within := hok.2 }
    · exact { stream_unresolved := fun hne => absurd hst hne, stream_cap := h.stream_cap,
              count_ok := by simp only [eepCountOk, hp, decide_eq_true_eq]; omega
              idle_canonical := by simp [hp], content_wf := h.content_wf, content_within := h.content_within }
  · exact idle

/-! ## One serial read -/

/-- A read of the data sequence changes only the count, or returns to the canonical idle state. -/
theorem eepReadDataArm_eep (p : Params) (draws : Nat) (e : Eep) :
    (eepReadDataArm p draws e).eep = { e with count := e.count + 1 } ∨
      ((eepReadDataArm p draws e).eep = eepToIdle e ∧ e.count + 1 = leadinCount p.readLeadin + 64) := by
  unfold eepReadDataArm
  dsimp only
  split
  · rename_i h; exact .inr ⟨rfl, h⟩
  · exact .inl rfl

/-- A read of the data sequence keeps the invariant of the engine. -/
theorem eepReadDataArm_inv {p : Params} {e : Eep} (h : EepInv p e) (hp : e.phase = .readData) (draws : Nat) :
    EepInv p (eepReadDataArm p draws e).eep := by
  have hst := h.stream_nil (by rw [hp]; decide)
  have hcount : e.count < leadinCount p.readLeadin + 64 := by simpa [eepCountOk, hp] using h.count_ok
  rcases eepReadDataArm_eep p draws e with heq | ⟨heq, -⟩
  · by_cases hlast : e.count + 1 = leadinCount p.readLeadin + 64
    · have : (eepReadDataArm p draws e).eep = eepToIdle e := by
        unfold eepReadDataArm; dsimp only; rw [if_pos hlast]; rfl
      rw [this]; exact eepToIdle_inv h.content_wf h.content_within
    · rw [heq]
      exact { stream_unresolved := fun hne => absurd hst hne, stream_cap := h.stream_cap,
              count_ok := by simp only [eepCountOk, hp, decide_eq_true_eq]; omega
              idle_canonical := by simp [hp], content_wf := h.content_wf, content_within := h.content_within }
  · rw [heq]; exact eepToIdle_inv h.content_wf h.content_within

/-- A serial read changes no configuration field, but that an unresolved width may be found (R25). -/
theorem eepReadBit_config (p : Params) (draws : Nat) (e : Eep) :
    (eepReadBit p draws e).eep.size = e.size ∧ (eepReadBit p draws e).eep.winMask = e.winMask ∧
      (eepReadBit p draws e).eep.winMatch = e.winMatch ∧
      ((eepReadBit p draws e).eep.bits = e.bits ∨ e.bits = none) := by
  have data : ∀ (n : Nat) (e' : Eep), (eepReadDataArm p n e').eep.size = e'.size ∧
      (eepReadDataArm p n e').eep.winMask = e'.winMask ∧ (eepReadDataArm p n e').eep.winMatch = e'.winMatch ∧
      (eepReadDataArm p n e').eep.bits = e'.bits := by
    intro n e'
    rcases eepReadDataArm_eep p n e' with h | ⟨h, -⟩ <;> rw [h] <;> simp
  unfold eepReadBit
  split
  · exact ⟨(data _ _).1, (data _ _).2.1, (data _ _).2.2.1, .inl (data _ _).2.2.2⟩
  · split
    · exact ⟨rfl, rfl, rfl, .inl rfl⟩
    · rename_i hb
      unfold eepDetectArm
      split
      · exact ⟨rfl, rfl, rfl, .inl rfl⟩
      · split
        · unfold eepDetectRead
          dsimp only
          exact ⟨(data _ _).1, (data _ _).2.1, (data _ _).2.2.1, .inr hb⟩
        · exact ⟨rfl, rfl, rfl, .inr hb⟩
  all_goals exact ⟨rfl, rfl, rfl, .inl rfl⟩

/-- A serial read changes content only where it detects the width of a write request (R117). -/
theorem eepReadBit_content (p : Params) (draws : Nat) (e : Eep) :
    (eepReadBit p draws e).eep.content = e.content ∨
      (e.phase = .address ∧ e.bits = none ∧ e.op = .write ∧
        widthDetect p.widthDetect (eepDetectCount e) ≠ none) := by
  have data : ∀ (n : Nat) (e' : Eep), (eepReadDataArm p n e').eep.content = e'.content := by
    intro n e'
    rcases eepReadDataArm_eep p n e' with h | ⟨h, -⟩
    · rw [h]
    · rw [h, eepToIdle_content]
  unfold eepReadBit
  split
  · exact .inl (data _ _)
  · rename_i hp
    split
    · exact .inl rfl
    · rename_i hb
      unfold eepDetectArm
      split
      · exact .inl rfl
      · rename_i w hw
        split
        · exact .inl (data _ _)
        · rename_i ho
          exact .inr ⟨hp, hb, ho, by rw [hw]; simp⟩
  all_goals exact .inl rfl

/-- A serial read keeps the invariant of the engine (R33). -/
theorem eepReadBit_inv {p : Params} {e : Eep} (h : EepInv p e) (h8 : e.size % 8 = 0) (hs : 8 ≤ e.size) (draws : Nat) :
    EepInv p (eepReadBit p draws e).eep := by
  unfold eepReadBit
  split
  · rename_i hp; exact eepReadDataArm_inv h hp draws
  · split
    · exact h
    · unfold eepDetectArm
      split
      · exact eepToIdle_inv h.content_wf h.content_within
      · split
        · refine eepReadDataArm_inv (e := _) ?_ rfl _
          exact { stream_unresolved := fun hne => absurd rfl hne, stream_cap := Nat.zero_le _,
                  count_ok := by simp [eepCountOk], idle_canonical := by simp, content_wf := h.content_wf,
                  content_within := h.content_within }
        · unfold eepDetectWrite
          dsimp only
          refine eepToIdle_inv ?_ ?_
          · exact Memory.wf_writeBytes _ _ h.content_wf
          · exact Memory.within_writeBytes _ _
              (by rw [blockBytes_length]; exact eepBase_add_eight_le (e := { e with addr := _ }) h8 hs) h.content_within
  all_goals exact h

/-! ## One FlashROM byte write -/

/-- A FlashROM byte write changes no configuration field. -/
theorem flashWriteByte_config (off : BitVec 16) (v : Byte) (f : Flash) :
    (flashWriteByte off v f).size = f.size ∧ (flashWriteByte off v f).id = f.id := by
  unfold flashWriteByte flashUnlock1Arm flashUnlock2Arm flashBankSetupArm flashIdModeWriteArm flashUnlock1Arm
    flashEraseUnlock1Arm flashEraseUnlock2Arm flashBankSelectArm
  repeat' split
  all_goals exact ⟨rfl, rfl⟩

/-- A FlashROM byte write changes content only in `EraseUnlock2` and `WriteMode` (R158). -/
theorem flashWriteByte_content (off : BitVec 16) (v : Byte) (f : Flash) :
    (flashWriteByte off v f).content = f.content ∨ f.phase = .eraseUnlock2 ∨ f.phase = .writeMode := by
  unfold flashWriteByte flashUnlock1Arm flashUnlock2Arm flashBankSetupArm flashIdModeWriteArm flashUnlock1Arm
    flashEraseUnlock1Arm flashEraseUnlock2Arm flashBankSelectArm
  split
  all_goals first
    | (rename_i hp; exact .inr (.inl hp))
    | (rename_i hp; exact .inr (.inr hp))
    | (left; repeat' split) 
  all_goals rfl

/-- A FlashROM byte write changes the bank only in `BankSwitch` (R158). -/
theorem flashWriteByte_bank (off : BitVec 16) (v : Byte) (f : Flash) :
    (flashWriteByte off v f).bank = f.bank ∨ f.phase = .bankSwitch := by
  unfold flashWriteByte flashUnlock1Arm flashUnlock2Arm flashBankSetupArm flashIdModeWriteArm flashUnlock1Arm
    flashEraseUnlock1Arm flashEraseUnlock2Arm
  split
  all_goals first
    | (rename_i hp; exact .inr hp)
    | (left; repeat' split)
  all_goals rfl

/-- The bank-adjusted index lies inside the part (R49). -/
theorem flashIdx_lt {f : Flash} (h : FlashInv f) (hsize : f.size = flashBankSize ∨ f.size = flashMax) (off : BitVec 16) :
    flashIdx f off < f.size := by
  have hoff := off.isLt
  have hbank := f.bank.isLt
  unfold flashIdx flashBankSize
  rcases hsize with hs | hs
  · rw [h.one_bank hs, hs, flashBankSize]; simp; omega
  · rw [hs, flashMax]; omega

/-- Leaving for a phase other than `BankSwitch` with the same content and bank keeps the invariant of the engine. -/
theorem FlashInv.with_phase {f : Flash} (h : FlashInv f) {p : FlashPhase} (hp : p = .bankSwitch → f.size = flashMax) :
    FlashInv { f with phase := p } :=
  { one_bank := h.one_bank, bank_switch := hp, content_wf := h.content_wf, content_within := h.content_within }

/-- A FlashROM byte write keeps the invariant of the engine (R33). -/
theorem flashWriteByte_inv {f : Flash} (h : FlashInv f) (hsize : f.size = flashBankSize ∨ f.size = flashMax)
    (off : BitVec 16) (v : Byte) : FlashInv (flashWriteByte off v f) := by
  have go : ∀ p : FlashPhase, p ≠ .bankSwitch → FlashInv { f with phase := p } :=
    fun p hp => h.with_phase fun hb => absurd hb hp
  have unlock1 : FlashInv (flashUnlock1Arm off v f) := by
    unfold flashUnlock1Arm; split
    · exact go _ (by decide)
    · exact go _ (by decide)
  unfold flashWriteByte
  split
  · exact unlock1
  · unfold flashUnlock2Arm; split
    · exact go _ (by decide)
    · exact go _ (by decide)
  · split
    · exact go _ (by decide)
    split
    · exact go _ (by decide)
    split
    · exact go _ (by decide)
    split
    · exact go _ (by decide)
    split
    · unfold flashBankSetupArm; split
      · rename_i hs; exact h.with_phase fun _ => hs
      · exact go _ (by decide)
    · exact go _ (by decide)
  · unfold flashIdModeWriteArm flashUnlock1Arm; split
    · exact go _ (by decide)
    · exact go _ (by decide)
  · unfold flashEraseUnlock1Arm; split
    · exact go _ (by decide)
    · exact go _ (by decide)
  · unfold flashEraseUnlock2Arm; split
    · exact go _ (by decide)
    · exact go _ (by decide)
  · split
    · exact { one_bank := h.one_bank, bank_switch := by simp [flashChipEraseArm]
              content_wf := Memory.wf_erase h.content_wf _ _, content_within := Memory.within_erase h.content_within _ _ }
    split
    · exact { one_bank := h.one_bank, bank_switch := by simp [flashSectorEraseArm]
              content_wf := Memory.wf_erase h.content_wf _ _, content_within := Memory.within_erase h.content_within _ _ }
    · exact go _ (by decide)
  · exact { one_bank := h.one_bank, bank_switch := by simp [flashProgramArm]
            content_wf := Memory.wf_write h.content_wf _ _
            content_within := Memory.within_write _ (flashIdx_lt h hsize off) h.content_within }
  · rename_i hp
    have hmax := h.bank_switch hp
    unfold flashBankSelectArm; split
    · exact { one_bank := fun hb => by
                simp only [flashToIdle_size] at hb
                rw [hmax] at hb; exact absurd hb (by decide)
              bank_switch := by simp, content_wf := h.content_wf, content_within := h.content_within }
    · exact go _ (by decide)

end Sys2Proof.Machine
end

