-- ==== Sys2Proof/Laws/Exec.lean ====
section
/-!
SUPPORT. What a row other than LOAD can do, said once: one of the effects below. Whole-machine rules are case splits on it.
-/

namespace Sys2Proof.Machine

/-- The next states a row other than LOAD can answer. -/
inductive Effect (s : State) : State → Prop where
  /-- Nothing but a response: a read of ROM, StaticRAM or open bus, a discarded write, a power event with no engine. -/
  | respond (r : Response) : Effect s { s with resp := r }
  /-- UNLOAD. -/
  | unload : Effect s { s with cart := { s.cart with loaded := false }, resp := .nothing }
  /-- A write that reaches the StaticRAM. -/
  | sramWrite (A : Word) (bytes : List Byte) (hl : s.cart.loaded = true) (hk : s.cart.kind = .staticRAM) :
      Effect s { s with sram := sramWriteFrom A 0 bytes s.sram, resp := .nothing }
  /-- One serial write bit. -/
  | eepBit (b : Bool) (ha : s.EepromActive) : Effect s (deliverEepBit b s)
  /-- One serial read. -/
  | eepRead (ha : s.EepromActive) : Effect s (deliverEepRead s)
  /-- A frame. -/
  | eepFrame (bits : List Bool) (ha : s.EepromActive) : Effect s (deliverEepBits bits s)
  /-- A frame and one read. -/
  | eepFrameRead (bits : List Bool) (ha : s.EepromActive) : Effect s (deliverEepRead (deliverEepBits bits s))
  /-- The read-data sequence. -/
  | eepRead64 (ha : s.EepromActive) : Effect s (deliverEepRead64 s)
  /-- Power with the EEPROM active. -/
  | eepPower (ha : s.EepromActive) : Effect s (eepPower s)
  /-- One FlashROM byte write. -/
  | flashByte (off : BitVec 16) (v : Byte) (ha : s.FlashActive) : Effect s (deliverFlashByte off v s)
  /-- A FlashROM read. -/
  | flashRead (n : Nat) (off : BitVec 16) (ha : s.FlashActive) : Effect s (deliverFlashRead n off s)
  /-- Power with the FlashROM active. -/
  | flashPower (ha : s.FlashActive) : Effect s (flashPower s)

theorem classify_staticRAM {s : State} {a : Word} (h : classify s a = .staticRAM) : s.cart.kind = .staticRAM := by
  unfold classify at h
  repeat' split at h
  all_goals simp_all

theorem classify_serialEEPROM {s : State} {a : Word} (h : classify s a = .serialEEPROM) :
    s.cart.kind = .serialEEPROM := by
  unfold classify at h
  repeat' split at h
  all_goals simp_all

theorem classify_flashROM {s : State} {a : Word} (h : classify s a = .flashROM) : s.cart.kind = .flashROM := by
  unfold classify at h
  repeat' split at h
  all_goals simp_all

/-- What a read of a loaded cartridge can do. -/
theorem memRead_effect {s : State} (hl : s.cart.loaded = true) (w : AccessWidth) (a openBus : Word) :
    Effect s (memRead w a openBus s) := by
  unfold memRead
  dsimp only
  split
  · exact .respond _
  · rename_i h; exact .eepRead ⟨hl, classify_serialEEPROM h⟩
  · rename_i h; exact .flashRead _ _ ⟨hl, classify_flashROM h⟩
  · exact .respond _
  · exact .respond _

/-- What a write to a loaded cartridge can do. -/
theorem memWrite_effect {s : State} (hl : s.cart.loaded = true) (w : AccessWidth) (a v : Word) :
    Effect s (memWrite w a v s) := by
  unfold memWrite
  dsimp only
  split
  · rename_i h; exact .sramWrite _ _ hl (classify_staticRAM h)
  · rename_i h; exact .eepBit _ ⟨hl, classify_serialEEPROM h⟩
  · rename_i h; exact .flashByte _ _ ⟨hl, classify_flashROM h⟩
  · exact .respond _
  · exact .respond _

theorem activeKind_eq {s : State} {k : Kind} (hk : k ≠ .none) (h : activeKind s = k) :
    s.cart.loaded = true ∧ s.cart.kind = k := by
  unfold activeKind at h
  split at h
  · rename_i hl; exact ⟨hl, h⟩
  · exact absurd h.symm hk

/-- What a power event can do. -/
theorem powerActive_effect (s : State) : Effect s (powerActive s) := by
  unfold powerActive
  split
  · rename_i h; exact .eepPower (activeKind_eq (by decide) h)
  · rename_i h; exact .flashPower (activeKind_eq (by decide) h)
  · exact .respond _
  · exact .respond _

/-- What a row other than LOAD can do. -/
theorem exec_effect {i : Instr} {s s' : State} (hi : isLoad i = false) (h : exec i s = .next s') : Effect s s' := by
  have bus : ∀ {t : State}, (s.cart.loaded = true → Effect s t) → requireLoaded s t = .next s' → Effect s s' := by
    intro t ht hr
    obtain ⟨hl, rfl⟩ := requireLoaded_eq_next.1 hr
    exact ht hl
  have eng : ∀ {k : Kind} {t : State}, (s.cart.loaded = true ∧ s.cart.kind = k → Effect s t) →
      onEngine k s t = .next s' → Effect s s' := by
    intro k t ht hr
    obtain ⟨hl, hk, rfl⟩ := onEngine_eq_next.1 hr
    exact ht ⟨hl, hk⟩
  have pow : Host.Outcome.next (φ := Fault) (ρ := Refusal) (powerActive s) = .next s' → Effect s s' := by
    intro hr; cases hr; exact powerActive_effect s
  cases i
  case load d => cases hi
  case readB | readH | readW => exact bus (fun hl => memRead_effect hl _ _ _) h
  case writeB | writeH | writeW => exact bus (fun hl => memWrite_effect hl _ _ _) h
  case power | eepPower | flPower => exact pow h
  case unload => cases h; exact .unload
  case eepReadBit | eepReadDetect | eepReadIdle => exact eng .eepRead h
  case eepReadFrame6 | eepReadFrame14 | eepWriteFrame6 | eepWriteFrame14 => exact eng (.eepFrame _) h
  case eepRead64 => exact eng .eepRead64 h
  case eepFrameUnresolved => exact eng (.eepFrameRead _) h
  case flRead => exact eng (.flashRead _ _) h
  case eepStart | eepReqRead | eepReqWrite | eepAddrBit | eepStreamBit | eepDataBit | eepReadStop | eepWriteStop
    | eepAbortRead => exact eng (.eepBit _) h
  all_goals exact eng (.flashByte _ _) h

end Sys2Proof.Machine
end

