-- ==== Sys2Proof/Laws/Sequences.lean ====
section
/-!
SUPPORT. What a sequence of serial events, a StaticRAM write, a preseed and any row but LOAD can do.
-/

namespace Sys2Proof.Machine

/-- Write bits change only the EEPROM engine and the response, and no configuration. -/
theorem deliverEepBits_config : ∀ (bs : List Bool) (s : State),
    (deliverEepBits bs s).cart = s.cart ∧ (deliverEepBits bs s).rom = s.rom ∧ (deliverEepBits bs s).flash = s.flash ∧
    (deliverEepBits bs s).sram = s.sram ∧ (deliverEepBits bs s).params = s.params ∧
    (deliverEepBits bs s).input = s.input ∧ (deliverEepBits bs s).draws = s.draws ∧
    (deliverEepBits bs s).eep.size = s.eep.size ∧ (deliverEepBits bs s).eep.bits = s.eep.bits ∧
    (deliverEepBits bs s).eep.winMask = s.eep.winMask ∧ (deliverEepBits bs s).eep.winMatch = s.eep.winMatch
  | [], s => by simp [deliverEepBits]
  | b :: bs, s => by
    simpa [deliverEepBits, eepWriteBit_config b s.eep] using deliverEepBits_config bs (deliverEepBit b s)

theorem deliverEepBits_append : ∀ (as bs : List Bool) (s : State),
    deliverEepBits (as ++ bs) s = deliverEepBits bs (deliverEepBits as s)
  | [], _, _ => rfl
  | a :: as, bs, s => deliverEepBits_append as bs (deliverEepBit a s)

/-- Write bits keep the engine's invariant. -/
theorem deliverEepBits_inv : ∀ (bs : List Bool) (s : State), EepInv s.params s.eep → s.eep.size % 8 = 0 →
    8 ≤ s.eep.size → EepInv s.params (deliverEepBits bs s).eep
  | [], _, h, _, _ => h
  | b :: bs, s, h, h8, hs =>
    deliverEepBits_inv bs (deliverEepBit b s) (eepWriteBit_inv h h8 hs b)
      (by simpa [eepWriteBit_config b s.eep] using h8) (by simpa [eepWriteBit_config b s.eep] using hs)

/-- Reads keep the configuration; an unresolved width may be resolved. -/
theorem eepReadBits_config (p : Params) : ∀ (n d : Nat) (e : Eep),
    (eepReadBits p n d e).2.1.size = e.size ∧
    (eepReadBits p n d e).2.1.winMask = e.winMask ∧ (eepReadBits p n d e).2.1.winMatch = e.winMatch ∧
    ((eepReadBits p n d e).2.1.bits = e.bits ∨ e.bits = none)
  | 0, d, e => by simp [eepReadBits]
  | n + 1, d, e => by
    obtain ⟨i1, i2, i3, i4⟩ := eepReadBits_config p n (eepReadBit p d e).draws (eepReadBit p d e).eep
    obtain ⟨c1, c2, c3, c4⟩ := eepReadBit_config p d e
    refine ⟨i1.trans c1, i2.trans c2, i3.trans c3, ?_⟩
    rcases c4 with h | h
    · exact i4.imp (·.trans h) (h ▸ ·)
    · exact .inr h

/-- Reads keep the engine's invariant. -/
theorem eepReadBits_inv (p : Params) : ∀ (n d : Nat) (e : Eep), EepInv p e → e.size % 8 = 0 → 8 ≤ e.size →
    EepInv p (eepReadBits p n d e).2.1
  | 0, _, _, h, _, _ => h
  | n + 1, d, e, h, h8, hs =>
    eepReadBits_inv p n _ _ (eepReadBit_inv h h8 hs d) (by rw [(eepReadBit_config p d e).1]; exact h8)
      (by rw [(eepReadBit_config p d e).1]; exact hs)

theorem eepReadBits_length (p : Params) : ∀ (n d : Nat) (e : Eep), (eepReadBits p n d e).1.length = n
  | 0, _, _ => rfl
  | n + 1, d, e => by simp [eepReadBits, eepReadBits_length p n]

/-- A StaticRAM write changes the content alone. -/
theorem sramWriteFrom_config : ∀ (A : Word) (i : Nat) (bs : List Byte) (m : Sram),
    (sramWriteFrom A i bs m).size = m.size ∧ (sramWriteFrom A i bs m).mask = m.mask
  | _, _, [], _ => ⟨rfl, rfl⟩
  | A, i, b :: bs, m => sramWriteFrom_config A (i + 1) bs { m with content := m.content.write (sramIndex m A i) b }

/-- A masked index lies in the array. -/
theorem sramIndex_lt {m : Sram} (hs : legalSramSize m.size = true) (hm : m.mask = BitVec.ofNat 32 (m.size - 1))
    (A : Word) (i : Nat) : sramIndex m A i < m.size := by
  have h4 : 4 ≤ m.size := by simp [legalSramSize] at hs; exact hs.1
  have h1 : (A + BitVec.ofNat 32 i).toNat &&& m.mask.toNat ≤ m.mask.toNat := Nat.and_le_right
  have h2 : m.mask.toNat ≤ m.size - 1 := by rw [hm, BitVec.toNat_ofNat]; exact Nat.mod_le _ _
  unfold sramIndex
  rw [BitVec.toNat_and]
  omega

/-- A StaticRAM write keeps the canonical form and the extent of the array. -/
theorem sramWriteFrom_ok : ∀ (A : Word) (i : Nat) (bs : List Byte) (m : Sram), legalSramSize m.size = true →
    m.mask = BitVec.ofNat 32 (m.size - 1) → m.content.wf = true → m.content.within m.size = true →
    (sramWriteFrom A i bs m).content.wf = true ∧ (sramWriteFrom A i bs m).content.within m.size = true
  | _, _, [], _, _, _, h1, h2 => ⟨h1, h2⟩
  | A, i, b :: bs, m, hs, hm, h1, h2 =>
    sramWriteFrom_ok A (i + 1) bs { m with content := m.content.write (sramIndex m A i) b } hs hm
      (Memory.wf_write h1 _ _) (Memory.within_write _ (sramIndex_lt hs hm A i) h2)

/-- A preseeded array is in canonical form and inside its size. -/
theorem preseeded_ok (size : Nat) (blob : Option (List Byte)) :
    (preseeded size blob).wf = true ∧ (preseeded size blob).within size = true := by
  unfold preseeded
  split
  · exact ⟨rfl, rfl⟩
  · exact ⟨Memory.wf_ofBytes _ _, Memory.within_of_le (Memory.within_ofBytes _ _) (by simp)⟩

theorem loadErrors_nil {p : Params} {d : Descriptor} (h : loadErrors p d = []) :
    d.romSize ≤ romMax ∧ storeErrors p d.store = [] := by
  simpa [loadErrors] using h

theorem State.Inv.eep_size {s : State} (h : s.Inv) (ha : s.EepromActive) : s.eep.size % 8 = 0 ∧ 8 ≤ s.eep.size := by
  have := h.legal ha.1
  simp [legalConfig, ha.2, legalEepSize] at this
  exact ⟨this.2.1.1.1, this.2.1.2⟩

theorem State.Inv.flash_size {s : State} (h : s.Inv) (ha : s.FlashActive) :
    s.flash.size = flashBankSize ∨ s.flash.size = flashMax := by
  have := h.legal ha.1
  simp [legalConfig, ha.2, legalFlashSize] at this
  exact this.2

/-- No effect of a row but LOAD changes the configuration, loads a cartridge or takes a call. -/
theorem Effect.config {s s' : State} (h : Effect s s') :
    s'.cart.kind = s.cart.kind ∧ s'.rom = s.rom ∧ s'.params = s.params ∧
    s'.eep.size = s.eep.size ∧ s'.eep.winMask = s.eep.winMask ∧ s'.eep.winMatch = s.eep.winMatch ∧
    s'.flash.size = s.flash.size ∧ s'.flash.id = s.flash.id ∧
    s'.sram.size = s.sram.size ∧ s'.sram.mask = s.sram.mask ∧
    (s'.eep.bits = s.eep.bits ∨ s.eep.bits = none) ∧ (s'.cart.loaded = true → s.cart.loaded = true) ∧
    s'.input = s.input := by
  cases h
  case sramWrite A bs hl hk => simp [sramWriteFrom_config]
  case eepBit b ha => simp [eepWriteBit_config]
  case eepRead ha => simp [eepReadBit_config]
  case eepFrame bs ha => simp [deliverEepBits_config bs s]
  case eepFrameRead bs ha =>
    have hb := deliverEepBits_config bs s
    have hr := eepReadBit_config s.params (deliverEepBits bs s).draws (deliverEepBits bs s).eep
    simp only [hb] at hr
    simp [hb, hr]
  case eepRead64 ha => simp [eepReadBits_config s.params (leadinCount s.params.readLeadin + 64) s.draws s.eep]
  case flashByte off v ha => simp [flashWriteByte_config]
  all_goals simp

/-- The row that a serial bit selects hands its bit to the engine (R100). -/
theorem exec_decodeEepBit (b : Bool) (s : State) :
    exec (decodeEepBit (decodeCtx s) b) s = onEngine .serialEEPROM s (deliverEepBit b s) := by
  unfold decodeEepBit
  split
  · rfl
  · cases b <;> rfl
  · split <;> rfl
  all_goals rfl

/-- The row that a serial read selects takes it from the engine (R113). -/
theorem exec_decodeEepRead (s : State) :
    exec (decodeEepRead (decodeCtx s)) s = onEngine .serialEEPROM s (deliverEepRead s) := by
  unfold decodeEepRead
  split
  · rfl
  · split <;> rfl
  all_goals rfl

theorem onEngine_of_active {s : State} (h : s.EepromActive) (s' : State) :
    onEngine .serialEEPROM s s' = .next s' := by simp [onEngine, h.1, h.2]

/-- What an engine row answers while the EEPROM is not active does not depend on the event. -/
theorem onEngine_of_inactive {s : State} (h : ¬s.EepromActive) (t : State) : ∃ r, onEngine .serialEEPROM s t = .refused r ∧
    ∀ t', onEngine .serialEEPROM s t' = .refused r := by
  unfold onEngine
  by_cases hl : s.cart.loaded = false
  · exact ⟨.unloaded, by simp [hl], by simp [hl]⟩
  · have hk : s.cart.kind ≠ .serialEEPROM := fun hk => h ⟨by simpa using hl, hk⟩
    exact ⟨.engineInactive, by simp [hl, hk], by simp [hl, hk]⟩

/-- With the EEPROM active, bits sent one at a time are delivered one after another. -/
theorem sendBits_of_active : ∀ (bs : List Bool) (s : State), s.EepromActive → sendBits bs s = .next (deliverEepBits bs s)
  | [], _, _ => rfl
  | b :: bs, s, h => by
    rw [sendBits, exec_decodeEepBit, onEngine_of_active h]
    exact sendBits_of_active bs (deliverEepBit b s) h

/-- With the EEPROM active, reads taken one at a time answer the engine's bits in order. -/
theorem takeReads_of_active : ∀ (n : Nat) (taken : List Bool) (s : State), s.EepromActive →
    takeReads n taken s =
      let r := eepReadBits s.params n s.draws s.eep
      .next { s with eep := r.2.1, draws := r.2.2, resp := .bits (taken ++ r.1) }
  | 0, taken, s, _ => by simp [takeReads, eepReadBits]
  | n + 1, taken, s, h => by
    rw [takeReads, exec_decodeEepRead, onEngine_of_active h]
    show takeReads n (taken ++ [answeredBit (deliverEepRead s)]) (deliverEepRead s) = _
    have hb : answeredBit (deliverEepRead s) = (eepReadBit s.params s.draws s.eep).bit := by
      simp [answeredBit, deliverEepRead, zextBit]
    rw [takeReads_of_active n _ (deliverEepRead s) h, hb]
    simp [eepReadBits, deliverEepRead]

end Sys2Proof.Machine
end

