-- ==== Sys2Proof/Laws/Bus.lean ====
section
/-!
SUPPORT. Byte composition, and what StaticRAM writes and FlashROM reads of several bytes do, byte by byte.
-/

namespace Sys2Proof.Machine

theorem widthBytes_le (w : AccessWidth) : widthBytes w ≤ 4 := by cases w <;> decide

/-- A composed value has no bit above its bytes. -/
theorem leWord_lt : ∀ bs : List Byte, bs.length ≤ 4 → (leWord bs).toNat < 2 ^ (8 * bs.length)
  | [], _ => by simp [leWord]
  | b :: bs, h => by
    simp only [leWord, BitVec.toNat_or, BitVec.toNat_setWidth, BitVec.toNat_shiftLeft, List.length_cons]
    have ih := leWord_lt bs (by simp at h; omega)
    have hb := b.isLt
    apply Nat.or_lt_two_pow
    · rw [Nat.mod_eq_of_lt (by omega)]
      exact lt_of_lt_of_le hb (Nat.pow_le_pow_right (by decide) (by omega))
    · refine lt_of_le_of_lt (Nat.mod_le _ _) ?_
      rw [Nat.shiftLeft_eq, show 8 * (bs.length + 1) = 8 * bs.length + 8 by omega, Nat.pow_add]
      omega

/-- Byte `i` of a composed value is the byte composed there. -/
theorem byteOf_leWord : ∀ (bs : List Byte) (i : Nat) (h : i < bs.length), bs.length ≤ 4 → byteOf (leWord bs) i = bs[i]
  | b :: bs, 0, _, h4 => by
    apply BitVec.eq_of_getLsbD_eq
    intro j hj
    simp [byteOf, leWord, hj, show j < 32 by omega]
  | b :: bs, i + 1, h, h4 => by
    have hl : bs.length ≤ 3 := by simp at h4; omega
    have hi : i < bs.length := by simpa using h
    rw [List.getElem_cons_succ, ← byteOf_leWord bs i hi (by omega)]
    apply BitVec.eq_of_getLsbD_eq
    intro j hj
    simp only [byteOf, leWord, BitVec.getLsbD_extractLsb', hj, decide_true, Bool.true_and, BitVec.getLsbD_or,
      BitVec.getLsbD_shiftLeft, BitVec.getLsbD_setWidth]
    rw [show 8 * (i + 1) + j - 8 = 8 * i + j by omega, BitVec.getLsbD_of_ge b _ (by omega)]
    simp [show ¬(8 * (i + 1) + j < 8) by omega, show 8 * (i + 1) + j < 32 by omega]

/-- A StaticRAM write replaces the content alone. -/
theorem sramWriteFrom_content : ∀ (A : Word) (i : Nat) (bs : List Byte) (m : Sram),
    sramWriteFrom A i bs m = { m with content := (sramWriteFrom A i bs m).content }
  | _, _, [], _ => rfl
  | A, i, b :: bs, m => by rw [sramWriteFrom]; exact sramWriteFrom_content A (i + 1) bs _

/-- A byte that is at none of the masked indices of a StaticRAM write is unchanged. -/
theorem read_sramWriteFrom_off : ∀ (A : Word) (i : Nat) (bs : List Byte) (m : Sram) (j : Nat), m.content.wf = true →
    (∀ k, k < bs.length → j ≠ sramIndex m A (i + k)) →
    (sramWriteFrom A i bs m).content.read j = m.content.read j
  | _, _, [], _, _, _, _ => rfl
  | A, i, b :: bs, m, j, hw, h => by
    rw [sramWriteFrom, read_sramWriteFrom_off A (i + 1) bs _ j (Memory.wf_write hw _ _) fun k hk => by
      rw [show i + 1 + k = i + (k + 1) by omega]
      exact h (k + 1) (by simpa using hk)]
    exact (Memory.read_write hw _ _ _).trans (if_neg (by simpa using h 0 (by simp)))

/-- A StaticRAM write whose masked indices differ stores each byte at its own. -/
theorem read_sramWriteFrom_on : ∀ (A : Word) (i : Nat) (bs : List Byte) (m : Sram) (k : Nat) (hk : k < bs.length),
    m.content.wf = true →
    (∀ k k', k < bs.length → k' < bs.length → k ≠ k' → sramIndex m A (i + k) ≠ sramIndex m A (i + k')) →
    (sramWriteFrom A i bs m).content.read (sramIndex m A (i + k)) = bs[k]
  | A, i, b :: bs, m, 0, _, hw, h => by
    rw [sramWriteFrom, read_sramWriteFrom_off A (i + 1) bs _ _ (Memory.wf_write hw _ _) fun k hk => by
      have := h 0 (k + 1) (by simp) (by simpa using hk) (by omega)
      rw [show i + 1 + k = i + (k + 1) by omega]
      exact this]
    exact (Memory.read_write hw _ _ _).trans (if_pos rfl)
  | A, i, b :: bs, m, k + 1, hk, hw, h => by
    have := read_sramWriteFrom_on A (i + 1) bs { m with content := m.content.write (sramIndex m A i) b } k
      (by simpa using hk) (Memory.wf_write hw _ _) fun k k' h1 h2 h3 => by
        have := h (k + 1) (k' + 1) (by simpa using h1) (by simpa using h2) (by omega)
        rw [show i + 1 + k = i + (k + 1) by omega, show i + 1 + k' = i + (k' + 1) by omega]
        exact this
    rw [show i + 1 + k = i + (k + 1) by omega] at this
    exact this

/-- The masked indices of the bytes of one access differ: a mask keeps at least two low bits. -/
theorem sramIndex_ne {m : Sram} (hs : legalSramSize m.size = true) (hm : m.mask = BitVec.ofNat 32 (m.size - 1))
    (A : Word) {k k' : Nat} (hk : k < 4) (hk' : k' < 4) (hne : k ≠ k') : sramIndex m A k ≠ sramIndex m A k' := by
  intro heq
  unfold sramIndex at heq
  have h3 : m.mask &&& 3#32 = 3#32 := by
    simp only [legalSramSize, decide_eq_true_eq] at hs
    obtain ⟨h4, hp⟩ := hs
    have hl : 2 ≤ m.size.log2 := by
      by_contra hc
      have : 2 ^ m.size.log2 ≤ 2 ^ 1 := Nat.pow_le_pow_right (by decide) (by omega)
      omega
    rw [hm, ← hp]
    apply BitVec.eq_of_getLsbD_eq
    intro j hj
    have hb : ∀ j, j < 32 → (3#32).getLsbD j = decide (j < 2) := by decide
    rw [BitVec.getLsbD_and, hb j hj, BitVec.getLsbD_ofNat, Nat.testBit_two_pow_sub_one]
    simp [hj]; omega
  have h5 : (A + BitVec.ofNat 32 k) &&& 3#32 = (A + BitVec.ofNat 32 k') &&& 3#32 := by
    rw [← h3, ← BitVec.and_assoc, ← BitVec.and_assoc, BitVec.eq_of_toNat_eq heq]
  have h6 : ∀ x : BitVec 32, (x &&& 3#32).toNat = x.toNat % 4 := fun x => by
    rw [BitVec.toNat_and]; exact Nat.and_two_pow_sub_one_eq_mod x.toNat 2
  have := congrArg BitVec.toNat h5
  rw [h6, h6, BitVec.toNat_add, BitVec.toNat_add, BitVec.toNat_ofNat, BitVec.toNat_ofNat] at this
  omega

/-- Outside ID mode a FlashROM read of several bytes is the content at consecutive offsets, and draws nothing. -/
theorem flashReadBytes_content (f : Flash) (h : f.phase ≠ .idMode) : ∀ (n : Nat) (off : BitVec 16) (d : Nat),
    flashReadBytes f n off d = ((List.range n).map fun i => f.content.read (flashIdx f (off + BitVec.ofNat 16 i)), d)
  | 0, _, _ => rfl
  | n + 1, off, d => by
    simp only [flashReadBytes, flashReadByte, if_neg h, flashReadBytes_content f h n]
    simp only [List.range_succ_eq_map, List.map_cons, List.map_map, Prod.mk.injEq, List.cons.injEq, and_true]
    refine ⟨by simp, List.map_congr_left fun i _ => ?_⟩
    show f.content.read _ = f.content.read _
    congr 2
    apply BitVec.eq_of_toNat_eq
    simp; omega

end Sys2Proof.Machine
end

