-- ==== Sys2Proof/Laws/Frames.lean ====
section
/-!
SUPPORT. What runs of address, data and stream bits, and runs of data reads, do to the EEPROM engine.
-/

namespace Sys2Proof.Machine

/-- Shifting a bit in doubles the value and adds the bit. -/
theorem shiftIn_eq {w : Nat} (v : BitVec w) (b : Bool) : shiftIn v b = BitVec.ofNat w (2 * v.toNat + b.toNat) := by
  unfold shiftIn
  apply BitVec.eq_of_getLsbD_eq
  intro i hi
  rw [BitVec.getLsbD_ofNat]
  rcases i with _ | i
  · cases b <;> simp [hi]
  · have hs : (2 * v.toNat + b.toNat).testBit (i + 1) = v.toNat.testBit i := by
      rw [Nat.testBit_succ]; congr 1; have := b.toNat_lt; omega
    have h1 : Nat.testBit 1 (i + 1) = false := by rw [Nat.testBit_succ]; simp
    rw [hs]
    cases b <;> simp [hi, BitVec.getLsbD, h1]

theorem shiftIn_ofNat {w : Nat} (x : Nat) (b : Bool) :
    shiftIn (BitVec.ofNat w x) b = BitVec.ofNat w (2 * x + b.toNat) := by
  rw [shiftIn_eq]
  apply BitVec.eq_of_toNat_eq
  simp [Nat.add_mod, Nat.mul_mod]

/-- The engine after write bits. -/
def eepWriteBits (bs : List Bool) (e : Eep) : Eep := bs.foldl (fun e b => eepWriteBit b e) e

theorem eepWriteBits_append (as bs : List Bool) (e : Eep) :
    eepWriteBits (as ++ bs) e = eepWriteBits bs (eepWriteBits as e) := by simp [eepWriteBits]

theorem deliverEepBits_eq : ∀ (bs : List Bool) (s : State), bs ≠ [] →
    deliverEepBits bs s = { s with eep := eepWriteBits bs s.eep, resp := .nothing }
  | [], _, h => absurd rfl h
  | [_], _, _ => rfl
  | b :: c :: bs, s, _ => by rw [deliverEepBits, deliverEepBits_eq (c :: bs) _ (by simp)]; rfl

/-- Address bits before the last one. -/
theorem eepWriteBits_address {w : AddrWidth} : ∀ (bs : List Bool) (e : Eep), e.phase = .address → e.bits = some w →
    e.count + bs.length < addrBits w →
    eepWriteBits bs e =
      { e with addr := BitVec.ofNat 14 (e.addr.toNat * 2 ^ bs.length + bitsVal bs), count := e.count + bs.length }
  | [], e, _, _, _ => by simp [eepWriteBits, bitsVal]
  | b :: bs, e, hp, hw, hc => by
    simp only [List.length_cons] at hc
    have h1 : eepWriteBit b e = { e with addr := shiftIn e.addr b, count := e.count + 1 } := by
      simp only [eepWriteBit, hp, hw, eepAddrArm]; rw [if_neg (by omega)]
    show eepWriteBits bs (eepWriteBit b e) = _
    rw [h1, eepWriteBits_address (w := w) bs _ (by exact hp) (by exact hw) (by simp; omega), shiftIn_eq]
    simp only [bitsVal, List.length_cons]
    congr 1
    · omega
    · apply BitVec.eq_of_toNat_eq
      simp only [BitVec.toNat_ofNat]
      rw [Nat.add_mod, Nat.mul_mod, Nat.mod_mod, ← Nat.mul_mod, ← Nat.add_mod]
      congr 1; rw [Nat.pow_succ]; ring

/-- A whole address, right after the request type. -/
theorem eepWriteBits_latch {w : AddrWidth} (bs : List Bool) (e : Eep) (hp : e.phase = .address) (hw : e.bits = some w)
    (hc : e.count = 0) (hl : bs.length = addrBits w) (ha : e.addr = 0) :
    eepWriteBits bs e = eepLatch { e with addr := BitVec.ofNat 14 (bitsVal bs), count := addrBits w } := by
  have hne : bs ≠ [] := by rintro rfl; cases w <;> simp [addrBits] at hl
  have hd : bs.dropLast.length + 1 = addrBits w := by rw [List.length_dropLast, hl]; cases w <;> rfl
  rw [← List.dropLast_append_getLast hne, eepWriteBits_append,
    eepWriteBits_address (w := w) bs.dropLast e hp hw (by omega)]
  simp only [eepWriteBits, List.foldl, eepWriteBit, hp, hw, eepAddrArm, hc]
  rw [if_pos (by omega), show 0 + bs.dropLast.length + 1 = addrBits w by omega]
  congr 2
  rw [shiftIn_ofNat, ha, bitsVal_append_singleton]
  simp

/-- Data bits before the last one. -/
theorem eepWriteBits_data : ∀ (bs : List Bool) (e : Eep), e.phase = .writeData → e.count + bs.length < 64 →
    eepWriteBits bs e =
      { e with buf := BitVec.ofNat 64 (e.buf.toNat * 2 ^ bs.length + bitsVal bs), count := e.count + bs.length }
  | [], e, _, _ => by simp [eepWriteBits, bitsVal]
  | b :: bs, e, hp, hc => by
    simp only [List.length_cons] at hc
    have h1 : eepWriteBit b e = { e with buf := shiftIn e.buf b, count := e.count + 1 } := by
      simp only [eepWriteBit, hp, eepDataArm]; rw [if_neg (by omega)]
    show eepWriteBits bs (eepWriteBit b e) = _
    rw [h1, eepWriteBits_data bs _ (by exact hp) (by simp; omega), shiftIn_eq]
    simp only [bitsVal, List.length_cons]
    congr 1
    · omega
    · apply BitVec.eq_of_toNat_eq
      simp only [BitVec.toNat_ofNat]
      rw [Nat.add_mod, Nat.mul_mod, Nat.mod_mod, ← Nat.mul_mod, ← Nat.add_mod]
      congr 1; rw [Nat.pow_succ]; ring

/-- All 64 data bits, right after the address. -/
theorem eepWriteBits_commit (bs : List Bool) (e : Eep) (hp : e.phase = .writeData) (hc : e.count = 0)
    (hl : bs.length = 64) (hb : e.buf = 0) :
    eepWriteBits bs e =
      { eepCommit { e with buf := BitVec.ofNat 64 (bitsVal bs) } with phase := .writeStop, count := 0 } := by
  have hne : bs ≠ [] := by rintro rfl; simp at hl
  have hd : bs.dropLast.length + 1 = 64 := by rw [List.length_dropLast, hl]
  rw [← List.dropLast_append_getLast hne, eepWriteBits_append, eepWriteBits_data bs.dropLast e hp (by omega)]
  simp only [eepWriteBits, List.foldl, eepWriteBit, hp, eepDataArm, hc]
  rw [if_pos (by omega), shiftIn_ofNat, hb, bitsVal_append_singleton]
  simp [eepCommit, eepBase]

/-- Stream bits up to the cap. -/
theorem eepWriteBits_stream : ∀ (bs : List Bool) (e : Eep), e.phase = .address → e.bits = none →
    e.stream.length + bs.length ≤ eepStreamCap → eepWriteBits bs e = { e with stream := e.stream ++ bs }
  | [], e, _, _, _ => by simp [eepWriteBits]
  | b :: bs, e, hp, hw, hc => by
    simp only [List.length_cons] at hc
    have h1 : eepWriteBit b e = { e with stream := e.stream ++ [b] } := by
      simp only [eepWriteBit, hp, hw, eepStreamArm]; rw [if_neg (by omega)]
    show eepWriteBits bs (eepWriteBit b e) = _
    rw [h1, eepWriteBits_stream bs _ (by exact hp) (by exact hw) (by simp; omega)]
    simp

/-- The bytes of a committed block, and every other byte. -/
theorem read_eepCommit (e : Eep) (hw : e.content.wf = true) :
    (∀ i, i < 8 → (eepCommit e).content.read (eepBase e + i) = e.buf.extractLsb' (56 - 8 * i) 8) ∧
    ∀ j, j < eepBase e ∨ eepBase e + 8 ≤ j → (eepCommit e).content.read j = e.content.read j := by
  refine ⟨fun i hi => ?_, fun j hj => ?_⟩
  · rw [eepCommit_content, Memory.read_writeBytes _ _ _ hw, dif_pos (by simp only [blockBytes_length]; omega)]
    simp [blockBytes]
  · rw [eepCommit_content, Memory.read_writeBytes _ _ _ hw, dif_neg (by simp only [blockBytes_length]; omega)]

/-- Data reads before the last one. -/
theorem eepReadBits_data (p : Params) : ∀ (n d : Nat) (e : Eep), e.phase = .readData →
    e.count + n < leadinCount p.readLeadin + 64 →
    (eepReadBits p n d e).2.1 = { e with count := e.count + n } ∧
    (eepReadBits p n d e).2.2 = d + (min (e.count + n) (leadinCount p.readLeadin) - min e.count (leadinCount p.readLeadin)) ∧
    ∀ i, i < n → leadinCount p.readLeadin ≤ e.count + i →
      (eepReadBits p n d e).1[i]? = some (eepDataBit e (e.count + i - leadinCount p.readLeadin))
  | 0, d, e, _, _ => by simp [eepReadBits]
  | n + 1, d, e, hp, hc => by
    have h1 : eepReadBit p d e =
        ⟨if e.count < leadinCount p.readLeadin then Config.freeBit d else eepDataBit e (e.count - leadinCount p.readLeadin),
          { e with count := e.count + 1 }, if e.count < leadinCount p.readLeadin then d + 1 else d⟩ := by
      simp only [eepReadBit, hp, eepReadDataArm]; congr 1; rw [if_neg (by omega)]
    obtain ⟨a, b, c⟩ := eepReadBits_data p n (if e.count < leadinCount p.readLeadin then d + 1 else d)
      { e with count := e.count + 1 } hp (by simp; omega)
    simp only [eepReadBits, h1]
    refine ⟨?_, ?_, fun i hi hL => ?_⟩
    · rw [a]; simp only; congr 1; omega
    · rw [b]; simp only; split <;> omega
    · rcases i with _ | i
      · simp; intro h; omega
      · rw [List.getElem?_cons_succ, c i (by omega) (by simp; omega)]
        simp [eepDataBit, eepBase]
        congr 3 <;> omega

/-- The last of a run of reads, taken apart. -/
theorem eepReadBits_succ (p : Params) : ∀ (n d : Nat) (e : Eep), eepReadBits p (n + 1) d e =
    ((eepReadBits p n d e).1 ++ [(eepReadBit p (eepReadBits p n d e).2.2 (eepReadBits p n d e).2.1).bit],
      (eepReadBit p (eepReadBits p n d e).2.2 (eepReadBits p n d e).2.1).eep,
      (eepReadBit p (eepReadBits p n d e).2.2 (eepReadBits p n d e).2.1).draws)
  | 0, _, _ => rfl
  | n + 1, d, e => by rw [eepReadBits, eepReadBits_succ p n]; rfl

end Sys2Proof.Machine
end

