-- ==== Sys2Proof/Laws/PerInstr.lean ====
section
/-!
SUPPORT. Statements about every instruction as syntax, one lemma per constructor. Selected: no row of the opcode table is
dead, some state of the block makes it the row its words stand for.
-/

namespace Sys2Proof.Laws.Selected

open Sys2Proof.Machine

/-- Some state of the block selects the row of `i`. -/
def Statement (i : Instr) : Prop := ∃ s : State, selects (decodeCtx s) i = true

/-- A context of the decoder in which nothing is loaded yet, or a kind is active in given phases. -/
theorem of_phases (k : Kind) (p : EepPhase) (b : Option AddrWidth) (f : FlashPhase) {i : Instr}
    (h : selects ⟨k, p, b, f⟩ i = true) : Statement i :=
  ⟨{ State.reset with
      cart := ⟨true, k⟩
      eep := { State.reset.eep with phase := p, bits := b }
      flash := { State.reset.flash with phase := f } }, h⟩

theorem readB (addr openBus : Word) : Statement (.readB addr openBus) := of_phases .none .idle none .idle rfl
theorem readH (addr openBus : Word) : Statement (.readH addr openBus) := of_phases .none .idle none .idle rfl
theorem readW (addr openBus : Word) : Statement (.readW addr openBus) := of_phases .none .idle none .idle rfl
theorem writeB (addr wdata : Word) : Statement (.writeB addr wdata) := of_phases .none .idle none .idle rfl
theorem writeH (addr wdata : Word) : Statement (.writeH addr wdata) := of_phases .none .idle none .idle rfl
theorem writeW (addr wdata : Word) : Statement (.writeW addr wdata) := of_phases .none .idle none .idle rfl
theorem power : Statement .power := of_phases .none .idle none .idle rfl
theorem load (d : Descriptor) : Statement (.load d) := of_phases .none .idle none .idle rfl
theorem unload : Statement .unload := of_phases .none .idle none .idle rfl
theorem eepStart (b : Bool) : Statement (.eepStart b) := of_phases .serialEEPROM .idle none .idle rfl
theorem eepReqRead : Statement .eepReqRead := of_phases .serialEEPROM .command none .idle rfl
theorem eepReqWrite : Statement .eepReqWrite := of_phases .serialEEPROM .command none .idle rfl
theorem eepAddrBit (b : Bool) : Statement (.eepAddrBit b) := of_phases .serialEEPROM .address (some .six) .idle rfl
theorem eepStreamBit (b : Bool) : Statement (.eepStreamBit b) := of_phases .serialEEPROM .address none .idle rfl
theorem eepDataBit (b : Bool) : Statement (.eepDataBit b) := of_phases .serialEEPROM .writeData none .idle rfl
theorem eepReadStop (b : Bool) : Statement (.eepReadStop b) := of_phases .serialEEPROM .readStop none .idle rfl
theorem eepWriteStop (b : Bool) : Statement (.eepWriteStop b) := of_phases .serialEEPROM .writeStop none .idle rfl
theorem eepAbortRead (b : Bool) : Statement (.eepAbortRead b) := of_phases .serialEEPROM .readData none .idle rfl
theorem eepReadBit : Statement .eepReadBit := of_phases .serialEEPROM .readData none .idle rfl
theorem eepReadDetect : Statement .eepReadDetect := of_phases .serialEEPROM .address none .idle rfl
theorem eepReadIdle : Statement .eepReadIdle := of_phases .serialEEPROM .idle none .idle rfl
theorem eepPower : Statement .eepPower := of_phases .serialEEPROM .idle none .idle rfl
theorem eepReadFrame6 (k : BitVec 6) (s : Bool) : Statement (.eepReadFrame6 k s) := of_phases .serialEEPROM .idle none .idle rfl
theorem eepReadFrame14 (k : BitVec 14) (s : Bool) : Statement (.eepReadFrame14 k s) := of_phases .serialEEPROM .idle none .idle rfl
theorem eepWriteFrame6 (k : BitVec 6) (d : BitVec 64) (s : Bool) : Statement (.eepWriteFrame6 k d s) := of_phases .serialEEPROM .idle none .idle rfl
theorem eepWriteFrame14 (k : BitVec 14) (d : BitVec 64) (s : Bool) : Statement (.eepWriteFrame14 k d s) := of_phases .serialEEPROM .idle none .idle rfl
theorem eepRead64 : Statement .eepRead64 := of_phases .serialEEPROM .idle none .idle rfl
theorem eepFrameUnresolved (q : Bool) (stream : List Bool) : Statement (.eepFrameUnresolved q stream) := of_phases .serialEEPROM .idle none .idle rfl
theorem flUnlock1 (off : BitVec 16) (v : Byte) : Statement (.flUnlock1 off v) := of_phases .flashROM .idle none .idle rfl
theorem flUnlock2 (off : BitVec 16) (v : Byte) : Statement (.flUnlock2 off v) := of_phases .flashROM .idle none .unlock1 rfl
theorem flIdEnter : Statement .flIdEnter := of_phases .flashROM .idle none .unlock2 rfl
theorem flIdExit : Statement .flIdExit := of_phases .flashROM .idle none .unlock2 rfl
theorem flEraseSetup : Statement .flEraseSetup := of_phases .flashROM .idle none .unlock2 rfl
theorem flProgramSetup : Statement .flProgramSetup := of_phases .flashROM .idle none .unlock2 rfl
theorem flBankSetup : Statement .flBankSetup := of_phases .flashROM .idle none .unlock2 rfl
theorem flUnlock2Other (off : BitVec 16) (v : Byte) : Statement (.flUnlock2Other off v) := of_phases .flashROM .idle none .unlock2 rfl
theorem flIdModeWrite (off : BitVec 16) (v : Byte) : Statement (.flIdModeWrite off v) := of_phases .flashROM .idle none .idMode rfl
theorem flEraseUnlock1 (off : BitVec 16) (v : Byte) : Statement (.flEraseUnlock1 off v) := of_phases .flashROM .idle none .eraseArmed rfl
theorem flEraseUnlock2 (off : BitVec 16) (v : Byte) : Statement (.flEraseUnlock2 off v) := of_phases .flashROM .idle none .eraseUnlock1 rfl
theorem flChipErase : Statement .flChipErase := of_phases .flashROM .idle none .eraseUnlock2 rfl
theorem flSectorErase (off : BitVec 16) : Statement (.flSectorErase off) := of_phases .flashROM .idle none .eraseUnlock2 rfl
theorem flEraseOther (off : BitVec 16) (v : Byte) : Statement (.flEraseOther off v) := of_phases .flashROM .idle none .eraseUnlock2 rfl
theorem flProgram (off : BitVec 16) (v : Byte) : Statement (.flProgram off v) := of_phases .flashROM .idle none .writeMode rfl
theorem flBankSelect (off : BitVec 16) (v : Byte) : Statement (.flBankSelect off v) := of_phases .flashROM .idle none .bankSwitch rfl
theorem flRead (off : BitVec 16) : Statement (.flRead off) := of_phases .flashROM .idle none .idle rfl
theorem flPower : Statement .flPower := of_phases .flashROM .idle none .idle rfl

end Sys2Proof.Laws.Selected
end

