-- ==== Sys2Proof/Machine/Flags.lean ====
section
/-!
DEFINITION. The block has no condition codes or status flags (R31), so no row computes one. The document's flag-like facts
are read off the phases here; nothing stores them.
-/

namespace Sys2Proof.Machine

/-- "idle" of the EEPROM engine: `eep.phase` (R31). -/
def eepIsIdle (e : Eep) : Bool := e.phase == .idle

/-- "read-pending" of the EEPROM engine, which R31 maps to `eep.phase` and `eep.op` without saying which values: a read
request whose type is known, received or served. DESIGN CHOICE (entry 22): `Command` counts as no request. -/
def eepReadPending (e : Eep) : Bool :=
  (e.phase == .address && e.op == .read) || e.phase == .readStop || e.phase == .readData

/-- "write-pending" of the EEPROM engine, which R31 maps to `eep.phase` and `eep.op` without saying which values: a write
request whose type is known, up to its stop bit. DESIGN CHOICE (entry 22): `WriteStop`, with its block committed, counts. -/
def eepWritePending (e : Eep) : Bool :=
  (e.phase == .address && e.op == .write) || e.phase == .writeData || e.phase == .writeStop

/-- "id-mode" of the FlashROM engine (R31). -/
def flashIdMode (f : Flash) : Bool := f.phase == .idMode

/-- "erase-pending" of the FlashROM engine: the three erase phases (R27, R31). -/
def flashErasePending (f : Flash) : Bool :=
  f.phase == .eraseArmed || f.phase == .eraseUnlock1 || f.phase == .eraseUnlock2

/-- "write-pending" of the FlashROM engine (R31). -/
def flashWritePending (f : Flash) : Bool := f.phase == .writeMode

end Sys2Proof.Machine
end

