-- ==== Sys2Proof/Tests/Slice0.lean ====
section
/-!
SUPPORT. Smoke tests of WellFormed, words of the spec's encodings, vectors of spec/95_test_vectors.md (each test names its
own), and for every statement of Obligations.lean with hypotheses a state and operands that meet them.
-/

namespace Sys2Proof.Tests

open Machine

/-! ## Small states -/

/-- `EEP_READ_LEADIN = 0`, the reference `EEP_WIDTH_DETECT` (95_test_vectors.md), `SRAM_MAX = 32768`. -/
def params0 : Params := ⟨.zero, [(6, .six), (14, .fourteen)], 32768⟩

/-- The same with `EEP_READ_LEADIN = 4`. -/
def params4 : Params := { params0 with readLeadin := .four }

/-- A 512-byte EEPROM behind the small window, idle and erased. -/
def eep512 : Eep :=
  { size := 512, bits := some .six, winMask := 0x0F000000#32, winMatch := 0x0D000000#32, phase := .idle, op := .read,
    count := 0, addr := 0, buf := 0, stream := [], content := [] }

/-- An 8192-byte EEPROM of 14 address bits. -/
def eep8192 : Eep := { eep512 with size := 8192, bits := some .fourteen }

/-- An 8192-byte EEPROM of unresolved width. -/
def eepUnresolved : Eep := { eep512 with size := 8192, bits := none }

/-- A 128 KiB FlashROM with identifier 0x09C2, idle and erased (95_test_vectors.md section 4). -/
def flash128 : Flash := { size := 131072, id := 0x09C2#16, phase := .idle, bank := 0, content := [] }

/-- A loaded cartridge of kind `k` with a 16 MiB image. -/
def cart (k : Kind) : State :=
  { State.reset with params := params0, cart := ⟨true, k⟩, rom := ⟨0x01000000, []⟩ }

/-- A loaded EEPROM cartridge with engine state `e`. -/
def withEep (e : Eep) : State := { cart .serialEEPROM with eep := e }

/-- A loaded FlashROM cartridge with engine state `f`. -/
def withFlash (f : Flash) : State := { cart .flashROM with flash := f }

/-- The 128 KiB FlashROM in phase `p`. -/
def inPhase (p : FlashPhase) : State := withFlash { flash128 with phase := p }

/-- A loaded 32768-byte StaticRAM. -/
def withSram (m : Memory) : State := { cart .staticRAM with sram := ⟨32768, 0x7FFF#32, m⟩ }

/-- The next state, if there is one. -/
def next? : Result → Option State
  | .next s => some s
  | .fault _ => none
  | .refused _ => none

/-- Why a step was refused, if it was. -/
def refusal? : Result → Option Refusal
  | .next _ => none
  | .fault _ => none
  | .refused r => some r

/-- What the caller got. -/
def resp? (r : Result) : Option Response := (next? r).map (·.resp)

/-- Bits from digits. -/
def bin (l : List Nat) : List Bool := l.map (· == 1)

/-! ## WellFormed refuses what the table's patterns exclude -/

theorem test_wf_sector_offset : ¬(Instr.flSectorErase 0x3001#16).WellFormed ∧ (Instr.flSectorErase 0x3000#16).WellFormed := by
  decide

theorem test_wf_unlock2_other :
    ¬(Instr.flUnlock2Other 0x5555#16 0x90#8).WellFormed ∧ (Instr.flUnlock2Other 0x5555#16 0x10#8).WellFormed := by decide

theorem test_wf_erase_other :
    ¬(Instr.flEraseOther 0x5555#16 0x10#8).WellFormed ∧ ¬(Instr.flEraseOther 0x3000#16 0x30#8).WellFormed ∧
    (Instr.flEraseOther 0x3001#16 0x30#8).WellFormed := by decide

/-! ## Words written from the spec's encodings decode to their rows -/

/-- A context of kind SerialEEPROM. -/
def eepCtx (p : EepPhase) (b : Option AddrWidth) : DecodeCtx := ⟨.serialEEPROM, p, b, .idle⟩

/-- A context of kind FlashROM. -/
def flashCtx (p : FlashPhase) : DecodeCtx := ⟨.flashROM, .idle, none, p⟩

/-- Whether `p` decodes to `i` and `i`'s words are `p` again. -/
def isRow (c : DecodeCtx) (p : Packet) (i : Instr) : Bool :=
  (match decode c p with | .ok j => decide (j = i) | .error _ => false) && decide (encode i = p)

/-- R61: `t[3:2]` kind, `t[1:0]` width. -/
theorem test_decode_bus :
    isRow (eepCtx .idle none) (.txn4 0b0000#4 0x08000000#32 7#32) (.readB 0x08000000#32 7#32) = true ∧
    isRow (eepCtx .idle none) (.txn4 0b0001#4 0x08000000#32 7#32) (.readH 0x08000000#32 7#32) = true ∧
    isRow (eepCtx .idle none) (.txn4 0b0010#4 0x08000000#32 7#32) (.readW 0x08000000#32 7#32) = true ∧
    isRow (eepCtx .idle none) (.txn4 0b0100#4 0x0E005555#32 0xAA#32) (.writeB 0x0E005555#32 0xAA#32) = true ∧
    isRow (eepCtx .idle none) (.txn4 0b0101#4 0x0D000000#32 1#32) (.writeH 0x0D000000#32 1#32) = true ∧
    isRow (eepCtx .idle none) (.txn4 0b0110#4 0x0D000000#32 1#32) (.writeW 0x0D000000#32 1#32) = true := by decide

/-- R61 and the table's POWER rows; R201, R202. -/
theorem test_decode_power_and_lifecycle :
    isRow ⟨.none, .idle, none, .idle⟩ (.txn4 0b1000#4 0 0) .power = true ∧
    isRow (eepCtx .idle none) (.txn4 0b1000#4 0 0) .eepPower = true ∧
    isRow (flashCtx .idle) (.txn4 0b1000#4 0 0) .flPower = true ∧
    isRow (flashCtx .idle) (.lifecycleLoad ⟨1, [], none, none⟩) (.load ⟨1, [], none, none⟩) = true ∧
    isRow (flashCtx .idle) .lifecycleUnload .unload = true := by decide

/-- R62, vector B18: `t = 1100` and the other reserved forms. -/
theorem test_decode_reserved :
    decode (flashCtx .idle) (.txn4 0b1100#4 0 0) = .error (.reservedTxn 0b1100#4) ∧
    decode (flashCtx .idle) (.txn4 0b0011#4 0 0) = .error (.reservedTxn 0b0011#4) ∧
    decode (flashCtx .idle) (.txn4 0b1001#4 0 0) = .error (.reservedTxn 0b1001#4) := ⟨rfl, rfl, rfl⟩

/-- The "phase" column of the EEP_BIT rows (R100). -/
theorem test_decode_eep_bits :
    isRow (eepCtx .idle (some .six)) (.eepBit true) (.eepStart true) = true ∧
    isRow (eepCtx .command (some .six)) (.eepBit true) .eepReqRead = true ∧
    isRow (eepCtx .command (some .six)) (.eepBit false) .eepReqWrite = true ∧
    isRow (eepCtx .address (some .fourteen)) (.eepBit true) (.eepAddrBit true) = true ∧
    isRow (eepCtx .address none) (.eepBit false) (.eepStreamBit false) = true ∧
    isRow (eepCtx .writeData (some .six)) (.eepBit true) (.eepDataBit true) = true ∧
    isRow (eepCtx .readStop (some .six)) (.eepBit false) (.eepReadStop false) = true ∧
    isRow (eepCtx .writeStop (some .six)) (.eepBit true) (.eepWriteStop true) = true ∧
    isRow (eepCtx .readData (some .six)) (.eepBit true) (.eepAbortRead true) = true := by decide

/-- The "phase" column of the EEP_READ rows (R113). -/
theorem test_decode_eep_reads :
    isRow (eepCtx .readData (some .six)) .eepRead .eepReadBit = true ∧
    isRow (eepCtx .address none) .eepRead .eepReadDetect = true ∧
    isRow (eepCtx .address (some .six)) .eepRead .eepReadIdle = true ∧
    isRow (eepCtx .readStop none) .eepRead .eepReadIdle = true ∧
    isRow (eepCtx .idle none) .eepReadSeq .eepRead64 = true := by decide

/-- R65: `11aaaaaas` with k = 3 (vector E40) and `11aaaaaaaaaaaaaas` with k = 5 (program 4). -/
theorem test_decode_read_frames :
    isRow (eepCtx .idle none) (.eepFrame (bin [1, 1, 0, 0, 0, 0, 1, 1, 0])) (.eepReadFrame6 3#6 false) = true ∧
    isRow (eepCtx .idle none) (.eepFrame (bin [1, 1, 0, 0, 0, 0, 0, 0, 0, 0, 0, 0, 0, 1, 0, 1, 0]))
      (.eepReadFrame14 5#14 false) = true := by decide

/-- Program 1's data bits of 0x0123456789ABCDEF. -/
def data1 : List Bool :=
  bin [0, 0, 0, 0, 0, 0, 0, 1, 0, 0, 1, 0, 0, 0, 1, 1, 0, 1, 0, 0, 0, 1, 0, 1, 0, 1, 1, 0, 0, 1, 1, 1] ++
  bin [1, 0, 0, 0, 1, 0, 0, 1, 1, 0, 1, 0, 1, 0, 1, 1, 1, 1, 0, 0, 1, 1, 0, 1, 1, 1, 1, 0, 1, 1, 1, 1]

/-- Program 4's data bits of 0xDEADBEEFCAFEF00D. -/
def data4 : List Bool :=
  bin [1, 1, 0, 1, 1, 1, 1, 0, 1, 0, 1, 0, 1, 1, 0, 1, 1, 0, 1, 1, 1, 1, 1, 0, 1, 1, 1, 0, 1, 1, 1, 1] ++
  bin [1, 1, 0, 0, 1, 0, 1, 0, 1, 1, 1, 1, 1, 1, 1, 0, 1, 1, 1, 1, 0, 0, 0, 0, 0, 0, 0, 0, 1, 1, 0, 1]

/-- R66: program 1's frame (k = 3) and vector E41's (k = 5). -/
theorem test_decode_write_frames :
    isRow (eepCtx .idle none) (.eepFrame (bin [1, 0, 0, 0, 0, 0, 1, 1] ++ data1 ++ [false]))
      (.eepWriteFrame6 3#6 0x0123456789ABCDEF#64 false) = true ∧
    isRow (eepCtx .idle none) (.eepFrame (bin [1, 0, 0, 0, 0, 0, 0, 0, 0, 0, 0, 0, 0, 1, 0, 1] ++ data4 ++ [false]))
      (.eepWriteFrame14 5#14 0xDEADBEEFCAFEF00D#64 false) = true := by decide

/-- R124: `1q` then stream bits, then one read; a bit string of no frame is refused (R65, R66). -/
theorem test_decode_unresolved :
    isRow (eepCtx .idle none) (.eepFrameThenRead (bin [1, 1, 0, 0, 0, 0, 1, 1, 0]))
      (.eepFrameUnresolved true (bin [0, 0, 0, 0, 1, 1, 0])) = true ∧
    decode (eepCtx .idle none) (.eepFrame (bin [1, 1, 0])) = .error .notAFrame ∧
    decode (eepCtx .idle none) (.eepFrame (bin [0, 1, 0, 0, 0, 0, 1, 1, 0])) = .error .notAFrame :=
  ⟨by decide, rfl, rfl⟩

/-- R70: `c = off << 8 | v`, in the phases of R140. -/
theorem test_decode_flash_unlocks :
    isRow (flashCtx .idle) (.flashCmd 0b010101010101010110101010#24) (.flUnlock1 0x5555#16 0xAA#8) = true ∧
    isRow (flashCtx .unlock1) (.flashCmd 0b001010101010101001010101#24) (.flUnlock2 0x2AAA#16 0x55#8) = true ∧
    isRow (flashCtx .eraseArmed) (.flashCmd 0x5555AA#24) (.flEraseUnlock1 0x5555#16 0xAA#8) = true ∧
    isRow (flashCtx .eraseUnlock1) (.flashCmd 0x2AAA55#24) (.flEraseUnlock2 0x2AAA#16 0x55#8) = true := by decide

/-- R144, R145, R146, R152, R154, R156: command words in `Unlock2`. -/
theorem test_decode_flash_commands :
    isRow (flashCtx .unlock2) (.flashCmd 0x555590#24) .flIdEnter = true ∧
    isRow (flashCtx .unlock2) (.flashCmd 0x5555F0#24) .flIdExit = true ∧
    isRow (flashCtx .unlock2) (.flashCmd 0x555580#24) .flEraseSetup = true ∧
    isRow (flashCtx .unlock2) (.flashCmd 0x5555A0#24) .flProgramSetup = true ∧
    isRow (flashCtx .unlock2) (.flashCmd 0x5555B0#24) .flBankSetup = true ∧
    isRow (flashCtx .unlock2) (.flashCmd 0x123490#24) (.flUnlock2Other 0x1234#16 0x90#8) = true := by decide

/-- R147, R150, R151, R157, R153, R155, R161. -/
theorem test_decode_flash_rest :
    isRow (flashCtx .idMode) (.flashCmd 0x5555AA#24) (.flIdModeWrite 0x5555#16 0xAA#8) = true ∧
    isRow (flashCtx .eraseUnlock2) (.flashCmd 0x555510#24) .flChipErase = true ∧
    isRow (flashCtx .eraseUnlock2) (.flashCmd 0x300030#24) (.flSectorErase 0x3000#16) = true ∧
    isRow (flashCtx .eraseUnlock2) (.flashCmd 0x300130#24) (.flEraseOther 0x3001#16 0x30#8) = true ∧
    isRow (flashCtx .writeMode) (.flashCmd 0x5555AA#24) (.flProgram 0x5555#16 0xAA#8) = true ∧
    isRow (flashCtx .bankSwitch) (.flashCmd 0x000003#24) (.flBankSelect 0x0000#16 0x03#8) = true ∧
    isRow (flashCtx .idMode) (.flashRead 0x1234#16) (.flRead 0x1234#16) = true := by decide

/-- The table's numbering: transaction codes at 8 bits, command words at 24, a 73-bit frame at 80 (entry 17). -/
theorem test_decode_table_words :
    decodeTableWord 8 0b0101 = some (.writeH 0 0) ∧ decodeTableWord 8 0b1000 = some .power ∧
    decodeTableWord 24 0x5555AA = some (.flUnlock1 0x5555#16 0xAA#8) ∧ decodeTableWord 24 0x555510 = some .flChipErase ∧
    decodeTableWord 24 0x000030 = some (.flSectorErase 0) ∧ decodeTableWord 8 0b1100 = none ∧
    decodeTableWord 80 (2 ^ 72) = some (.eepWriteFrame6 0 0 false) := by decide

/-- A placed table word is what the next step runs, from the machine at creation: a refused code, and FL.UNLOCK1. -/
theorem test_fetch_word :
    refusal? (step (State.reset.withFetchWord 8 0b1100)) = some (.reservedTxn 0b1100#4) ∧
    (next? (step (State.reset.withFetchWord 24 0x5555AA))).map (·.flash.phase) = some .unlock1 ∧
    (next? (step (State.reset.withFetchWord 8 0b1000))).map (·.resp) = some .nothing := by decide

/-! ## Bus, classifier and lifecycle vectors (95_test_vectors.md section 2) -/

/-- B1: with no store, a write into the save window has no effect and reads give the open-bus word. -/
theorem test_B1_open_bus :
    next? (exec (.writeB 0x0E000000#32 0x55#32) (cart .none)) = some { cart .none with resp := .nothing } ∧
    resp? (exec (.readB 0x0E000000#32 0x12345678#32) (cart .none)) = some (.rdata 0x78#32) ∧
    resp? (exec (.readW 0x0E000000#32 0x12345678#32) (cart .none)) = some (.rdata 0x12345678#32) := ⟨rfl, by decide, by decide⟩

/-- B1: null and 0. -/
theorem test_B1_content_pointer :
    resp? (persistenceCall .contentPointer (cart .none)) = some (.pointer none) ∧
    resp? (persistenceCall .contentSize (cart .none)) = some (.size 0) := by decide

/-- B2: the small window, one address outside it on either side. -/
theorem test_B2_small_window :
    [0x0D000000#32, 0x0DFFFFFF#32, 0x1D000004#32, 0x0C000000#32, 0x0E000000#32].map (classify (withEep eep512)) =
      [.serialEEPROM, .serialEEPROM, .serialEEPROM, .programImage, .openBus] := by decide

/-- B3: the large window. -/
theorem test_B3_large_window :
    [0x0D000000#32, 0x0DFFFEFF#32, 0x0DFFFF00#32, 0x0DFFFFFF#32].map
        (classify (withEep { eep512 with winMask := 0x0FFFFF00#32, winMatch := 0x0DFFFF00#32 })) =
      [.programImage, .programImage, .serialEEPROM, .serialEEPROM] := by decide

/-- B4: offset 0x00100005 of a 0x00100000-byte image is its byte 5. -/
theorem test_B4_mirror :
    resp? (exec (.readB 0x08100005#32 0) { cart .none with rom := ⟨0x00100000, [(5, 0xA7#8)]⟩ }) =
      some (.rdata 0xA7#32) := by decide

/-- An image 11 22 33 44. -/
def rom4 : State := { cart .none with rom := ⟨4, [(0, 0x11#8), (1, 0x22#8), (2, 0x33#8), (3, 0x44#8)]⟩ }

/-- B5: misaligned reads are applied at the aligned address below, little-endian. -/
theorem test_B5_alignment :
    resp? (exec (.readH 0x08000001#32 0) rom4) = some (.rdata 0x2211#32) ∧
    resp? (exec (.readW 0x08000003#32 0) rom4) = some (.rdata 0x44332211#32) := by decide

/-- B6: a Half write at an odd address. -/
theorem test_B6_sram_write :
    (next? (exec (.writeH 0x0E000001#32 0xBEEF#32) (withSram []))).map (·.sram.content) =
      some [(0, 0xEF#8), (1, 0xBE#8)] := by decide

/-- B6: the mask 0x7FFF mirrors the array. -/
theorem test_B6_sram_read :
    resp? (exec (.readB 0x0E000001#32 0) (withSram [(0, 0xEF#8), (1, 0xBE#8)])) = some (.rdata 0xBE#32) ∧
    resp? (exec (.readW 0x0E008000#32 0) (withSram [(0, 0xEF#8), (1, 0xBE#8)])) = some (.rdata 0xFFFFBEEF#32) := by decide

/-- R87 at the top of the array: index 0x7FFF holds the byte, and writing 0xFF removes the entry. -/
theorem test_sram_top :
    (next? (exec (.writeB 0x0E007FFF#32 0x5A#32) (withSram []))).map (·.sram.content) = some [(0x7FFF, 0x5A#8)] ∧
    (next? (exec (.writeW 0x0E007FFC#32 0xFFFFFFFF#32) (withSram [(0x7FFF, 0x5A#8)]))).map (·.sram.content) = some [] := by
  decide

/-- B7: the FlashROM window and its mirrors. -/
theorem test_B7_flash_window :
    [0x0E000000#32, 0x0F00FFFF#32, 0x1E001234#32].map (classify (withFlash flash128)) =
      [.flashROM, .flashROM, .flashROM] := by decide

/-- B8, B9: unloaded, an access is refused and POWER has no effect. -/
theorem test_B8_B9_unloaded :
    refusal? (exec (.readB 0x0E000000#32 0) State.reset) = some .unloaded ∧
    next? (exec .power State.reset) = some State.reset := ⟨by decide, rfl⟩

/-- A descriptor with a 16 MiB image. -/
def desc (k : KindName) (n : Nat) : Descriptor := ⟨0x01000000, [], some ⟨k, n, 0x09C2#16⟩, none⟩

/-- The machine at creation with concrete parameters. -/
def fresh : State := { State.reset with params := params0 }

/-- B10 to B13: ConfigurationError and its codes. -/
theorem test_B10_B13_configuration_errors :
    resp? (exec (.load (desc (.unrecognized "Disk") 0)) (cart .none)) = some (.configurationError .badKind) ∧
    resp? (exec (.load ⟨0x02000001, [], none, none⟩) (cart .none)) = some (.configurationError .romTooLarge) ∧
    resp? (exec (.load (desc .serialEEPROM 16384)) (cart .none)) = some (.configurationError .eepTooLarge) ∧
    resp? (exec (.load (desc .flashROM 262144)) (cart .none)) = some (.configurationError .flashTooLarge) ∧
    (next? (exec (.load (desc .flashROM 262144)) (cart .none))).map (·.cart.loaded) = some false := by decide

/-- B14, B16: declared sizes 520, 512, 1024, 8192 and 0. -/
theorem test_B14_B16_width_selection :
    [520, 512, 1024, 8192, 0].map (fun n => (next? (exec (.load (desc .serialEEPROM n)) fresh)).map
        fun s => (s.eep.size, s.eep.bits)) =
      [some (520, some .fourteen), some (512, some .six), some (1024, some .fourteen), some (8192, some .fourteen),
        some (8192, none)] := by decide

/-- B15: a declared size that is no multiple of 8 is refused; so are the other sizes outside R7's sets. -/
theorem test_B15_illegal_size :
    refusal? (exec (.load (desc .serialEEPROM 100)) fresh) = some .illegalSize ∧
    refusal? (exec (.load (desc .flashROM 1000)) fresh) = some .illegalSize ∧
    refusal? (exec (.load (desc .staticRAM 1000)) fresh) = some .illegalSize ∧
    refusal? (exec (.load ⟨0, [], none, none⟩) fresh) = some .illegalSize := by decide

/-- B17: a preseed of 4 bytes, and one longer than the array. -/
theorem test_B17_preseed :
    (next? (exec (.load { desc .serialEEPROM 512 with preseed := some [1, 2, 3, 4] }) fresh)).map (·.eep.content) =
      some [(0, 1#8), (1, 2#8), (2, 3#8), (3, 4#8)] ∧
    (next? (exec (.load { desc .staticRAM 4 with preseed := some [1, 0xFF, 3, 4, 5] }) fresh)).map (·.sram.content) =
      some [(0, 1#8), (2, 3#8), (3, 4#8)] := by decide

/-- R201's example: a 16 MiB image and an 8 KiB EEPROM; an image above 16 MiB moves the window (R42). -/
theorem test_load_window :
    (next? (exec (.load (desc .serialEEPROM 8192)) fresh)).map (fun s => (s.eep.bits, s.eep.winMask, s.eep.winMatch)) =
      some (some .fourteen, 0x0F000000#32, 0x0D000000#32) ∧
    (next? (exec (.load { desc .serialEEPROM 8192 with romSize := 0x01000001 }) fresh)).map
        (fun s => (s.eep.winMask, s.eep.winMatch)) = some (0x0FFFFF00#32, 0x0DFFFF00#32) := by decide

/-- R202: unload keeps the array. -/
theorem test_unload :
    (next? (exec .unload (withFlash { flash128 with content := [(7, 1#8)] }))).map
        (fun s => (s.cart.loaded, s.flash.content)) = some (false, [(7, 1#8)]) := by decide

/-! ## EEPROM vectors (section 3) -/

/-- The EEPROM protocol state after a step. -/
def eep? (r : Result) : Option (EepPhase × EepOp × Nat × BitVec 14) :=
  (next? r).map fun s => (s.eep.phase, s.eep.op, s.eep.count, s.eep.addr)

/-- E10, E11: a 0 in `Idle` is ignored, a 1 starts a frame. -/
theorem test_E10_E11_start :
    eep? (exec (.eepStart false) (withEep eep512)) = some (.idle, .read, 0, 0) ∧
    eep? (exec (.eepStart true) (withEep eep512)) = some (.command, .read, 0, 0) := by decide

/-- E12, E13: bit 0 of the value at any width and any address in the window. -/
theorem test_E12_E13_serial_port :
    eep? (exec (.writeW 0x0D000000#32 0xFFFFFFFE#32) (withEep eep512)) = some (.idle, .read, 0, 0) ∧
    eep? (exec (.writeB 0x0D123457#32 0x01#32) (withEep eep512)) = some (.command, .read, 0, 0) := by decide

/-- E14, E15: the request type clears what was received. -/
theorem test_E14_E15_request :
    eep? (exec .eepReqRead (withEep { eep512 with phase := .command, count := 3, addr := 9 })) =
      some (.address, .read, 0, 0) ∧
    eep? (exec .eepReqWrite (withEep { eep512 with phase := .command })) = some (.address, .write, 0, 0) := by decide

/-- E16, E17: the last address bit latches. -/
theorem test_E16_E17_latch :
    eep? (exec (.eepAddrBit true) (withEep { eep512 with phase := .address, count := 5, addr := 1 })) =
      some (.readStop, .read, 0, 3) ∧
    eep? (exec (.eepAddrBit true) (withEep { eep512 with phase := .address, op := .write, count := 5, addr := 1 })) =
      some (.writeData, .write, 0, 3) := by decide

/-- E18, E22: a stop bit of value 1 is accepted. -/
theorem test_E18_E22_stop :
    eep? (exec (.eepReadStop true) (withEep { eep512 with phase := .readStop, addr := 3 })) =
      some (.readData, .read, 0, 3) ∧
    eep? (exec (.eepWriteStop true) (withEep { eep512 with phase := .writeStop, op := .write, addr := 3, buf := 5 })) =
      some (.idle, .read, 0, 0) := by decide

/-- E19, E20, E23, E30: a read outside read data returns 1 and changes nothing. -/
theorem test_E19_E30_idle_reads :
    next? (exec .eepReadIdle (withEep { eep512 with phase := .readStop })) =
      some { withEep { eep512 with phase := .readStop } with resp := .rdata 1 } ∧
    next? (exec .eepReadIdle (withEep { eep512 with phase := .writeData, op := .write, count := 10 })) =
      some { withEep { eep512 with phase := .writeData, op := .write, count := 10 } with resp := .rdata 1 } ∧
    next? (exec .eepReadIdle (withEep eep512)) = some { withEep eep512 with resp := .rdata 1 } := ⟨rfl, rfl, rfl⟩

/-- E21: the 64th data bit commits the block, most significant byte first. -/
theorem test_E21_commit :
    (next? (exec (.eepDataBit true) (withEep { eep512 with
        phase := .writeData, op := .write, count := 63, addr := 3, buf := 0x0091A2B3C4D5E6F7#64 }))).map
        (fun s => (s.eep.phase, s.eep.content)) =
      some (.writeStop, [(24, 0x01#8), (25, 0x23#8), (26, 0x45#8), (27, 0x67#8), (28, 0x89#8), (29, 0xAB#8),
        (30, 0xCD#8), (31, 0xEF#8)]) := by decide

/-- R117: a data bit before the 64th commits nothing. -/
theorem test_data_bit_commits_nothing :
    (next? (exec (.eepDataBit true) (withEep { eep512 with
        phase := .writeData, op := .write, count := 62, addr := 3, buf := 0 }))).map
        (fun s => (s.eep.phase, s.eep.count, s.eep.buf, s.eep.content)) = some (.writeData, 63, 1, []) := by decide

/-- E24, E25: a write in `ReadData` aborts; a 1 starts a new frame. -/
theorem test_E24_E25_abort :
    eep? (exec (.eepAbortRead true) (withEep { eep512 with phase := .readData, count := 5, addr := 3 })) =
      some (.command, .read, 0, 0) ∧
    eep? (exec (.eepAbortRead false) (withEep { eep512 with phase := .readData, count := 5, addr := 3 })) =
      some (.idle, .read, 0, 0) := by decide

/-- Block 3 holds 80 00 00 00 00 00 00 01, read number `c`. -/
def reading (c : Nat) : Eep :=
  { eep512 with phase := .readData, count := c, addr := 3, content := [(24, 0x80#8), (25, 0#8), (31, 1#8)] }

/-- E26, E29: data bits 0 and 1, and a Word read. -/
theorem test_E26_E29_data_bits :
    resp? (exec .eepReadBit (withEep (reading 0))) = some (.rdata 1) ∧
    resp? (exec .eepReadBit (withEep (reading 1))) = some (.rdata 0) ∧
    resp? (exec (.readW 0x0D000000#32 0x7777#32) (withEep (reading 0))) = some (.rdata 1) ∧
    eep? (exec .eepReadBit (withEep (reading 0))) = some (.readData, .read, 1, 3) := by decide

/-- E27, E28: the last read returns data bit 63 and ends the data; a lead-in bit is a value drawn. -/
theorem test_E27_E28_last_and_lead_in :
    resp? (exec .eepReadBit { withEep (reading 67) with params := params4 }) = some (.rdata 1) ∧
    eep? (exec .eepReadBit { withEep (reading 67) with params := params4 }) = some (.idle, .read, 0, 0) ∧
    eep? (exec .eepReadBit { withEep (reading 3) with params := params4 }) = some (.readData, .read, 4, 3) ∧
    (next? (exec .eepReadBit { withEep (reading 3) with params := params4 })).map (·.draws) = some 1 := by decide

/-- E31: POWER in a write frame keeps content and width. -/
theorem test_E31_power :
    next? (exec .eepPower (withEep { eep512 with phase := .writeData, op := .write, count := 30, buf := 5 })) =
      some { withEep eep512 with resp := .nothing } := rfl

set_option maxRecDepth 8000 in
/-- E1: a write frame for block 63; R108 replaces the old content. -/
theorem test_E1_E4_write_frame :
    (next? (exec (.eepWriteFrame6 63#6 0x8000000000000001#64 false) (withEep { eep512 with content := [(505, 7#8)] }))).map
        (fun s => s.eep.content) =
      some [(504, 0x80#8), (505, 0#8), (506, 0#8), (507, 0#8), (508, 0#8), (509, 0#8), (510, 0#8), (511, 1#8)] := by decide

set_option maxRecDepth 8000 in
/-- E3: block 1027 mod 1024 = 3. -/
theorem test_E3_write_frame14 :
    (next? (exec (.eepWriteFrame14 1027#14 0x1111111111111111#64 true) (withEep eep8192))).map (·.eep.content) =
      some [(24, 0x11#8), (25, 0x11#8), (26, 0x11#8), (27, 0x11#8), (28, 0x11#8), (29, 0x11#8), (30, 0x11#8),
        (31, 0x11#8)] := by decide

/-- R120's example, and a 14-bit frame. -/
theorem test_read_frames :
    eep? (exec (.eepReadFrame6 3#6 false) (withEep eep512)) = some (.readData, .read, 0, 3) ∧
    eep? (exec (.eepReadFrame14 0x3FF#14 true) (withEep eep8192)) = some (.readData, .read, 0, 0x3FF) := by decide

/-- E44: at width 6 the 14-bit read frame of k = 5 is a 6-bit frame whose stop bit is its seventh address bit, an aborted
read, ignored 0 bits, and the start of a write request with two address bits. -/
theorem test_E44_frame_of_another_width :
    eep? (exec (.eepReadFrame14 5#14 false) (withEep eep512)) = some (.address, .write, 2, 2) := by decide

/-- R120's example one bit at a time, and bits while another store is active (entry 5). -/
theorem test_send_bits :
    eep? (sendBits (bin [1, 1, 0, 0, 0, 0, 1, 1, 0]) (withEep eep512)) = some (.readData, .read, 0, 3) ∧
    refusal? (sendBits (bin [1, 1]) (inPhase .idle)) = some .engineInactive := by decide

/-- Reads taken one at a time: data bits 0 and 1 of block 3. -/
theorem test_take_reads : resp? (takeReads 2 [] (withEep (reading 0))) = some (.bits [true, false]) := by decide

/-- E1: the 64 data reads: 1, then 62 zeros, then 1. -/
theorem test_E1_read64 :
    resp? (exec .eepRead64 (withEep { reading 0 with content := [(24, 0x80#8), (25, 0#8), (26, 0#8), (27, 0#8),
        (28, 0#8), (29, 0#8), (30, 0#8), (31, 1#8)] })) =
      some (.bits ([true] ++ List.replicate 62 false ++ [true])) := by decide

/-- R67: with four lead-in bits, 68 reads, of which four are drawn. -/
theorem test_read64_lead_in :
    (next? (exec .eepRead64 { withEep (reading 0) with params := params4 })).map (fun s => (s.draws, s.eep.phase)) =
      some (4, .idle) := by decide

/-- E40: a 6-bit read frame and one read. -/
theorem test_E40_detect_read :
    (next? (exec (.eepFrameUnresolved true (bin [0, 0, 0, 0, 1, 1, 0])) (withEep { eepUnresolved with
        content := [(24, 0x7F#8)] }))).map (fun s => (s.eep.bits, s.eep.phase, s.eep.count, s.eep.addr, s.resp)) =
      some (some .six, .readData, 1, 3, .rdata 0) := by decide

set_option maxRecDepth 8000 in
/-- E41: a 14-bit write frame and one read. -/
theorem test_E41_detect_write :
    (next? (exec (.eepFrameUnresolved false (bin [0, 0, 0, 0, 0, 0, 0, 0, 0, 0, 0, 1, 0, 1] ++ data4 ++ [false]))
        (withEep eepUnresolved))).map (fun s => (s.eep.bits, s.eep.phase, s.resp, s.eep.content)) =
      some (some .fourteen, .idle, .rdata 1, [(40, 0xDE#8), (41, 0xAD#8), (42, 0xBE#8), (43, 0xEF#8), (44, 0xCA#8),
        (45, 0xFE#8), (46, 0xF0#8), (47, 0x0D#8)]) := by decide

/-- E42: five stream bits resolve nothing. -/
theorem test_E42_detect_fails :
    next? (exec .eepReadDetect (withEep { eepUnresolved with phase := .address, stream := bin [0, 0, 1, 0, 1] })) =
      some { withEep eepUnresolved with resp := .rdata 1 } := rfl

/-- E43: the 79th stream bit is kept, the 80th aborts. -/
theorem test_E43_stream_cap :
    (next? (exec (.eepStreamBit false) (withEep { eepUnresolved with
        phase := .address, op := .write, stream := List.replicate 78 false }))).map
        (fun s => (s.eep.phase, s.eep.stream.length)) = some (.address, 79) ∧
    next? (exec (.eepStreamBit false) (withEep { eepUnresolved with
        phase := .address, op := .write, stream := List.replicate 79 false })) = some (withEep eepUnresolved) := by decide

/-! ## FlashROM vectors (section 4) -/

/-- The FlashROM phase after a step. -/
def flash? (r : Result) : Option FlashPhase := (next? r).map (·.flash.phase)

/-- F1, F2: out of sequence in `Idle`. -/
theorem test_F1_F2_idle :
    next? (exec (.flUnlock1 0x1234#16 0x00#8) (inPhase .idle)) = some (inPhase .idle) ∧
    flash? (exec (.flUnlock1 0x5555#16 0xA0#8) (inPhase .idle)) = some .idle ∧
    flash? (exec (.flUnlock1 0x5555#16 0xAA#8) (inPhase .idle)) = some .unlock1 := ⟨rfl, by decide, by decide⟩

/-- F3, F4: out of sequence in `Unlock1`. -/
theorem test_F3_F4_unlock2 :
    flash? (exec (.flUnlock2 0x5555#16 0xAA#8) (inPhase .unlock1)) = some .idle ∧
    flash? (exec (.flUnlock2 0x2AAB#16 0x55#8) (inPhase .unlock1)) = some .idle ∧
    flash? (exec (.flUnlock2 0x2AAA#16 0x55#8) (inPhase .unlock1)) = some .unlock2 := by decide

/-- F5, F6, F9: other words and the ID command in `Unlock2`. -/
theorem test_F5_F6_F9_unlock2_words :
    next? (exec (.flUnlock2Other 0x5555#16 0x10#8) (inPhase .unlock2)) = some (inPhase .idle) ∧
    flash? (exec (.flUnlock2Other 0x1234#16 0x90#8) (inPhase .unlock2)) = some .idle ∧
    flash? (exec .flIdEnter (inPhase .unlock2)) = some .idMode := ⟨rfl, by decide, by decide⟩

/-- R145, R146, R152: the other commands. -/
theorem test_commands :
    flash? (exec .flIdExit (inPhase .unlock2)) = some .idle ∧
    flash? (exec .flEraseSetup (inPhase .unlock2)) = some .eraseArmed ∧
    flash? (exec .flProgramSetup (inPhase .unlock2)) = some .writeMode ∧
    flash? (exec .flBankSetup (inPhase .unlock2)) = some .bankSwitch := by decide

/-- F7, R148, R149: the second unlock. -/
theorem test_F7_erase_unlock :
    flash? (exec (.flEraseUnlock1 0x5555#16 0x90#8) (inPhase .eraseArmed)) = some .idle ∧
    flash? (exec (.flEraseUnlock1 0x5555#16 0xAA#8) (inPhase .eraseArmed)) = some .eraseUnlock1 ∧
    flash? (exec (.flEraseUnlock2 0x2AAA#16 0x55#8) (inPhase .eraseUnlock1)) = some .eraseUnlock2 ∧
    flash? (exec (.flEraseUnlock2 0x5555#16 0x55#8) (inPhase .eraseUnlock1)) = some .idle := by decide

/-- F8: 0x30 at 0x3001 erases nothing. -/
theorem test_F8_erase_other :
    (next? (exec (.flEraseOther 0x3001#16 0x30#8) (withFlash { flash128 with
        phase := .eraseUnlock2, content := [(0x3001, 0#8)] }))).map (fun s => (s.flash.phase, s.flash.content)) =
      some (.idle, [(0x3001, 0#8)]) := by decide

/-- F10, F11: identifier bytes, in either bank. -/
theorem test_F10_F11_id :
    resp? (exec (.flRead 0#16) (inPhase .idMode)) = some (.rdata 0xC2) ∧
    resp? (exec (.flRead 1#16) (inPhase .idMode)) = some (.rdata 0x09) ∧
    resp? (exec (.readH 0x0E000000#32 0) (withFlash { flash128 with phase := .idMode, bank := 1 })) =
      some (.rdata 0x09C2) ∧
    (next? (exec (.readB 0x0E000002#32 0) (inPhase .idMode))).map (·.draws) = some 1 := by decide

/-- F12, F13: a write in `IdMode`. -/
theorem test_F12_F13_id_mode_write :
    flash? (exec (.flIdModeWrite 0x5555#16 0xAA#8) (inPhase .idMode)) = some .unlock1 ∧
    flash? (exec (.flIdModeWrite 0x0000#16 0x00#8) (inPhase .idMode)) = some .idle := by decide

/-- F15: POWER keeps the bank. -/
theorem test_F15_power :
    next? (exec .flPower (withFlash { flash128 with phase := .idMode, bank := 1 })) =
      some (withFlash { flash128 with bank := 1 }) := rfl

/-- F16: a Word read is aligned and little-endian, in any phase. -/
theorem test_F16_word_read :
    resp? (exec (.readW 0x0E000102#32 0) (withFlash { flash128 with
        phase := .unlock2, content := [(0x100, 0x11#8), (0x101, 0x22#8), (0x102, 0x33#8), (0x103, 0x44#8)] })) =
      some (.rdata 0x44332211) := by decide

/-- F17, F18: wide writes are aligned down and lose the odd command offset; a Byte write does not. -/
theorem test_F17_F18_wide_writes :
    flash? (exec (.writeH 0x0E005555#32 0x00AA#32) (inPhase .idle)) = some .idle ∧
    flash? (exec (.writeW 0x0E005555#32 0x000000AA#32) (inPhase .idle)) = some .idle ∧
    flash? (exec (.writeB 0x0E005555#32 0xAA#32) (inPhase .idle)) = some .unlock1 := by decide

/-- F19, F22: a program ANDs, at any offset. -/
theorem test_F19_F22_program :
    (next? (exec (.flProgram 0x0123#16 0x3C#8) (withFlash { flash128 with
        phase := .writeMode, content := [(0x123, 0xF0#8)] }))).map (·.flash.content) = some [(0x123, 0x30#8)] ∧
    (next? (exec (.flProgram 0x5555#16 0xAA#8) (inPhase .writeMode))).map (·.flash.content) = some [(0x5555, 0xAA#8)] := by
  decide

/-- F23: a chip erase takes both banks and keeps the bank. -/
theorem test_F23_chip_erase :
    next? (exec .flChipErase (withFlash { flash128 with
        phase := .eraseUnlock2, bank := 1, content := [(0, 0#8), (0x1FFFF, 0#8)] })) =
      some (withFlash { flash128 with bank := 1 }) := by decide

/-- F24: the sector of bank 1, and the bytes just outside it. -/
theorem test_F24_sector_erase :
    (next? (exec (.flSectorErase 0x3000#16) (withFlash { flash128 with
        phase := .eraseUnlock2, bank := 1,
        content := [(0x3000, 1#8), (0x12FFF, 2#8), (0x13000, 3#8), (0x13FFF, 4#8), (0x14000, 5#8)] }))).map
        (·.flash.content) = some [(0x3000, 1#8), (0x12FFF, 2#8), (0x14000, 5#8)] := by decide

/-- F25: a 64 KiB part has no bank command. -/
theorem test_F25_bank_setup :
    next? (exec .flBankSetup (withFlash { flash128 with size := 65536, phase := .unlock2 })) =
      some (withFlash { flash128 with size := 65536 }) := rfl

/-- F26, F27: the bank is `v mod 2`, at offset 0 only. -/
theorem test_F26_F27_bank_select :
    next? (exec (.flBankSelect 0x0000#16 0x03#8) (inPhase .bankSwitch)) = some (withFlash { flash128 with bank := 1 }) ∧
    next? (exec (.flBankSelect 0x0001#16 0x00#8) (withFlash { flash128 with phase := .bankSwitch, bank := 1 })) =
      some (withFlash { flash128 with bank := 1 }) := by decide

/-- F28, F30: a read resolves into the bank and keeps the phase. -/
theorem test_F28_F30_read :
    resp? (exec (.readB 0x0E000010#32 0) (withFlash { flash128 with bank := 1, content := [(0x10010, 9#8)] })) =
      some (.rdata 9) ∧
    flash? (exec (.flRead 0#16) (inPhase .eraseArmed)) = some .eraseArmed := by decide

/-! ## Memory and persistence -/

/-- The memory at creation, and one a write leaves, are in canonical form. -/
theorem test_memory_wf :
    Memory.wf State.reset.eep.content = true ∧ Memory.wf (Memory.write [(3, 1#8)] 2 5#8) = true ∧
    Memory.wf [(3, 1#8), (2, 5#8)] = false ∧ Memory.wf [(3, 0xFF#8)] = false := by decide

/-- R95: a host write keeps the phase; past the size it is refused. -/
theorem test_persistence :
    next? (persistenceCall (.writeContent 511 7#8) (withEep { eep512 with phase := .command })) =
      some (withEep { eep512 with phase := .command, content := [(511, 7#8)] }) ∧
    resp? (persistenceCall (.readContent 511) (withEep eep512)) = some (.contentByte 0xFF#8) ∧
    refusal? (persistenceCall (.writeContent 512 7#8) (withEep eep512)) = some .contentOutOfRange := by decide

/-- An engine row while another store is active, and a row delivered in another phase than its own (entries 4, 5). -/
theorem test_engine_rows_elsewhere :
    refusal? (exec (.eepStart true) (inPhase .idle)) = some .engineInactive ∧
    refusal? (exec (.flRead 0#16) State.reset) = some .unloaded ∧
    eep? (exec (.eepStart true) (withEep { eep512 with phase := .command })) = some (.address, .read, 0, 0) := by decide


/-! ## A state and operands that meet the hypotheses of each statement -/

/-- The invariant of a state, from its parts on closed terms. -/
theorem inv_of {s : State} (h1 : s.cart.loaded = true → legalConfig s = true)
    (h2 : s.eep.stream ≠ [] → s.eep.bits = none ∧ s.eep.phase = .address) (h3 : s.eep.stream.length ≤ eepStreamCap)
    (h4 : eepCountOk s.params s.eep = true) (h5 : s.eep.phase = .idle → eepToIdle s.eep = s.eep)
    (h6 : s.flash.size = flashBankSize → s.flash.bank = 0) (h7 : s.flash.phase = .bankSwitch → s.flash.size = flashMax)
    (h8 : (s.eep.content.wf && s.eep.content.within s.eep.size && s.flash.content.wf && s.flash.content.within s.flash.size
      && s.sram.content.wf && s.sram.content.within s.sram.size && s.rom.image.wf && s.rom.image.within s.rom.size) = true) :
    s.Inv := by
  simp only [Bool.and_eq_true] at h8
  exact ⟨h1, ⟨h2, h3, h4, h5, h8.1.1.1.1.1.1.1, h8.1.1.1.1.1.1.2⟩, ⟨h6, h7, h8.1.1.1.1.1.2, h8.1.1.1.1.2⟩,
    h8.1.1.1.2, h8.1.1.2, h8.1.2, h8.2⟩

/-- An EEPROM in `WriteData` after `c` data bits. -/
def writing (c : Nat) : State := withEep { eep512 with phase := .writeData, op := .write, count := c, addr := 63, buf := 5 }

/-- An EEPROM of unresolved width that has received the stream `bs` of a request `op`. -/
def streaming (op : EepOp) (bs : List Bool) : State :=
  withEep { eepUnresolved with phase := .address, op := op, stream := bs }

/-- The longest stream: a 14-bit write frame's tail. -/
def stream79 : List Bool := List.replicate 79 true

/-- An 8 KiB EEPROM behind the large window. -/
def largeImage : State :=
  { withEep { eep8192 with winMask := 0x0FFFFF00#32, winMatch := 0x0DFFFF00#32 } with rom := ⟨0x01000001, []⟩ }

/-- A 64 KiB FlashROM. -/
def flash64 : State := withFlash { flash128 with size := 65536 }

/-- A byte written into bank 1. -/
def flashByte1 (p : FlashPhase) : State :=
  withFlash { flash128 with phase := p, bank := 1, content := [(0x1FFFF, 0x5A#8)] }

theorem test_inv_eeprom : (withEep eep512).Inv ∧ (withEep eep8192).Inv ∧ (withEep eepUnresolved).Inv ∧ largeImage.Inv :=
  ⟨inv_of (by decide) (by decide) (by decide) (by decide) (by decide) (by decide) (by decide) (by decide),
    inv_of (by decide) (by decide) (by decide) (by decide) (by decide) (by decide) (by decide) (by decide),
    inv_of (by decide) (by decide) (by decide) (by decide) (by decide) (by decide) (by decide) (by decide),
    inv_of (by decide) (by decide) (by decide) (by decide) (by decide) (by decide) (by decide) (by decide)⟩

theorem test_inv_eeprom_writing : (writing 0).Inv ∧ (writing 63).Inv ∧ (streaming .write stream79).Inv :=
  ⟨inv_of (by decide) (by decide) (by decide) (by decide) (by decide) (by decide) (by decide) (by decide),
    inv_of (by decide) (by decide) (by decide) (by decide) (by decide) (by decide) (by decide) (by decide),
    inv_of (by decide) (by decide) (by decide) (by decide) (by decide) (by decide) (by decide) (by decide)⟩

theorem test_inv_flash : (inPhase .idle).Inv ∧ flash64.Inv ∧ (flashByte1 .eraseUnlock2).Inv ∧ (flashByte1 .writeMode).Inv :=
  ⟨inv_of (by decide) (by decide) (by decide) (by decide) (by decide) (by decide) (by decide) (by decide),
    inv_of (by decide) (by decide) (by decide) (by decide) (by decide) (by decide) (by decide) (by decide),
    inv_of (by decide) (by decide) (by decide) (by decide) (by decide) (by decide) (by decide) (by decide),
    inv_of (by decide) (by decide) (by decide) (by decide) (by decide) (by decide) (by decide) (by decide)⟩

theorem test_inv_context : (withSram [(0x7FFF, 1#8)]).Inv ∧ rom4.Inv :=
  ⟨inv_of (by decide) (by decide) (by decide) (by decide) (by decide) (by decide) (by decide) (by decide),
    inv_of (by decide) (by decide) (by decide) (by decide) (by decide) (by decide) (by decide) (by decide)⟩

/-- DecodeOfEncodeIsTheRow, at the edges of WellFormed. -/
theorem test_witness_decode_of_encode :
    (Instr.flSectorErase 0xF000#16).WellFormed ∧ selects (flashCtx .eraseUnlock2) (.flSectorErase 0xF000#16) = true ∧
    (Instr.flUnlock2Other 0x5555#16 0x10#8).WellFormed ∧
      selects (flashCtx .unlock2) (.flUnlock2Other 0x5555#16 0x10#8) = true ∧
    selects (eepCtx .address (some .six)) (.eepAddrBit true) = true := by decide

/-- DecodedRowEncodesBack, with a POWER call whose unused fields are not 0. -/
theorem test_witness_decoded_row :
    encode .eepPower = .txn4 0b1000#4 0 0 ∧
    decode (eepCtx .idle none) (.txn4 0b1000#4 5#32 7#32) = .ok .eepPower ∧
    decode (eepCtx .idle none) (.eepBit true) = .ok (.eepStart true) := ⟨rfl, rfl, rfl⟩

/-- `s` with one packet to come. -/
def queue (s : State) (p : Packet) : State := { s with input := [.packet p] }

/-- ReservedCodesAreRefused: the codes where its two clauses meet. -/
theorem test_witness_reserved :
    (queue (cart .none) (.txn4 0b1001#4 0 0)).input = .packet (.txn4 0b1001#4 0 0) :: [] ∧
    reservedCode 0b1001#4 ∧ ¬reservedCode 0b1000#4 ∧ reservedCode 0b0111#4 ∧ ¬reservedCode 0b0110#4 ∧
    reservedCode 0b1100#4 ∧ reservedCode 0b0011#4 := by
  refine ⟨rfl, ?_⟩
  unfold reservedCode
  decide

/-- StepRunsTheDecodedRow: the four clauses. -/
theorem test_witness_step :
    (cart .none).input = [] ∧
    decode (decodeCtx (queue (withEep eep512) (.eepBit true))) (.eepBit true) = .ok (.eepStart true) ∧
    (Instr.eepStart true).WellFormed ∧
    decode (decodeCtx (queue (cart .none) (.eepFrame []))) (.eepFrame []) = .error .notAFrame ∧
    ({ cart .none with input := [.persistence .contentSize] } : State).input = .persistence .contentSize :: [] :=
  ⟨rfl, rfl, rfl, rfl, rfl⟩

/-- EveryStepKeepsTheInvariant: a committing step. -/
theorem test_witness_invariant :
    (queue (writing 63) (.eepBit true)).Inv ∧ ∃ s', step (queue (writing 63) (.eepBit true)) = .next s' :=
  ⟨inv_of (by decide) (by decide) (by decide) (by decide) (by decide) (by decide) (by decide) (by decide), _, rfl⟩

/-- LoadedTransactionsNeverFail. -/
theorem test_witness_never_fail :
    (queue (inPhase .idle) (.txn4 0b0110#4 0 0)).cart.loaded = true ∧ ¬reservedCode 0b0110#4 ∧
    (queue (inPhase .idle) (.txn4 0b0110#4 0 0)).input = .packet (.txn4 0b0110#4 0 0) :: [] :=
  ⟨rfl, by unfold reservedCode; decide, rfl⟩

/-- OnlyLoadChangesTheConfiguration: UNLOAD, a step with a known width, and the detecting read. -/
theorem test_witness_configuration :
    isLoad .unload = false ∧ (∃ s', exec .unload (withEep eep512) = .next s') ∧
    isLoad .eepReadDetect = false ∧ (∃ s', exec .eepReadDetect (streaming .read (bin [0, 0, 0, 0, 1, 1, 0])) = .next s') ∧
    (withEep eep512).eep.bits = some .six := ⟨rfl, ⟨_, rfl⟩, rfl, ⟨_, rfl⟩, rfl⟩

/-- EepromContentChangesOnlyInACommit: the content does change in both of its cases. -/
theorem test_witness_commit :
    isLoad (.eepDataBit true) = false ∧ isFrame (.eepDataBit true) = false ∧
    (∃ s', exec (.eepDataBit true) (writing 63) = .next s' ∧ s'.eep.content ≠ (writing 63).eep.content) ∧
    isFrame .eepReadDetect = false ∧
    ((next? (exec .eepReadDetect (streaming .write (bin [0, 0, 0, 0, 1, 1] ++ data1 ++ [false])))).map (·.eep.content)).isSome ∧
    (next? (exec .eepReadDetect (streaming .write (bin [0, 0, 0, 0, 1, 1] ++ data1 ++ [false])))).map (·.eep.content) ≠
      some [] :=
  ⟨rfl, rfl, ⟨_, rfl, by decide⟩, rfl, by decide, by decide⟩

/-- FlashContentAndBankChangeOnlyInTheirPhases: each change, and an unexpected word in `Unlock1` and in `Unlock2`. -/
theorem test_witness_flash_changes :
    (∃ s', exec (.flProgram 0xFFFF#16 0x0F#8) (flashByte1 .writeMode) = .next s' ∧
      s'.flash.content ≠ (flashByte1 .writeMode).flash.content) ∧
    (∃ s', exec .flChipErase (flashByte1 .eraseUnlock2) = .next s' ∧
      s'.flash.content ≠ (flashByte1 .eraseUnlock2).flash.content) ∧
    (∃ s', exec (.flBankSelect 0#16 1#8) (inPhase .bankSwitch) = .next s' ∧
      s'.flash.bank ≠ (inPhase .bankSwitch).flash.bank) ∧
    isUnlock2 0x5555#16 0xAA#8 = false ∧ isUnlock2Command 0x5555#16 0x10#8 = false ∧
    (inPhase .unlock1).flash.phase = .unlock1 ∧ (inPhase .unlock2).flash.phase = .unlock2 :=
  ⟨⟨_, rfl, by decide⟩, ⟨_, rfl, by decide⟩, ⟨_, rfl, by decide⟩, by decide, by decide, rfl, rfl⟩

/-- InactiveBackingStoresAreUntouched: a step in each of the three cases. -/
theorem test_witness_inactive :
    isLoad (.flProgram 0#16 0#8) = false ∧ ¬(inPhase .writeMode).EepromActive ∧ ¬(withEep eep512).FlashActive ∧
    ¬((withEep eep512).cart.loaded = true ∧ (withEep eep512).cart.kind = .staticRAM) ∧
    (∃ s', exec (.flProgram 0#16 0#8) (inPhase .writeMode) = .next s') ∧
    ∃ s', exec (.eepStart true) (withEep eep512) = .next s' :=
  ⟨rfl, by decide, by decide, by decide, ⟨_, rfl⟩, ⟨_, rfl⟩⟩

/-- EngineRowsNeedTheirEngine: its three clauses. -/
theorem test_witness_engine_rows :
    engineOf (.eepStart true) = some .serialEEPROM ∧ State.reset.cart.loaded = false ∧
    ((inPhase .idle).cart.loaded = true ∧ (inPhase .idle).cart.kind ≠ .serialEEPROM) ∧
    engineOf (.flRead 0#16) = some .flashROM ∧ ((inPhase .idle).cart.loaded = true ∧ (inPhase .idle).cart.kind = .flashROM) := by
  decide

/-- UnloadedAccessIsRefused. -/
theorem test_witness_unloaded : State.reset.cart.loaded = false := rfl

/-- AddressMapIsTheSpecs: each kind, and the image sizes on both sides of 16 MiB. -/
theorem test_witness_address_map :
    (rom4.Inv ∧ rom4.cart.loaded = true ∧ rom4.cart.kind = .none) ∧
    ((withSram [(0x7FFF, 1#8)]).Inv ∧ (withSram [(0x7FFF, 1#8)]).cart.kind = .staticRAM) ∧
    ((inPhase .idle).Inv ∧ (inPhase .idle).cart.kind = .flashROM) ∧
    ((withEep eep512).Inv ∧ (withEep eep512).cart.kind = .serialEEPROM ∧ (withEep eep512).rom.size ≤ 0x01000000) ∧
    (largeImage.Inv ∧ largeImage.cart.kind = .serialEEPROM ∧ 0x01000000 < largeImage.rom.size) :=
  ⟨⟨test_inv_context.2, rfl, rfl⟩, ⟨test_inv_context.1, rfl⟩, ⟨test_inv_flash.1, rfl⟩,
    ⟨test_inv_eeprom.1, rfl, by decide⟩, test_inv_eeprom.2.2.2, rfl, by decide⟩

/-- ProgramImageReadIsMirrored, StaticRamReadIsMasked, StaticRamWriteStoresItsBytes, OpenBusAndImageWritesDoNothing: the
edges of each target. -/
theorem test_witness_context_targets :
    rom4.cart.loaded = true ∧ classify rom4 0x00000000#32 = .programImage ∧ classify rom4 0x0DFFFFFF#32 = .programImage ∧
    classify rom4 0x0E000000#32 = .openBus ∧ classify rom4 0xFFFFFFFF#32 = .openBus ∧
    (withSram [(0x7FFF, 1#8)]).cart.loaded = true ∧ classify (withSram [(0x7FFF, 1#8)]) 0x0E000000#32 = .staticRAM ∧
    classify (withSram [(0x7FFF, 1#8)]) 0xFFFFFFFF#32 = .staticRAM := by decide

/-- EepromAccessIsOneSerialBit, FlashWriteIsOneByteWrite, FlashReadIsComposedOfBytes: the edges of the windows, in ID mode
and out of it. -/
theorem test_witness_engine_targets :
    (withEep eep512).cart.loaded = true ∧ classify (withEep eep512) 0x0D000000#32 = .serialEEPROM ∧
    classify (withEep eep512) 0xFDFFFFFF#32 = .serialEEPROM ∧ (inPhase .idle).cart.loaded = true ∧
    classify (inPhase .idle) 0x0E000000#32 = .flashROM ∧ classify (inPhase .idle) 0xFFFFFFFF#32 = .flashROM ∧
    classify (inPhase .idMode) 0x0E000000#32 = .flashROM ∧ (inPhase .idMode).flash.phase = .idMode := by decide

/-- PowerResetsOnlyTheProtocol: its three clauses. -/
theorem test_witness_power :
    (writing 30).EepromActive ∧ (inPhase .idMode).FlashActive ∧ ¬State.reset.EepromActive ∧ ¬State.reset.FlashActive := by
  decide

/-- LoadOfAnEeprom: the declared sizes and image sizes at the edges of their ranges. -/
theorem test_witness_load_eeprom :
    (∀ n ∈ [0, 8, 512, 520, 8192], (desc .serialEEPROM n).store = some ⟨.serialEEPROM, n, 0x09C2#16⟩ ∧ n % 8 = 0 ∧
      n ≤ 8192) ∧
    1 ≤ (desc .serialEEPROM 0).romSize ∧ (desc .serialEEPROM 0).romSize ≤ 0x02000000 ∧
    1 ≤ ({ desc .serialEEPROM 8 with romSize := 0x02000000 } : Descriptor).romSize := by decide

/-- LoadOfAFlashRom and LoadOfAStaticRamOrNone: each declared size and kind. -/
theorem test_witness_load_others :
    (desc .flashROM 65536).store = some ⟨.flashROM, 65536, 0x09C2#16⟩ ∧
    (desc .flashROM 131072).store = some ⟨.flashROM, 131072, 0x09C2#16⟩ ∧
    (∀ k ∈ [KindName.flashROM, .staticRAM, .fram], 1 ≤ (desc k 4).romSize ∧ (desc k 4).romSize ≤ 0x02000000) ∧
    (desc .staticRAM 4).store = some ⟨.staticRAM, 2 ^ 2, 0x09C2#16⟩ ∧ 2 ^ 2 ≤ fresh.params.sramMax ∧
    (desc .fram 32768).store = some ⟨.fram, 2 ^ 15, 0x09C2#16⟩ ∧ 2 ^ 15 ≤ fresh.params.sramMax ∧
    (⟨1, [], none, none⟩ : Descriptor).store = none := by decide

/-- LoadRaisesConfigurationError: every code one above its maximum, and its second clause. -/
theorem test_witness_configuration_error :
    raises params0 (desc (.unrecognized "Disk") 0) .badKind ∧ raises params0 ⟨0x02000001, [], none, none⟩ .romTooLarge ∧
    raises params0 (desc .serialEEPROM 8193) .eepTooLarge ∧ raises params0 (desc .flashROM 131073) .flashTooLarge ∧
    raises params0 (desc .fram 32769) .sramTooLarge ∧
    ∃ s', exec (.load (desc .flashROM 131073)) fresh = .next s' ∧ s'.resp = .configurationError .flashTooLarge := by
  refine ⟨⟨_, "Disk", rfl, rfl⟩, ?_, ⟨_, rfl, rfl, by decide⟩, ⟨_, rfl, rfl, by decide⟩, ⟨_, rfl, .inr rfl, by decide⟩,
    _, rfl, rfl⟩
  show 0x02000000 < 0x02000001
  decide

/-- IllegalSizesAreRefused: each kind, at the edges of its legal set. -/
theorem test_witness_illegal_sizes :
    (∀ k ∈ [KindName.serialEEPROM, .flashROM, .staticRAM, .fram], (desc k 8191).romSize ≤ 0x02000000) ∧
    ((desc .serialEEPROM 8191).store = some ⟨.serialEEPROM, 8191, 0x09C2#16⟩ ∧ 8191 ≤ 8192 ∧ 8191 % 8 ≠ 0) ∧
    ((desc .flashROM 131071).store = some ⟨.flashROM, 131071, 0x09C2#16⟩ ∧ 131071 < 131072 ∧ 131071 ≠ 65536) ∧
    ((desc .fram 2).store = some ⟨.fram, 2, 0x09C2#16⟩ ∧ 2 ≤ fresh.params.sramMax ∧ 2 < 4) ∧
    ((desc .staticRAM 32767).store = some ⟨.staticRAM, 32767, 0x09C2#16⟩ ∧ 32767 ≤ fresh.params.sramMax) := by decide

/-- IllegalSizesAreRefused: an image size of 0 with no store and with a legal one, for which no code is raised. -/
theorem test_witness_empty_image :
    let d : Descriptor := { desc .serialEEPROM 512 with romSize := 0 };
    (d.romSize = 0 ∧ ∀ code, ¬raises params0 d code) ∧ ∀ code, ¬raises params0 ⟨0, [], none, none⟩ code := by
  refine ⟨⟨rfl, ?_⟩, ?_⟩
  · rintro (_ | _ | _ | _ | _)
    all_goals simp [raises, desc]
  · rintro (_ | _ | _ | _ | _)
    all_goals simp [raises]

/-- A StaticRAM size of 32767 is no power of two. -/
theorem test_witness_illegal_sram_size : ∀ n, 32767 ≠ 2 ^ n := by
  intro n h
  rcases n with _ | n
  · simp at h
  · rw [Nat.pow_succ] at h; omega

/-- EepStartBeginsAFrameOnOne, EepRequestTypeOpensTheAddress, EepAddressBitShiftsAndLatches (before and on the last bit of
both widths), EepStreamBitIsBuffered (below and at the cap). -/
theorem test_witness_eep_receiving :
    ((withEep eep512).EepromActive ∧ (withEep eep512).eep.phase = .idle) ∧
    ((withEep { eep512 with phase := .command }).EepromActive ∧ (withEep { eep512 with phase := .command }).eep.phase = .command) ∧
    (∀ c ∈ [4, 5], let s := withEep { eep512 with phase := .address, count := c };
      s.EepromActive ∧ s.eep.phase = .address ∧ s.eep.bits = some .six) ∧
    (let s := withEep { eep8192 with phase := .address, op := .write, count := 13 };
      s.EepromActive ∧ s.eep.phase = .address ∧ s.eep.bits = some .fourteen) ∧
    (∀ bs ∈ [[], stream79], (streaming .write bs).EepromActive ∧ (streaming .write bs).eep.phase = .address ∧
      (streaming .write bs).eep.bits = none) := by decide

/-- EepDataBitShiftsAndCommits: before and on the 64th bit. -/
theorem test_witness_eep_data :
    ((writing 0).Inv ∧ (writing 0).EepromActive ∧ (writing 0).eep.phase = .writeData ∧ (writing 0).eep.count ≠ 63) ∧
    ((writing 63).Inv ∧ (writing 63).EepromActive ∧ (writing 63).eep.phase = .writeData ∧ (writing 63).eep.count = 63) :=
  ⟨⟨test_inv_eeprom_writing.1, by decide, rfl, by decide⟩, test_inv_eeprom_writing.2.1, by decide, rfl, rfl⟩

/-- EepStopBitsOfEitherValueAreAccepted, EepWriteDuringReadDataAborts, EepReadBitServesTheBlock (a lead-in bit, a data bit
and the last one), EepReadElsewhereReturnsOne. -/
theorem test_witness_eep_serving :
    (withEep { eep512 with phase := .readStop }).EepromActive ∧ (withEep { eep512 with phase := .writeStop }).EepromActive ∧
    (∀ c ∈ [3, 4, 67], let s : State := { withEep (reading c) with params := params4 };
      s.EepromActive ∧ s.eep.phase = .readData ∧ s.params.readLeadin = .four) ∧
    ((withEep (reading 63)).EepromActive ∧ (withEep (reading 63)).eep.phase = .readData ∧
      (withEep (reading 63)).params.readLeadin = .zero) ∧
    (let s := withEep { eep512 with phase := .address };
      s.EepromActive ∧ s.eep.phase ≠ .readData ∧ (s.eep.phase = .address → s.eep.bits ≠ none)) := by decide

/-- EepDetectReadLatchesAndServes, EepDetectFailureDropsTheStream. -/
theorem test_witness_eep_detect_read :
    (let s := streaming .read (List.replicate 15 true);
      s.EepromActive ∧ s.eep.phase = .address ∧ s.eep.bits = none ∧ s.eep.op = .read ∧
      widthDetect s.params.widthDetect ((s.eep.stream.length : Int) - 1) = some .fourteen ∧
      addrBits .fourteen ≤ s.eep.stream.length) ∧
    (let s := streaming .write [];
      s.EepromActive ∧ s.eep.phase = .address ∧ s.eep.bits = none ∧
      widthDetect s.params.widthDetect ((s.eep.stream.length : Int) - 65) = none) := by decide

/-- EepDetectWriteCommits. -/
theorem test_witness_eep_detect_write :
    let s := streaming .write stream79;
    s.Inv ∧ s.EepromActive ∧ s.eep.phase = .address ∧ s.eep.bits = none ∧ s.eep.op = .write ∧
    widthDetect s.params.widthDetect ((s.eep.stream.length : Int) - 65) = some .fourteen ∧
    addrBits .fourteen + 64 ≤ s.eep.stream.length :=
  ⟨test_inv_eeprom_writing.2.2, by decide, rfl, rfl, rfl, by decide, by decide⟩

/-- ReadFrameLatchesTheAddress, WriteFrameReplacesTheBlock, EepromRoundTrip, Read64GivesTheBlock: both widths. -/
theorem test_witness_eep_frames :
    ((withEep eep512).Inv ∧ (withEep eep512).EepromActive ∧ (withEep eep512).eep.phase = .idle ∧
      (withEep eep512).eep.bits = some .six) ∧
    ((withEep eep8192).Inv ∧ (withEep eep8192).EepromActive ∧ (withEep eep8192).eep.phase = .idle ∧
      (withEep eep8192).eep.bits = some .fourteen) ∧
    ((withEep (reading 0)).EepromActive ∧ (withEep (reading 0)).eep.phase = .readData ∧
      (withEep (reading 0)).eep.count = 0) :=
  ⟨⟨test_inv_eeprom.1, by decide, rfl, rfl⟩, ⟨test_inv_eeprom.2.1, by decide, rfl, rfl⟩, by decide, rfl, rfl⟩

/-- UnresolvedReadFrameAdapts, UnresolvedWriteFrameCommits: both widths. -/
theorem test_witness_eep_unresolved :
    (withEep eepUnresolved).Inv ∧ (withEep eepUnresolved).EepromActive ∧ (withEep eepUnresolved).eep.phase = .idle ∧
    (withEep eepUnresolved).eep.bits = none ∧ (bin [0, 0, 0, 0, 1, 1]).length = addrBits .six ∧
    (List.replicate 14 true).length = addrBits .fourteen ∧ data4.length = 64 ∧
    widthDetect params0.widthDetect (addrBits .six) = some .six ∧
    widthDetect params0.widthDetect (addrBits .fourteen) = some .fourteen :=
  ⟨test_inv_eeprom.2.2.1, by decide, rfl, rfl, rfl, rfl, rfl, by decide, by decide⟩

/-- FlashUnlockWritesAdvanceOrAbort, FlashCommandsAfterUnlock (both sizes), FlashIdModeWriteLeavesIdMode,
FlashBankSelectSetsTheBank, FlashReadGivesIdOrContent. -/
theorem test_witness_flash_phases :
    (∀ p ∈ [FlashPhase.idle, .unlock1, .unlock2, .idMode, .eraseArmed, .eraseUnlock1, .bankSwitch],
      (inPhase p).FlashActive ∧ (inPhase p).flash.phase = p) ∧
    (inPhase .unlock2).flash.size = 131072 ∧ flash64.FlashActive ∧ flash64.flash.size ≠ 131072 ∧
    (Instr.flUnlock2Other 0xFFFF#16 0xFF#8).WellFormed := by decide

/-- FlashChipEraseSetsEveryByte, FlashSectorEraseSetsItsSector (the last sector), FlashProgramAndsOneByte. -/
theorem test_witness_flash_content :
    ((flashByte1 .eraseUnlock2).Inv ∧ (flashByte1 .eraseUnlock2).FlashActive ∧
      (flashByte1 .eraseUnlock2).flash.phase = .eraseUnlock2) ∧
    (0xF000#16).toNat % 4096 = 0 ∧ (Instr.flEraseOther 0xF001#16 0x30#8).WellFormed ∧
    ((flashByte1 .writeMode).Inv ∧ (flashByte1 .writeMode).FlashActive ∧
      (flashByte1 .writeMode).flash.phase = .writeMode) :=
  ⟨⟨test_inv_flash.2.2.1, by decide, rfl⟩, by decide, by decide, test_inv_flash.2.2.2, by decide, rfl⟩

/-- EraseThenProgramGivesTheValue. -/
theorem test_witness_erase_then_program :
    (inPhase .idle).Inv ∧ (inPhase .idle).FlashActive ∧ (inPhase .idle).flash.phase = .idle ∧
    0xF000#16 = 0xFFFF#16 &&& 0xF000#16 := ⟨test_inv_flash.1, by decide, rfl, by decide⟩

/-- PersistenceReachesTheActiveArray: its clauses, at the last byte and at the size. -/
theorem test_witness_persistence :
    activeKind State.reset = .none ∧ (withEep eep512).EepromActive ∧ 511 < (withEep eep512).eep.size ∧
    (inPhase .idle).FlashActive ∧ 131071 < (inPhase .idle).flash.size ∧
    ((withSram []).cart.loaded = true ∧ (withSram []).cart.kind = .staticRAM ∧ 32767 < (withSram []).sram.size) ∧
    contentSize State.reset ≤ 0 ∧ contentSize (withEep eep512) ≤ 512 := by decide

end Sys2Proof.Tests
end

/-!
PROOF. The invariant of the machine (R33, R22, R29): what each kind of step keeps of it, and the obligation that every step
keeps it. A step is an engine effect, a load or a persistence access; each is one lemma below.
-/

namespace Sys2Proof.Machine

/-! ## What a step can do -/

theorem step_of_input_nil {s : State} (h : s.input = []) : step s = .next s := by
  simp only [step, h]

theorem step_of_decode_ok {s : State} {p : Packet} {rest : List Call} {i : Instr}
    (h : s.input = .packet p :: rest) (hd : decode (decodeCtx s) p = .ok i) :
    step s = exec i { s with input := rest } := by
  simp only [step, h, hd]

theorem step_of_decode_error {s : State} {p : Packet} {rest : List Call} {e : DecodeError}
    (h : s.input = .packet p :: rest) (hd : decode (decodeCtx s) p = .error e) :
    step s = .refused (rejection e) := by
  simp only [step, h, hd]

theorem step_of_persistence {s : State} {c : PersistenceCall} {rest : List Call}
    (h : s.input = .persistence c :: rest) : step s = persistenceCall c { s with input := rest } := by
  simp only [step, h]

/-- A step that answers a next state had no call to take, ran a row, or made a persistence access (R21, R52). -/
theorem step_eq_next {s s' : State} (h : step s = .next s') :
    s' = s ∨ (∃ i rest, exec i { s with input := rest } = .next s') ∨
      ∃ c rest, persistenceCall c { s with input := rest } = .next s' := by
  cases hin : s.input with
  | nil =>
    rw [step_of_input_nil hin] at h
    cases h
    exact .inl rfl
  | cons call rest =>
    cases call with
    | persistence c => exact .inr (.inr ⟨c, rest, step_of_persistence hin ▸ h⟩)
    | packet p =>
      cases hd : decode (decodeCtx s) p with
      | ok i => exact .inr (.inl ⟨i, rest, step_of_decode_ok hin hd ▸ h⟩)
      | error e =>
        rw [step_of_decode_error hin hd] at h
        cases h

/-- A load that answers a next state succeeded, or raised ConfigurationError (R201, R181). -/
theorem execLoad_eq_next {d : Descriptor} {s s' : State} (h : execLoad d s = .next s') :
    (loadErrors s.params d = [] ∧ legalSizes d = true ∧ s' = loadSuccess d s) ∨
      ∃ code n, s' = raiseConfigurationError code { s with draws := n } := by
  unfold execLoad at h
  split at h
  · rename_i hnone
    split at h
    · rename_i hlegal
      cases h
      exact .inl ⟨hnone, hlegal, rfl⟩
    · cases h
  · cases h
    exact .inr ⟨_, s.draws, rfl⟩
  · cases h
    exact .inr ⟨_, s.draws + 1, rfl⟩

/-- A persistence access that answers a next state changes only the response, or writes one byte within
`contentSize()` (R95). -/
theorem persistenceCall_eq_next {c : PersistenceCall} {s s' : State} (h : persistenceCall c s = .next s') :
    (∃ r, s' = { s with resp := r }) ∨
      ∃ i b, i < contentSize s ∧ s' = { setContentByte s i b with resp := .nothing } := by
  cases c with
  | contentPointer => cases h; exact .inl ⟨_, rfl⟩
  | contentSize => cases h; exact .inl ⟨_, rfl⟩
  | readContent i =>
    simp only [persistenceCall] at h
    split at h
    · cases h; exact .inl ⟨_, rfl⟩
    · cases h
  | writeContent i b =>
    simp only [persistenceCall] at h
    split at h
    · rename_i hi
      cases h; exact .inr ⟨i, b, hi, rfl⟩
    · cases h

/-! ## The fields after serial write bits -/

@[simp] theorem deliverEepBits_cart (bits : List Bool) (s : State) : (deliverEepBits bits s).cart = s.cart :=
  (deliverEepBits_config bits s).1

@[simp] theorem deliverEepBits_flash (bits : List Bool) (s : State) : (deliverEepBits bits s).flash = s.flash := by
  obtain ⟨-, -, h, -⟩ := deliverEepBits_config bits s
  exact h

@[simp] theorem deliverEepBits_sram (bits : List Bool) (s : State) : (deliverEepBits bits s).sram = s.sram := by
  obtain ⟨-, -, -, h, -⟩ := deliverEepBits_config bits s
  exact h

@[simp] theorem deliverEepBits_params (bits : List Bool) (s : State) : (deliverEepBits bits s).params = s.params := by
  obtain ⟨-, -, -, -, h, -⟩ := deliverEepBits_config bits s
  exact h

@[simp] theorem deliverEepBits_eep_size (bits : List Bool) (s : State) :
    (deliverEepBits bits s).eep.size = s.eep.size := by
  obtain ⟨-, -, -, -, -, -, -, h, -⟩ := deliverEepBits_config bits s
  exact h

/-! ## The effects of the rows other than LOAD -/

/-- The invariant does not read the model's own fields (entries 1, 3, 8). -/
theorem State.Inv.with_bookkeeping {s : State} (h : s.Inv) (calls : List Call) (r : Response) (n : Nat) :
    State.Inv { s with input := calls, resp := r, draws := n } :=
  { legal := h.legal, eep := h.eep, flash := h.flash, sram_wf := h.sram_wf, sram_within := h.sram_within,
    rom_wf := h.rom_wf, rom_within := h.rom_within }

theorem Effect.legalConfig_eq {s s' : State} (h : Effect s s') : legalConfig s' = legalConfig s := by
  obtain ⟨hkind, hrom, -, hsize, hmask, hmatch, hflash, -, hsram, hsramMask, -⟩ := h.config
  simp only [legalConfig, hkind, hrom, hsize, hmask, hmatch, hflash, hsram, hsramMask]

theorem State.Inv.sram_size {s : State} (h : s.Inv) (hl : s.cart.loaded = true) (hk : s.cart.kind = .staticRAM) :
    legalSramSize s.sram.size = true ∧ s.sram.mask = BitVec.ofNat 32 (s.sram.size - 1) := by
  have hlegal := h.legal hl
  simp only [legalConfig, hk, Bool.and_eq_true, decide_eq_true_eq] at hlegal
  exact hlegal.2

/-- Every effect keeps the invariant of the EEPROM engine (R33). -/
theorem Effect.eep_inv {s s' : State} (h : Effect s s') (hi : s.Inv) : EepInv s.params s'.eep := by
  cases h
  case eepBit b ha =>
    obtain ⟨h8, hs⟩ := hi.eep_size ha
    exact eepWriteBit_inv hi.eep h8 hs b
  case eepRead ha =>
    obtain ⟨h8, hs⟩ := hi.eep_size ha
    exact eepReadBit_inv hi.eep h8 hs s.draws
  case eepFrame bits ha =>
    obtain ⟨h8, hs⟩ := hi.eep_size ha
    exact deliverEepBits_inv bits s hi.eep h8 hs
  case eepFrameRead bits ha =>
    obtain ⟨h8, hs⟩ := hi.eep_size ha
    rw [deliverEepRead_eep, deliverEepBits_params]
    exact eepReadBit_inv (deliverEepBits_inv bits s hi.eep h8 hs) (by simpa using h8) (by simpa using hs) _
  case eepRead64 ha =>
    obtain ⟨h8, hs⟩ := hi.eep_size ha
    exact eepReadBits_inv s.params _ s.draws s.eep hi.eep h8 hs
  case eepPower ha => exact eepToIdle_inv hi.eep.content_wf hi.eep.content_within
  all_goals exact hi.eep

/-- Every effect keeps the invariant of the FlashROM engine (R33). -/
theorem Effect.flash_inv {s s' : State} (h : Effect s s') (hi : s.Inv) : FlashInv s'.flash := by
  cases h
  case eepFrame | eepFrameRead => simpa using hi.flash
  case flashByte off v ha => exact flashWriteByte_inv hi.flash (hi.flash_size ha) off v
  case flashPower ha => exact hi.flash.with_phase nofun
  all_goals exact hi.flash

/-- Every effect keeps the canonical form and the extent of the StaticRAM (R29). -/
theorem Effect.sram_ok {s s' : State} (h : Effect s s') (hi : s.Inv) :
    s'.sram.content.wf = true ∧ s'.sram.content.within s.sram.size = true := by
  cases h
  case sramWrite A bytes hl hk =>
    obtain ⟨hsize, hmask⟩ := hi.sram_size hl hk
    exact sramWriteFrom_ok A 0 bytes s.sram hsize hmask hi.sram_wf hi.sram_within
  case eepFrame | eepFrameRead => simpa using And.intro hi.sram_wf hi.sram_within
  all_goals exact ⟨hi.sram_wf, hi.sram_within⟩

/-- Every effect of a row other than LOAD keeps the invariant of the machine. -/
theorem Effect.inv {s s' : State} (h : Effect s s') (hi : s.Inv) : s'.Inv := by
  obtain ⟨-, hrom, hparams, -, -, -, -, -, hsram, -, -, hloaded, -⟩ := h.config
  obtain ⟨hwf, hwithin⟩ := h.sram_ok hi
  exact
    { legal := fun hl => h.legalConfig_eq.trans (hi.legal (hloaded hl))
      eep := hparams ▸ h.eep_inv hi
      flash := h.flash_inv hi
      sram_wf := hwf
      sram_within := hsram ▸ hwithin
      rom_wf := hrom ▸ hi.rom_wf
      rom_within := hrom ▸ hi.rom_within }

/-! ## LOAD -/

theorem loadEep_inv (p : Params) (d : Descriptor) (declared : Nat) (e : Eep) : EepInv p (loadEep d declared e) :=
  eepToIdle_inv (preseeded_ok _ _).1 (preseeded_ok _ _).2

theorem loadFlash_inv (d : Descriptor) (size : Nat) (id : BitVec 16) : FlashInv (loadFlash d size id) :=
  { one_bank := fun _ => rfl
    bank_switch := nofun
    content_wf := (preseeded_ok _ _).1
    content_within := (preseeded_ok _ _).2 }

/-- The bytes of the program image are in canonical form and inside `ROM_SIZE` (R29, R201). -/
theorem loadRom_ok (d : Descriptor) :
    (loadRom d).image.wf = true ∧ (loadRom d).image.within (loadRom d).size = true :=
  ⟨Memory.wf_ofBytes _ _, Memory.within_of_le (Memory.within_ofBytes _ _) (by simp [loadRom])⟩

/-- The array size of a legal declared EEPROM size is legal and holds a block (R7, R201). -/
theorem eepSizeOf_legal {declared : Nat} (h : legalEepSize declared = true) :
    legalEepSize (eepSizeOf declared) = true ∧ 8 ≤ eepSizeOf declared := by
  unfold eepSizeOf
  split
  · decide
  · simp only [legalEepSize, decide_eq_true_eq] at h ⊢
    omega

/-- A successful load leaves a legal configuration (R22, R7, R42). -/
theorem loadSuccess_legal {d : Descriptor} {s : State} (hrom : d.romSize ≤ romMax) (hl : legalSizes d = true) :
    legalConfig (loadSuccess d s) = true := by
  simp only [legalSizes, Bool.and_eq_true, decide_eq_true_eq] at hl
  obtain ⟨hpos, hstore⟩ := hl
  unfold loadSuccess loadStore
  split
  · simp [legalConfig, loadRom, hpos, hrom]
  · rename_i st hst
    split
    all_goals
      rename_i hkind
      simp only [legalStoreSize, hst, hkind] at hstore
    · obtain ⟨hsize, h8⟩ := eepSizeOf_legal hstore
      simp [legalConfig, loadRom, hpos, hrom, loadEep, hsize, h8]
    · simp [legalConfig, loadRom, hpos, hrom, loadFlash, hstore]
    · simp [legalConfig, loadRom, hpos, hrom, loadSram, hstore]
    · simp [legalConfig, loadRom, hpos, hrom, loadSram, hstore]
    · simp [legalConfig, loadRom, hpos, hrom]

/-- A successful load sets at most one backing store, to one with the invariant, and keeps the others (R201; entry 14). -/
theorem loadSuccess_stores {d : Descriptor} {s : State} (hi : s.Inv) :
    EepInv s.params (loadSuccess d s).eep ∧ FlashInv (loadSuccess d s).flash ∧
      (loadSuccess d s).sram.content.wf = true ∧
      (loadSuccess d s).sram.content.within (loadSuccess d s).sram.size = true := by
  obtain ⟨-, heep, hflash, hwf, hwithin, -, -⟩ := hi
  unfold loadSuccess loadStore
  split
  · exact ⟨heep, hflash, hwf, hwithin⟩
  · rename_i st _
    split
    · exact ⟨loadEep_inv _ _ _ _, hflash, hwf, hwithin⟩
    · exact ⟨heep, loadFlash_inv _ _ _, hwf, hwithin⟩
    · exact ⟨heep, hflash, preseeded_ok st.size d.preseed⟩
    · exact ⟨heep, hflash, preseeded_ok st.size d.preseed⟩
    · exact ⟨heep, hflash, hwf, hwithin⟩

theorem loadSuccess_rom (d : Descriptor) (s : State) : (loadSuccess d s).rom = loadRom d := by
  unfold loadSuccess loadStore
  split
  · rfl
  · split <;> rfl

theorem loadSuccess_params (d : Descriptor) (s : State) : (loadSuccess d s).params = s.params := by
  unfold loadSuccess loadStore
  split
  · rfl
  · split <;> rfl

/-- A load that answers a next state keeps the invariant of the machine. -/
theorem execLoad_inv {d : Descriptor} {s s' : State} (hi : s.Inv) (h : execLoad d s = .next s') : s'.Inv := by
  rcases execLoad_eq_next h with ⟨hnone, hlegal, rfl⟩ | ⟨code, n, rfl⟩
  · obtain ⟨heep, hflash, hwf, hwithin⟩ := loadSuccess_stores (d := d) hi
    have hrom := loadRom_ok d
    rw [← loadSuccess_rom d s] at hrom
    exact
      { legal := fun _ => loadSuccess_legal (loadErrors_nil hnone).1 hlegal
        eep := loadSuccess_params d s ▸ heep
        flash := hflash
        sram_wf := hwf
        sram_within := hwithin
        rom_wf := hrom.1
        rom_within := hrom.2 }
  · exact
      { legal := nofun
        eep := hi.eep
        flash := hi.flash
        sram_wf := hi.sram_wf
        sram_within := hi.sram_within
        rom_wf := hi.rom_wf
        rom_within := hi.rom_within }

/-- Every row keeps the invariant of the machine. -/
theorem exec_inv {i : Instr} {s s' : State} (hi : s.Inv) (h : exec i s = .next s') : s'.Inv := by
  cases hload : isLoad i with
  | false => exact (exec_effect hload h).inv hi
  | true =>
    cases i
    case load d => exact execLoad_inv hi h
    all_goals cases hload

/-! ## Persistence accesses -/

theorem EepInv.with_content {p : Params} {e : Eep} (h : EepInv p e) {m : Memory} (hwf : m.wf = true)
    (hwithin : m.within e.size = true) : EepInv p { e with content := m } :=
  { stream_unresolved := h.stream_unresolved
    stream_cap := h.stream_cap
    count_ok := h.count_ok
    idle_canonical := fun hp => congrArg (fun e' : Eep => { e' with content := m }) (h.idle_canonical hp)
    content_wf := hwf
    content_within := hwithin }

theorem FlashInv.with_content {f : Flash} (h : FlashInv f) {m : Memory} (hwf : m.wf = true)
    (hwithin : m.within f.size = true) : FlashInv { f with content := m } :=
  { one_bank := h.one_bank, bank_switch := h.bank_switch, content_wf := hwf, content_within := hwithin }

/-- A host write within `contentSize()` keeps the invariant of the machine (R95, D39). -/
theorem setContentByte_inv {s : State} (hi : s.Inv) {i : Nat} (hlt : i < contentSize s) (b : Byte) :
    (setContentByte s i b).Inv := by
  obtain ⟨hlegal, heep, hflash, hwf, hwithin, hromWf, hromWithin⟩ := hi
  unfold contentSize at hlt
  unfold setContentByte
  split
  all_goals
    rename_i hkind
    rw [hkind] at hlt
  · exact ⟨hlegal,
      heep.with_content (Memory.wf_write heep.content_wf i b) (Memory.within_write b hlt heep.content_within),
      hflash, hwf, hwithin, hromWf, hromWithin⟩
  · exact ⟨hlegal, heep,
      hflash.with_content (Memory.wf_write hflash.content_wf i b) (Memory.within_write b hlt hflash.content_within),
      hwf, hwithin, hromWf, hromWithin⟩
  · exact ⟨hlegal, heep, hflash, Memory.wf_write hwf i b, Memory.within_write b hlt hwithin, hromWf, hromWithin⟩
  · exact ⟨hlegal, heep, hflash, hwf, hwithin, hromWf, hromWithin⟩

/-- Every persistence access keeps the invariant of the machine. -/
theorem persistenceCall_inv {c : PersistenceCall} {s s' : State} (hi : s.Inv)
    (h : persistenceCall c s = .next s') : s'.Inv := by
  rcases persistenceCall_eq_next h with ⟨r, rfl⟩ | ⟨i, b, hlt, rfl⟩
  · exact hi.with_bookkeeping _ r _
  · exact (setContentByte_inv hi hlt b).with_bookkeeping _ .nothing _

/-- Settles O7: a step does nothing, runs a row or makes a persistence access, and each keeps the invariant. -/
theorem everyStepKeepsTheInvariant : Obligations.EveryStepKeepsTheInvariant := by
  intro s s' hi h
  have taken : ∀ rest : List Call, State.Inv { s with input := rest } := fun rest => hi.with_bookkeeping rest _ _
  rcases step_eq_next h with rfl | ⟨i, rest, hexec⟩ | ⟨c, rest, hcall⟩
  · exact hi
  · exact exec_inv (taken rest) hexec
  · exact persistenceCall_inv (taken rest) hcall

end Sys2Proof.Machine

/-!
PROOF. What the rows other than LOAD leave unchanged: the configuration (R22, R25), and every backing store that is not
the active one (R22, R41).
-/

namespace Sys2Proof.Machine

/-! ## The configuration -/

theorem memRead_cart (w : AccessWidth) (a openBus : Word) (s : State) : (memRead w a openBus s).cart = s.cart := by
  unfold memRead
  dsimp only
  split <;> rfl

theorem memWrite_cart (w : AccessWidth) (a v : Word) (s : State) : (memWrite w a v s).cart = s.cart := by
  unfold memWrite
  dsimp only
  split <;> rfl

theorem powerActive_cart (s : State) : (powerActive s).cart = s.cart := by
  unfold powerActive
  split <;> rfl

/-- No row but LOAD and UNLOAD changes `cart` (R22). -/
theorem exec_cart {i : Instr} {s s' : State} (hi : isLoad i = false) (hu : i ≠ .unload) (h : exec i s = .next s') :
    s'.cart = s.cart := by
  cases i
  case load => cases hi
  case unload => exact absurd rfl hu
  case readB | readH | readW =>
    obtain ⟨-, rfl⟩ := requireLoaded_eq_next.1 h
    exact memRead_cart _ _ _ s
  case writeB | writeH | writeW =>
    obtain ⟨-, rfl⟩ := requireLoaded_eq_next.1 h
    exact memWrite_cart _ _ _ s
  case power | eepPower | flPower =>
    cases h
    exact powerActive_cart s
  case eepReadFrame6 | eepReadFrame14 | eepWriteFrame6 | eepWriteFrame14 | eepFrameUnresolved =>
    obtain ⟨-, -, rfl⟩ := onEngine_eq_next.1 h
    exact deliverEepBits_cart _ s
  all_goals
    obtain ⟨-, -, rfl⟩ := onEngine_eq_next.1 h
    rfl

/-- Settles O10: the row's effect keeps every configuration value, and only UNLOAD's touches `cart.loaded`. -/
theorem onlyLoadChangesTheConfiguration : Obligations.OnlyLoadChangesTheConfiguration := by
  intro i s s' hi h
  obtain ⟨hkind, hrom, hparams, hsize, hmask, hmatch, hflash, hid, hsram, hsramMask, hbits, -, -⟩ :=
    (exec_effect hi h).config
  have bits_kept : ∀ w, s.eep.bits = some w → s'.eep.bits = some w := by
    intro w hw
    rcases hbits with hsame | hnone
    · exact hsame.trans hw
    · rw [hnone] at hw
      cases hw
  exact ⟨fun hu => congrArg Cart.loaded (exec_cart hi hu h), hkind, hrom, hparams, hsize, hmask, hmatch, hflash, hid,
    hsram, hsramMask, bits_kept⟩

/-! ## The inactive backing stores -/

/-- An effect changes the EEPROM engine only while it is the active store. -/
theorem Effect.eep_of_inactive {s s' : State} (h : Effect s s') (hn : ¬s.EepromActive) : s'.eep = s.eep := by
  cases h
  case eepBit ha | eepRead ha | eepFrame ha | eepFrameRead ha | eepRead64 ha | eepPower ha => exact absurd ha hn
  all_goals rfl

/-- An effect changes the FlashROM engine only while it is the active store. -/
theorem Effect.flash_of_inactive {s s' : State} (h : Effect s s') (hn : ¬s.FlashActive) : s'.flash = s.flash := by
  cases h
  case flashByte ha | flashRead ha | flashPower ha => exact absurd ha hn
  case eepFrame | eepFrameRead => simp
  all_goals rfl

/-- An effect changes the StaticRAM only while it is the active store. -/
theorem Effect.sram_of_inactive {s s' : State} (h : Effect s s')
    (hn : ¬(s.cart.loaded = true ∧ s.cart.kind = .staticRAM)) : s'.sram = s.sram := by
  cases h
  case sramWrite hl hk => exact absurd ⟨hl, hk⟩ hn
  case eepFrame | eepFrameRead => simp
  all_goals rfl

/-- Settles O13: every effect that reaches a backing store needs it to be the active one. -/
theorem inactiveBackingStoresAreUntouched : Obligations.InactiveBackingStoresAreUntouched := by
  intro i s s' hi h
  have he := exec_effect hi h
  exact ⟨he.eep_of_inactive, he.flash_of_inactive, he.sram_of_inactive⟩

end Sys2Proof.Machine

/-!
PROOF. What one step runs (R21, R52, R53), and when an EEP or FL row is answered (R22, R92; entry 5).
-/

namespace Sys2Proof.Machine

/-- Settles O6: the four equations of the step. -/
theorem stepRunsTheDecodedRow : Obligations.StepRunsTheDecodedRow := fun _ =>
  ⟨step_of_input_nil, fun _ _ _ hin hd _ => step_of_decode_ok hin hd, fun _ _ _ => step_of_decode_error,
    fun _ _ => step_of_persistence⟩

/-- An EEP or FL row is answered as its engine's event: what the event leaves behind, if the engine is active. -/
theorem exec_of_engineOf {i : Instr} {k : Kind} (h : engineOf i = some k) (s : State) :
    ∃ t, exec i s = onEngine k s t := by
  cases i
  case readB | readH | readW | writeB | writeH | writeW | power | load | unload | eepPower | flPower => cases h
  all_goals
    cases h
    exact ⟨_, rfl⟩

theorem onEngine_of_unloaded {k : Kind} {s : State} (hl : s.cart.loaded = false) (t : State) :
    onEngine k s t = .refused .unloaded := if_pos hl

theorem onEngine_of_other_kind {k : Kind} {s : State} (hl : s.cart.loaded = true) (hk : s.cart.kind ≠ k) (t : State) :
    onEngine k s t = .refused .engineInactive := by
  simp [onEngine, hl, hk]

/-- Settles O14: an engine row is `onEngine` of its event, which decides all three clauses. -/
theorem engineRowsNeedTheirEngine : Obligations.EngineRowsNeedTheirEngine := by
  intro i k s hi
  obtain ⟨t, ht⟩ := exec_of_engineOf hi s
  rw [ht]
  exact ⟨fun hl => onEngine_of_unloaded hl t, fun hl hk => onEngine_of_other_kind hl hk t,
    fun hl hk => ⟨t, onEngine_next hl hk⟩⟩

end Sys2Proof.Machine

/-!
PROOF. The address map (R41, R42, R57), what an aligned address is (R44), and the bus rows as `memRead` and `memWrite`.
-/

namespace Sys2Proof.Machine

/-! ## The classifier, kind by kind -/

theorem classify_of_none {s : State} (hk : s.cart.kind = .none) (a : Word) :
    classify s a = if a.toNat < 0x0E000000 then .programImage else .openBus := by
  simp [classify, hk, BitVec.lt_def]

theorem classify_of_staticRAM {s : State} (hk : s.cart.kind = .staticRAM) (a : Word) :
    classify s a = if a &&& 0x0E000000#32 = 0x0E000000#32 then .staticRAM
      else if a.toNat < 0x0E000000 then .programImage else .openBus := by
  simp [classify, hk, BitVec.lt_def, inSaveWindow]

theorem classify_of_flashROM {s : State} (hk : s.cart.kind = .flashROM) (a : Word) :
    classify s a = if a &&& 0x0E000000#32 = 0x0E000000#32 then .flashROM
      else if a.toNat < 0x0E000000 then .programImage else .openBus := by
  simp [classify, hk, BitVec.lt_def, inSaveWindow]

theorem classify_of_serialEEPROM {s : State} (hk : s.cart.kind = .serialEEPROM) (a : Word) :
    classify s a = if a &&& s.eep.winMask = s.eep.winMatch then .serialEEPROM
      else if a.toNat < 0x0E000000 then .programImage else .openBus := by
  simp [classify, hk, BitVec.lt_def, inEepWindow]

/-- The EEPROM window of an invariant state is the one `Load` sets from the image size (R42). -/
theorem State.Inv.eep_window {s : State} (h : s.Inv) (ha : s.EepromActive) :
    (s.eep.winMask, s.eep.winMatch) = eepWindow s.rom.size := by
  obtain ⟨hl, hk⟩ := ha
  have hlegal := h.legal hl
  simp only [legalConfig, hk, Bool.and_eq_true, decide_eq_true_eq] at hlegal
  exact hlegal.2.2

theorem eepWindow_small {n : Nat} (h : n ≤ 0x01000000) : eepWindow n = (0x0F000000#32, 0x0D000000#32) :=
  if_neg (Nat.not_lt.2 h)

theorem eepWindow_large {n : Nat} (h : 0x01000000 < n) : eepWindow n = (0x0FFFFF00#32, 0x0DFFFF00#32) := if_pos h

/-- Settles O16: the classifier's tests for the kind, with the window that the invariant gives the EEPROM. -/
theorem addressMapIsTheSpecs : Obligations.AddressMapIsTheSpecs := by
  intro s a hi hl
  have eeprom : ∀ winMask winMatch, s.cart.kind = .serialEEPROM → eepWindow s.rom.size = (winMask, winMatch) →
      classify s a = if a &&& winMask = winMatch then .serialEEPROM
        else if a.toNat < 0x0E000000 then .programImage else .openBus := by
    intro winMask winMatch hk hwindow
    obtain ⟨rfl, rfl⟩ := Prod.mk.inj ((hi.eep_window ⟨hl, hk⟩).trans hwindow)
    exact classify_of_serialEEPROM hk a
  exact ⟨fun hk => classify_of_none hk a, fun hk => classify_of_staticRAM hk a, fun hk => classify_of_flashROM hk a,
    fun hk hsmall => eeprom _ _ hk (eepWindow_small hsmall), fun hk hlarge => eeprom _ _ hk (eepWindow_large hlarge)⟩

/-! ## The aligned address -/

/-- Clearing the low `k` bits shifts them out and zeros in, which leaves the next lower multiple of `2 ^ k`. -/
theorem toNat_and_not_low_bits (a : Word) {m : Word} {k : Nat} (hm : m.toNat = 2 ^ k - 1) :
    (a &&& ~~~m).toNat = a.toNat - a.toNat % 2 ^ k := by
  have hshift : a &&& ~~~m = (a >>> k) <<< k := by
    ext i hi
    have hbit : m[i] = decide (i < k) := by
      rw [← BitVec.getLsbD_eq_getElem, BitVec.getLsbD, hm, Nat.testBit_two_pow_sub_one]
    by_cases hk : i < k
    · simp [hbit, hk]
    · simp [hbit, hk, Nat.add_sub_cancel' (Nat.le_of_not_lt hk), BitVec.getLsbD_eq_getElem hi]
  have hlt : a.toNat / 2 ^ k * 2 ^ k < 2 ^ 32 := lt_of_le_of_lt (Nat.div_mul_le_self _ _) a.isLt
  rw [hshift, BitVec.toNat_shiftLeft, BitVec.toNat_ushiftRight, Nat.shiftRight_eq_div_pow, Nat.shiftLeft_eq,
    Nat.mod_eq_of_lt hlt, Nat.div_mul_self_eq_mod_sub_self]

/-- `align` gives the next lower multiple of the width (R44). -/
theorem align_toNat (w : AccessWidth) (a : Word) : (align w a).toNat = a.toNat - a.toNat % widthBytes w := by
  cases w with
  | byte => simp [align, widthBytes, Nat.mod_one]
  | half => exact toNat_and_not_low_bits a (k := 1) rfl
  | word => exact toNat_and_not_low_bits a (k := 2) rfl

theorem align_mod (w : AccessWidth) (a : Word) : (align w a).toNat % widthBytes w = 0 := by
  rw [align_toNat]
  exact Nat.sub_mod_eq_zero_of_mod_eq (Nat.mod_mod _ _).symm

theorem align_align (w : AccessWidth) (a : Word) : align w (align w a) = align w a := by
  cases w with
  | byte => rfl
  | half | word => simp [align, BitVec.and_assoc]

/-- A mask without the two low bits does not see the alignment. -/
theorem align_and {m : Word} (hm : ~~~3#32 &&& m = m) (w : AccessWidth) (a : Word) : align w a &&& m = a &&& m := by
  have hhalf : ~~~1#32 &&& m = m := by
    rw [← hm, ← BitVec.and_assoc]
    rfl
  cases w with
  | byte => rfl
  | half => rw [align, BitVec.and_assoc, hhalf]
  | word => rw [align, BitVec.and_assoc, hm]

/-- The end of the program image's range is a multiple of every width. -/
theorem align_below_iff (w : AccessWidth) (a : Word) : (align w a).toNat < 0x0E000000 ↔ a.toNat < 0x0E000000 := by
  rw [align_toNat]
  cases w
  all_goals
    simp only [widthBytes]
    omega

/-- The mask of both EEPROM windows is without the two low bits (R42, R43). -/
theorem eepWindow_mask (n : Nat) : ~~~3#32 &&& (eepWindow n).1 = (eepWindow n).1 := by
  unfold eepWindow
  split <;> rfl

/-- The test on the address as issued is the test on the aligned one (R43). -/
theorem classify_align {s : State} (hi : s.Inv) (hl : s.cart.loaded = true) (w : AccessWidth) (a : Word) :
    classify s (align w a) = classify s a := by
  have hsave : align w a &&& 0x0E000000#32 = a &&& 0x0E000000#32 := align_and rfl w a
  cases hk : s.cart.kind with
  | none => simp only [classify_of_none hk, align_below_iff]
  | staticRAM => simp only [classify_of_staticRAM hk, align_below_iff, hsave]
  | flashROM => simp only [classify_of_flashROM hk, align_below_iff, hsave]
  | serialEEPROM =>
    have hmask : s.eep.winMask = (eepWindow s.rom.size).1 := congrArg Prod.fst (hi.eep_window ⟨hl, hk⟩)
    have hwin : align w a &&& s.eep.winMask = a &&& s.eep.winMask := align_and (hmask ▸ eepWindow_mask _) w a
    simp only [classify_of_serialEEPROM hk, align_below_iff, hwin]

/-! ## The bus rows -/

theorem exec_readRow (w : AccessWidth) (a openBus : Word) (s : State) :
    exec (readRow w a openBus) s = requireLoaded s (memRead w a openBus s) := by
  cases w <;> rfl

theorem exec_writeRow (w : AccessWidth) (a v : Word) (s : State) :
    exec (writeRow w a v) s = requireLoaded s (memWrite w a v s) := by
  cases w <;> rfl

theorem requireLoaded_congr {s t u : State} (h : s.cart.loaded = true → t = u) :
    requireLoaded s t = requireLoaded s u := by
  unfold requireLoaded
  split
  · rename_i hl
    rw [h hl]
  · rfl

/-- Settles O17: the classifier and the alignment are all that an access takes of its address. -/
theorem misalignedAccessIsAppliedBelow : Obligations.MisalignedAccessIsAppliedBelow := by
  refine ⟨align_toNat, fun s w a x hi => ?_⟩
  simp only [exec_readRow, exec_writeRow]
  exact ⟨requireLoaded_congr fun hl => by simp only [memRead, align_align, classify_align hi hl],
    requireLoaded_congr fun hl => by simp only [memWrite, align_align, classify_align hi hl]⟩

end Sys2Proof.Machine

/-!
PROOF. A FlashROM read byte by byte (R47, R84, R161): which value each byte is, and which draw it takes in ID mode (entry 8).
-/

namespace Sys2Proof.Machine

theorem offset_eq_zero_iff (off : BitVec 16) : off = 0#16 ↔ off.toNat = 0 := BitVec.toNat_inj.symm

theorem offset_eq_one_iff (off : BitVec 16) : off = 1#16 ↔ off.toNat = 1 := BitVec.toNat_inj.symm

/-- The byte of a FlashROM read in ID mode and out of it (R161, R49). -/
theorem flashReadByte_fst (f : Flash) (off : BitVec 16) (d : Nat) :
    (flashReadByte f off d).1 =
      if f.phase ≠ .idMode then f.content.read (f.bank.toNat * 65536 + off.toNat)
      else if off.toNat = 0 then BitVec.ofNat 8 (f.id.toNat % 256)
      else if off.toNat = 1 then BitVec.ofNat 8 (f.id.toNat / 256)
      else Config.freeByte d := by
  have hlow : f.id.extractLsb' 0 8 = BitVec.ofNat 8 (f.id.toNat % 256) := by
    apply BitVec.eq_of_toNat_eq
    simp
  have hhigh : f.id.extractLsb' 8 8 = BitVec.ofNat 8 (f.id.toNat / 256) := by
    apply BitVec.eq_of_toNat_eq
    simp [Nat.shiftRight_eq_div_pow]
  simp only [flashReadByte, offset_eq_zero_iff, offset_eq_one_iff, hlow, hhigh, apply_ite Prod.fst, ne_eq, ite_not]
  rfl

/-- In ID mode a byte is drawn at every offset but the identifier's two (R161). -/
theorem flashReadByte_snd_idMode {f : Flash} (h : f.phase = .idMode) (off : BitVec 16) (d : Nat) :
    (flashReadByte f off d).2 = if off.toNat < 2 then d else d + 1 := by
  simp only [flashReadByte, if_pos h, offset_eq_zero_iff, offset_eq_one_iff]
  by_cases h0 : off.toNat = 0
  · simp [h0]
  · by_cases h1 : off.toNat = 1
    · simp [h1]
    · simp [h0, h1, show ¬off.toNat < 2 by omega]

@[simp] theorem flashReadBytes_length (f : Flash) : ∀ (n : Nat) (off : BitVec 16) (d : Nat),
    (flashReadBytes f n off d).1.length = n
  | 0, _, _ => rfl
  | n + 1, off, d => by simp [flashReadBytes, flashReadBytes_length f n]

/-- Byte `i` of a read is the byte at the `i`-th offset, read after the `i` before it. -/
theorem flashReadBytes_getElem (f : Flash) : ∀ (n i : Nat) (off : BitVec 16) (d : Nat)
    (h : i < (flashReadBytes f n off d).1.length),
    (flashReadBytes f n off d).1[i] = (flashReadByte f (off + BitVec.ofNat 16 i) (flashReadBytes f i off d).2).1
  | n + 1, 0, off, d, _ => by simp [flashReadBytes]
  | n + 1, i + 1, off, d, h => by
    have hnext : off + BitVec.ofNat 16 (i + 1) = off + 1#16 + BitVec.ofNat 16 i := by
      rw [BitVec.add_assoc, Nat.add_comm, BitVec.ofNat_add]
    rw [hnext]
    exact flashReadBytes_getElem f n i (off + 1#16) (flashReadByte f off d).2 (by simpa using h)

/-- In ID mode a read that does not pass offset 65535 draws one value per byte, but for the identifier's bytes. -/
theorem flashReadBytes_snd_idMode {f : Flash} (h : f.phase = .idMode) : ∀ (n : Nat) (off : BitVec 16) (d : Nat),
    off.toNat + n ≤ 65536 → (flashReadBytes f n off d).2 = d + (n - (2 - off.toNat))
  | 0, _, _, _ => by simp [flashReadBytes]
  | n + 1, off, d, hle => by
    have hnext : (off + 1#16).toNat = (off.toNat + 1) % 65536 := by simp
    show (flashReadBytes f n (off + 1#16) (flashReadByte f off d).2).2 = _
    rw [flashReadBytes_snd_idMode h n _ _ (by omega), flashReadByte_snd_idMode h, hnext]
    split <;> omega

theorem toNat_flashOffset (A : Word) : (flashOffset A).toNat = A.toNat % 65536 := by simp [flashOffset]

theorem exec_readRow_flash {s : State} {a : Word} (hl : s.cart.loaded = true) (hc : classify s a = .flashROM)
    (w : AccessWidth) (openBus : Word) :
    exec (readRow w a openBus) s = .next (deliverFlashRead (widthBytes w) (flashOffset (align w a)) s) := by
  rw [exec_readRow, requireLoaded_next hl]
  simp only [memRead, hc]

/-- In ID mode the bytes before a drawn byte of an aligned read are drawn too, but for the identifier's, which start a
read at offset 0. -/
theorem draws_before_drawn_byte {f : Flash} (h : f.phase = .idMode) {w : AccessWidth} {a : Word} {i : Nat}
    (hi : i < widthBytes w) (h0 : ((align w a).toNat + i) % 65536 ≠ 0) (h1 : ((align w a).toNat + i) % 65536 ≠ 1)
    (d : Nat) :
    (flashReadBytes f i (flashOffset (align w a)) d).2 =
      d + if (align w a).toNat % 65536 = 0 then i - 2 else i := by
  have hA := align_mod w a
  have haligned : (align w a).toNat % 65536 + i ≤ 65536 ∧
      ((align w a).toNat % 65536 = 0 ∨ 2 ≤ (align w a).toNat % 65536 ∨ i = 0) := by
    cases w
    all_goals
      simp only [widthBytes] at hi hA
      omega
  obtain ⟨hfit, hstart⟩ := haligned
  have hskip : i - (2 - (align w a).toNat % 65536) = if (align w a).toNat % 65536 = 0 then i - 2 else i := by
    split <;> omega
  rw [flashReadBytes_snd_idMode h i _ d (by rwa [toNat_flashOffset]), toNat_flashOffset, hskip]

/-- Settles O24: byte `i` is the byte read at the `i`-th offset, after the draws of the bytes before it. -/
theorem flashReadIsComposedOfBytes : Obligations.FlashReadIsComposedOfBytes := by
  intro s w a openBus hl hc
  have hlen := flashReadBytes_length s.flash (widthBytes w) (flashOffset (align w a)) s.draws
  have h4 : (flashReadBytes s.flash (widthBytes w) (flashOffset (align w a)) s.draws).1.length ≤ 4 :=
    hlen.trans_le (widthBytes_le w)
  refine ⟨_, _, exec_readRow_flash hl hc w openBus, ?_, ?_, ?_⟩
  · simpa only [hlen] using leWord_lt _ h4
  · intro hp
    rw [flashReadBytes_content s.flash hp]
  · intro i hi
    have hoff : (flashOffset (align w a) + BitVec.ofNat 16 i).toNat = ((align w a).toNat + i) % 65536 := by
      simp [toNat_flashOffset]
    rw [byteOf_leWord _ i (hlen.symm ▸ hi) h4, flashReadBytes_getElem, flashReadByte_fst, hoff]
    by_cases hp : s.flash.phase = .idMode
    · simp only [hp, ne_eq, not_true_eq_false, if_false]
      split
      · rfl
      · rename_i h0
        split
        · rfl
        · rename_i h1
          rw [draws_before_drawn_byte hp hi h0 h1]
    · simp only [hp, ne_eq, not_false_eq_true, if_true]

end Sys2Proof.Machine

/-!
PROOF. Decode and encode agree (R61, R65, R66, R70): both round trips, and the codes that are no row (R62). The frames and
the command words are taken apart by lemmas of their own; which row a word is, is the case split over the phase.
-/

namespace Sys2Proof

open Machine

/-! ## Frames (R65, R66) -/

/-- A bit string of `n` bits is the bits of the vector it stands for. -/
theorem bitsOf_ofNat_bitsVal {n : Nat} {bs : List Bool} (h : bs.length = n) :
    bitsOf n (BitVec.ofNat n (bitsVal bs)).toNat = bs := by
  subst h
  rw [BitVec.toNat_ofNat, Nat.mod_eq_of_lt (bitsVal_lt bs), bitsOf_bitsVal]

/-- A string of `n + 1` bits is its first `n` bits and the bit after them. -/
theorem take_append_headD_drop {bs : List Bool} {n : Nat} (h : bs.length = n + 1) :
    bs.take n ++ [(bs.drop n).headD false] = bs := by
  obtain ⟨b, hb⟩ := List.length_eq_one_iff.mp (show (bs.drop n).length = 1 by simp [h])
  rw [hb, List.headD_cons, ← hb, List.take_append_drop]

/-- The fields of a read frame encode back to the frame (R65). -/
theorem readFrameBits_fields {w : Nat} {rest : List Bool} (h : rest.length = w + 1) :
    readFrameBits w (BitVec.ofNat w (bitsVal (rest.take w))).toNat ((rest.drop w).headD false) =
      true :: true :: rest := by
  rw [readFrameBits, bitsOf_ofNat_bitsVal (by simp [h]), take_append_headD_drop h]

/-- The fields of a write frame encode back to the frame (R66). -/
theorem writeFrameBits_fields {w : Nat} {rest : List Bool} (h : rest.length = w + 65) :
    writeFrameBits w (BitVec.ofNat w (bitsVal (rest.take w))).toNat
        (BitVec.ofNat 64 (bitsVal ((rest.drop w).take 64))).toNat ((rest.drop (w + 64)).headD false) =
      true :: false :: rest := by
  have hlast := take_append_headD_drop (show (rest.drop w).length = 64 + 1 by simp [h])
  rw [List.drop_drop] at hlast
  rw [writeFrameBits, bitsOf_ofNat_bitsVal (by simp [h]), bitsOf_ofNat_bitsVal (by simp [h]), hlast,
    List.take_append_drop]

theorem decodeFrame_readFrame6 (k : BitVec 6) (s : Bool) :
    decodeFrame (readFrameBits 6 k.toNat s) = .ok (.eepReadFrame6 k s) := by
  simp [decodeFrame, readFrameBits]

theorem decodeFrame_readFrame14 (k : BitVec 14) (s : Bool) :
    decodeFrame (readFrameBits 14 k.toNat s) = .ok (.eepReadFrame14 k s) := by
  simp [decodeFrame, readFrameBits]

theorem decodeFrame_writeFrame6 (k : BitVec 6) (d : BitVec 64) (s : Bool) :
    decodeFrame (writeFrameBits 6 k.toNat d.toNat s) = .ok (.eepWriteFrame6 k d s) := by
  simp [decodeFrame, writeFrameBits, List.drop_append]

theorem decodeFrame_writeFrame14 (k : BitVec 14) (d : BitVec 64) (s : Bool) :
    decodeFrame (writeFrameBits 14 k.toNat d.toNat s) = .ok (.eepWriteFrame14 k d s) := by
  simp [decodeFrame, writeFrameBits, List.drop_append]

/-- What a frame decodes to is the row of the frame, in every context (R65, R66). -/
theorem row_of_decodeFrame {bits : List Bool} {i : Instr} (h : decodeFrame bits = .ok i) (c : DecodeCtx) :
    i.WellFormed ∧ selects c i = true ∧ encode i = .eepFrame bits := by
  unfold decodeFrame at h
  split at h
  · split_ifs at h with h6 h14
    · cases h
      exact ⟨rfl, rfl, congrArg Packet.eepFrame (readFrameBits_fields h6)⟩
    · cases h
      exact ⟨rfl, rfl, congrArg Packet.eepFrame (readFrameBits_fields h14)⟩
  · split_ifs at h with h6 h14
    · cases h
      exact ⟨rfl, rfl, congrArg Packet.eepFrame (writeFrameBits_fields h6)⟩
    · cases h
      exact ⟨rfl, rfl, congrArg Packet.eepFrame (writeFrameBits_fields h14)⟩
  · cases h

theorem row_of_decodeUnresolved {bits : List Bool} {i : Instr} (h : decodeUnresolved bits = .ok i) (c : DecodeCtx) :
    i.WellFormed ∧ selects c i = true ∧ encode i = .eepFrameThenRead bits := by
  unfold decodeUnresolved at h
  split at h
  · cases h
    exact ⟨rfl, rfl, rfl⟩
  · cases h

/-! ## Serial bits, serial reads and command words (R100, R113, R140) -/

/-- A serial bit is the words of the row its phase selects (R100). -/
theorem row_of_decodeEepBit (c : DecodeCtx) (b : Bool) :
    (decodeEepBit c b).WellFormed ∧ selects c (decodeEepBit c b) = true ∧ encode (decodeEepBit c b) = .eepBit b := by
  obtain ⟨_, phase, bits, _⟩ := c
  cases phase
  case command => cases b <;> exact ⟨rfl, rfl, rfl⟩
  case address => cases bits <;> exact ⟨rfl, rfl, rfl⟩
  all_goals exact ⟨rfl, rfl, rfl⟩

/-- A serial read is the words of the row its phase selects (R113). -/
theorem row_of_decodeEepRead (c : DecodeCtx) :
    (decodeEepRead c).WellFormed ∧ selects c (decodeEepRead c) = true ∧ encode (decodeEepRead c) = .eepRead := by
  obtain ⟨_, phase, bits, _⟩ := c
  cases phase
  case address => cases bits <;> exact ⟨rfl, rfl, rfl⟩
  all_goals exact ⟨rfl, rfl, rfl⟩

theorem isCommand_iff {cmd : Byte} {off : BitVec 16} {v : Byte} :
    isCommand cmd off v = true ↔ off = flashCmdAddr ∧ v = cmd := by
  simp [isCommand]

theorem isSectorErase_iff {off : BitVec 16} {v : Byte} :
    isSectorErase off v = true ↔ isSectorOffset off = true ∧ v = cmdSectorErase := by
  simp [isSectorErase]

/-- A byte write is the words of the row its phase selects: a word of `Unlock2` or `EraseUnlock2` that none of the
command rows names is the row of the other words (R140, R156, R157). -/
theorem row_of_decodeFlash (c : DecodeCtx) (off : BitVec 16) (v : Byte) :
    (decodeFlash c off v).WellFormed ∧ selects c (decodeFlash c off v) = true ∧
      encode (decodeFlash c off v) = .flashCmd (cmdWord off v) := by
  obtain ⟨_, _, _, phase⟩ := c
  cases phase
  case unlock2 =>
    simp only [decodeFlash]
    split_ifs
    case neg =>
      have hother : (!isUnlock2Command off v) = true := by simp [isUnlock2Command, *]
      exact ⟨hother, rfl, rfl⟩
    all_goals
      obtain ⟨rfl, rfl⟩ := isCommand_iff.mp ‹_›
      exact ⟨rfl, rfl, rfl⟩
  case eraseUnlock2 =>
    simp only [decodeFlash]
    split_ifs with hchip hsector
    · obtain ⟨rfl, rfl⟩ := isCommand_iff.mp hchip
      exact ⟨rfl, rfl, rfl⟩
    · obtain ⟨hoff, rfl⟩ := isSectorErase_iff.mp hsector
      exact ⟨hoff, rfl, rfl⟩
    · have hother : (!isEraseConfirm off v) = true := by simp [isEraseConfirm, *]
      exact ⟨hother, rfl, rfl⟩
  all_goals exact ⟨rfl, rfl, rfl⟩

theorem decode_cmdWord (c : DecodeCtx) (off : BitVec 16) (v : Byte) :
    decode c (.flashCmd (cmdWord off v)) = .ok (decodeFlash c off v) := by
  simp only [decode, cmdOff_cmdWord, cmdByte_cmdWord]

/-- A word of `Unlock2` that no command row names is the row of the other words (R156). -/
theorem decodeFlash_unlock2Other {off : BitVec 16} {v : Byte} (h : (Instr.flUnlock2Other off v).WellFormed)
    (k : Kind) (m : EepPhase) (b : Option AddrWidth) :
    decodeFlash ⟨k, m, b, .unlock2⟩ off v = .flUnlock2Other off v := by
  obtain ⟨⟨⟨⟨hidEnter, hidExit⟩, herase⟩, hprogram⟩, hbank⟩ := by
    simpa only [Instr.WellFormed, Instr.wf, isUnlock2Command, Bool.not_eq_true', Bool.or_eq_false_iff] using h
  simp [decodeFlash, hidEnter, hidExit, herase, hprogram, hbank]

/-- The sector-erase byte at a sector offset is no chip erase and erases the sector (R151). -/
theorem decodeFlash_sectorErase {off : BitVec 16} (h : (Instr.flSectorErase off).WellFormed)
    (k : Kind) (m : EepPhase) (b : Option AddrWidth) :
    decodeFlash ⟨k, m, b, .eraseUnlock2⟩ off cmdSectorErase = .flSectorErase off := by
  have hchip : ¬isCommand cmdChipErase off cmdSectorErase = true := fun hc => absurd (isCommand_iff.mp hc).2 (by decide)
  simp only [decodeFlash, if_neg hchip, if_pos (isSectorErase_iff.mpr ⟨h, rfl⟩)]

/-- A word of `EraseUnlock2` that no erase row names is the row of the other words (R157). -/
theorem decodeFlash_eraseOther {off : BitVec 16} {v : Byte} (h : (Instr.flEraseOther off v).WellFormed)
    (k : Kind) (m : EepPhase) (b : Option AddrWidth) :
    decodeFlash ⟨k, m, b, .eraseUnlock2⟩ off v = .flEraseOther off v := by
  obtain ⟨hchip, hsector⟩ := by
    simpa only [Instr.WellFormed, Instr.wf, isEraseConfirm, Bool.not_eq_true', Bool.or_eq_false_iff] using h
  simp [decodeFlash, hchip, hsector]

/-! ## Transaction codes (R61, R62) -/

/-- The reserved codes are the ones that no transaction row has (R62). -/
theorem reservedCode_iff (t : BitVec 4) :
    reservedCode t ↔ t ≠ 0b0000#4 ∧ t ≠ 0b0001#4 ∧ t ≠ 0b0010#4 ∧ t ≠ 0b0100#4 ∧ t ≠ 0b0101#4 ∧ t ≠ 0b0110#4 ∧
      t ≠ 0b1000#4 := by
  unfold reservedCode
  revert t
  decide

theorem decodeTxn_of_reserved {t : BitVec 4} (h : reservedCode t) (c : DecodeCtx) (addr data : Word) :
    decodeTxn c t addr data = .error (.reservedTxn t) := by
  obtain ⟨h0, h1, h2, h4, h5, h6, h8⟩ := (reservedCode_iff t).mp h
  simp only [decodeTxn, h0, h1, h2, h4, h5, h6, h8, if_false]

/-- A code that is not reserved decodes to the row of the call; POWER's row does not hold the unused fields (entry 15). -/
theorem row_of_decodeTxn {t : BitVec 4} (h : ¬reservedCode t) (c : DecodeCtx) (addr data : Word) :
    ∃ i, decodeTxn c t addr data = .ok i ∧ i.WellFormed ∧ selects c i = true ∧
      (encode i = .txn4 t addr data ∨ t = 0b1000#4 ∧ encode i = .txn4 0b1000#4 0 0) := by
  by_cases h8 : t = 0b1000#4
  · subst h8
    obtain ⟨kind, _, _, _⟩ := c
    cases kind <;> exact ⟨_, rfl, rfl, rfl, .inr ⟨rfl, rfl⟩⟩
  · have hbus : t = 0b0000#4 ∨ t = 0b0001#4 ∨ t = 0b0010#4 ∨ t = 0b0100#4 ∨ t = 0b0101#4 ∨ t = 0b0110#4 := by
      simpa [reservedCode_iff, h8, ← or_iff_not_imp_left] using h
    obtain rfl | rfl | rfl | rfl | rfl | rfl := hbus
    all_goals exact ⟨_, rfl, rfl, rfl, .inl rfl⟩

/-! ## The obligations -/

/-- Settles O1: each row's words decode to the row, by its phase or kind and, for a frame or a command word, by the
fields the words hold. -/
theorem decodeOfEncodeIsTheRow : Obligations.DecodeOfEncodeIsTheRow := by
  intro c i hwf hsel
  obtain ⟨kind, phase, bits, fphase⟩ := c
  cases i
  case eepReadFrame6 k s => exact decodeFrame_readFrame6 k s
  case eepReadFrame14 k s => exact decodeFrame_readFrame14 k s
  case eepWriteFrame6 k d s => exact decodeFrame_writeFrame6 k d s
  case eepWriteFrame14 k d s => exact decodeFrame_writeFrame14 k d s
  case power | eepPower | flPower => cases kind <;> cases hsel <;> rfl
  case eepAddrBit =>
    obtain ⟨rfl, hw⟩ : phase = .address ∧ bits ≠ none := by simpa [selects] using hsel
    exact congrArg Except.ok (if_neg hw)
  case eepStreamBit | eepReadDetect =>
    obtain ⟨rfl, rfl⟩ : phase = .address ∧ bits = none := by simpa [selects] using hsel
    rfl
  case eepReadIdle =>
    cases phase
    case readData => cases hsel
    case address =>
      cases bits
      case none => cases hsel
      case some => rfl
    all_goals rfl
  case eepStart | eepReqRead | eepReqWrite | eepDataBit | eepReadStop | eepWriteStop | eepAbortRead | eepReadBit =>
    cases eq_of_beq hsel
    rfl
  case flUnlock2Other off v =>
    cases eq_of_beq hsel
    exact (decode_cmdWord _ off v).trans (congrArg Except.ok (decodeFlash_unlock2Other hwf _ _ _))
  case flSectorErase off =>
    cases eq_of_beq hsel
    exact (decode_cmdWord _ off _).trans (congrArg Except.ok (decodeFlash_sectorErase hwf _ _ _))
  case flEraseOther off v =>
    cases eq_of_beq hsel
    exact (decode_cmdWord _ off v).trans (congrArg Except.ok (decodeFlash_eraseOther hwf _ _ _))
  case flUnlock1 | flUnlock2 | flIdEnter | flIdExit | flEraseSetup | flProgramSetup | flBankSetup | flIdModeWrite |
      flEraseUnlock1 | flEraseUnlock2 | flChipErase | flProgram | flBankSelect =>
    cases eq_of_beq hsel
    exact decode_cmdWord _ _ _
  all_goals rfl

/-- Settles O2: each format of call has its row lemma above. -/
theorem decodedRowEncodesBack : Obligations.DecodedRowEncodesBack := by
  intro c p i h
  cases p
  case txn4 t addr data =>
    by_cases ht : reservedCode t
    · cases (decodeTxn_of_reserved ht c addr data).symm.trans h
    · obtain ⟨j, hj, hwf, hsel, henc⟩ := row_of_decodeTxn ht c addr data
      cases hj.symm.trans h
      refine ⟨hwf, hsel, henc.imp_right ?_⟩
      rintro ⟨rfl, hpower⟩
      exact ⟨addr, data, rfl, hpower⟩
  case eepFrame bits =>
    obtain ⟨hwf, hsel, henc⟩ := row_of_decodeFrame h c
    exact ⟨hwf, hsel, .inl henc⟩
  case eepFrameThenRead bits =>
    obtain ⟨hwf, hsel, henc⟩ := row_of_decodeUnresolved h c
    exact ⟨hwf, hsel, .inl henc⟩
  all_goals cases h
  case eepBit b =>
    obtain ⟨hwf, hsel, henc⟩ := row_of_decodeEepBit c b
    exact ⟨hwf, hsel, .inl henc⟩
  case eepRead =>
    obtain ⟨hwf, hsel, henc⟩ := row_of_decodeEepRead c
    exact ⟨hwf, hsel, .inl henc⟩
  case flashCmd w =>
    obtain ⟨hwf, hsel, henc⟩ := row_of_decodeFlash c (cmdOff w) (cmdByte w)
    rw [cmdWord_fields] at henc
    exact ⟨hwf, hsel, .inl henc⟩
  all_goals exact ⟨rfl, rfl, .inl rfl⟩

/-- Settles O5: a reserved code is the one thing `decodeTxn` rejects, and the step refuses it by name. -/
theorem reservedCodesAreRefused : Obligations.ReservedCodesAreRefused := by
  intro s t addr data rest hin
  constructor
  · intro ht
    exact step_of_decode_error hin (decodeTxn_of_reserved ht (decodeCtx s) addr data)
  · intro ht
    obtain ⟨i, hi, _⟩ := row_of_decodeTxn ht (decodeCtx s) addr data
    exact ⟨i, hi⟩

/-- Settles O4: each of the words is the words of its row, which decode to it (O1). -/
theorem wordsOfTheSpecDecode : Obligations.WordsOfTheSpecDecode := by
  have row := decodeOfEncodeIsTheRow
  exact ⟨fun c addr openBus => row c (.readH addr openBus) rfl rfl,
    fun c addr wdata => row c (.writeW addr wdata) rfl rfl,
    row _ .eepPower rfl rfl,
    row _ .eepReqRead rfl rfl,
    row _ .eepReadDetect rfl rfl,
    fun c => row c (.eepReadFrame6 3#6 false) rfl rfl,
    fun _ _ _ => row _ (.flUnlock1 0x5555#16 0xAA#8) rfl rfl,
    fun _ _ _ => row _ (.flEraseUnlock1 0x5555#16 0xAA#8) rfl rfl,
    fun _ _ _ => row _ .flIdEnter rfl rfl,
    fun _ _ _ => row _ (.flSectorErase 0x3000#16) rfl rfl,
    fun _ _ _ => row _ (.flEraseOther 0x3001#16 0x30#8) rfl rfl⟩

end Sys2Proof

/-!
PROOF. The bus interface (R80 to R92): what an access does at each target, byte by byte where the target holds bytes,
and the persistence accesses to the active array (R94, R95).
-/

namespace Sys2Proof.Machine

/-! ## A bus row of a loaded cartridge -/

theorem exec_readRow_of_loaded {s : State} (hl : s.cart.loaded = true) (w : AccessWidth) (a openBus : Word) :
    exec (readRow w a openBus) s = .next (memRead w a openBus s) := by
  rw [exec_readRow, requireLoaded_next hl]

theorem exec_writeRow_of_loaded {s : State} (hl : s.cart.loaded = true) (w : AccessWidth) (a v : Word) :
    exec (writeRow w a v) s = .next (memWrite w a v s) := by
  rw [exec_writeRow, requireLoaded_next hl]

section Targets

variable {s : State} {a : Word}

theorem memRead_programImage (hc : classify s a = .programImage) (w : AccessWidth) (openBus : Word) :
    memRead w a openBus s = { s with resp := .rdata (romRead s.rom (align w a) (widthBytes w)) } := by
  simp only [memRead, hc]

theorem memRead_staticRAM (hc : classify s a = .staticRAM) (w : AccessWidth) (openBus : Word) :
    memRead w a openBus s = { s with resp := .rdata (sramRead s.sram (align w a) (widthBytes w)) } := by
  simp only [memRead, hc]

theorem memRead_serialEEPROM (hc : classify s a = .serialEEPROM) (w : AccessWidth) (openBus : Word) :
    memRead w a openBus s = deliverEepRead s := by
  simp only [memRead, hc]

theorem memRead_openBus (hc : classify s a = .openBus) (w : AccessWidth) (openBus : Word) :
    memRead w a openBus s = { s with resp := .rdata (openBusValue w openBus) } := by
  simp only [memRead, hc]

theorem memWrite_programImage (hc : classify s a = .programImage) (w : AccessWidth) (v : Word) :
    memWrite w a v s = { s with resp := .nothing } := by
  simp only [memWrite, hc]

theorem memWrite_staticRAM (hc : classify s a = .staticRAM) (w : AccessWidth) (v : Word) :
    memWrite w a v s =
      { s with sram := sramWriteFrom (align w a) 0 (lowBytes (widthBytes w) v) s.sram, resp := .nothing } := by
  simp only [memWrite, hc]

theorem memWrite_serialEEPROM (hc : classify s a = .serialEEPROM) (w : AccessWidth) (v : Word) :
    memWrite w a v s = deliverEepBit (serialBit v) s := by
  simp only [memWrite, hc]

theorem memWrite_flashROM (hc : classify s a = .flashROM) (w : AccessWidth) (v : Word) :
    memWrite w a v s = deliverFlashByte (flashOffset (align w a)) (flashByte v) s := by
  simp only [memWrite, hc]

theorem memWrite_openBus (hc : classify s a = .openBus) (w : AccessWidth) (v : Word) :
    memWrite w a v s = { s with resp := .nothing } := by
  simp only [memWrite, hc]

end Targets

/-! ## Byte reads of the program image and of the StaticRAM (R86, R88) -/

/-- The word composed of an access's bytes has no bit above them, and byte `i` of it is the `i`-th of them (R45). -/
theorem leWord_map_range (w : AccessWidth) (f : Nat → Byte) :
    (leWord ((List.range (widthBytes w)).map f)).toNat < 2 ^ (8 * widthBytes w) ∧
      ∀ i, i < widthBytes w → byteOf (leWord ((List.range (widthBytes w)).map f)) i = f i := by
  have hlen : ((List.range (widthBytes w)).map f).length = widthBytes w := by simp
  have h4 : ((List.range (widthBytes w)).map f).length ≤ 4 := hlen.trans_le (widthBytes_le w)
  refine ⟨by simpa only [hlen] using leWord_lt _ h4, fun i hi => ?_⟩
  rw [byteOf_leWord _ i (hlen.symm ▸ hi) h4]
  simp

/-- Settles O18: the answer is `romRead` (R88), a word composed of the mirrored bytes. -/
theorem programImageReadIsMirrored : Obligations.ProgramImageReadIsMirrored := by
  intro s w a openBus hl hc
  refine ⟨_, ?_, leWord_map_range w fun i => s.rom.image.read (romIndex s.rom (align w a) i)⟩
  rw [exec_readRow_of_loaded hl, memRead_programImage hc]
  rfl

/-- Settles O19: the answer is `sramRead` (R86), a word composed of the bytes at the masked indices. -/
theorem staticRamReadIsMasked : Obligations.StaticRamReadIsMasked := by
  intro s w a openBus hl hc
  refine ⟨_, ?_, leWord_map_range w fun i => s.sram.content.read (sramIndex s.sram (align w a) i)⟩
  rw [exec_readRow_of_loaded hl, memRead_staticRAM hc]
  rfl

/-! ## StaticRAM writes (R87) -/

@[simp] theorem lowBytes_length (n : Nat) (v : Word) : (lowBytes n v).length = n := by simp [lowBytes]

theorem lowBytes_getElem (n : Nat) (v : Word) (i : Nat) (h : i < (lowBytes n v).length) :
    (lowBytes n v)[i] = byteOf v i := by simp [lowBytes]

/-- Settles O20: the invariant's mask keeps the indices of one access apart, so no byte overwrites another. -/
theorem staticRamWriteStoresItsBytes : Obligations.StaticRamWriteStoresItsBytes := by
  intro s w a v hi hl hc
  obtain ⟨hsize, hmask⟩ := hi.sram_size hl (classify_staticRAM hc)
  have apart : ∀ k k', k < (lowBytes (widthBytes w) v).length → k' < (lowBytes (widthBytes w) v).length → k ≠ k' →
      sramIndex s.sram (align w a) (0 + k) ≠ sramIndex s.sram (align w a) (0 + k') := by
    intro k k' hk hk' hne
    have h4 := widthBytes_le w
    rw [lowBytes_length] at hk hk'
    rw [Nat.zero_add, Nat.zero_add]
    exact sramIndex_ne hsize hmask _ (by omega) (by omega) hne
  refine ⟨(sramWriteFrom (align w a) 0 (lowBytes (widthBytes w) v) s.sram).content, ?_, fun i hlt => ?_, fun j hj => ?_⟩
  · rw [exec_writeRow_of_loaded hl, memWrite_staticRAM hc, ← sramWriteFrom_content]
  · have hstored := read_sramWriteFrom_on (align w a) 0 _ s.sram i (by rwa [lowBytes_length]) hi.sram_wf apart
    rwa [Nat.zero_add, lowBytes_getElem] at hstored
  · refine read_sramWriteFrom_off _ 0 _ s.sram j hi.sram_wf fun k hk => ?_
    rw [Nat.zero_add]
    exact hj k (by rwa [lowBytes_length] at hk)

/-! ## Open bus and discarded writes (R89 to R91) -/

/-- A mask of the low `k` bits takes the value modulo `2 ^ k`. -/
theorem and_low_bits (v : Word) {m : Word} {k : Nat} (hm : m.toNat = 2 ^ k - 1) :
    v &&& m = BitVec.ofNat 32 (v.toNat % 2 ^ k) := by
  have hlt : v.toNat % 2 ^ k < 2 ^ 32 := lt_of_le_of_lt (Nat.mod_le _ _) v.isLt
  apply BitVec.eq_of_toNat_eq
  rw [BitVec.toNat_and, hm, Nat.and_two_pow_sub_one_eq_mod, BitVec.toNat_ofNat, Nat.mod_eq_of_lt hlt]

/-- The open-bus value is the low bits of the word, as many as the width has (R90). -/
theorem openBusValue_eq (w : AccessWidth) (v : Word) :
    openBusValue w v = BitVec.ofNat 32 (v.toNat % 2 ^ (8 * widthBytes w)) := by
  cases w with
  | byte => exact and_low_bits v (k := 8) rfl
  | half => exact and_low_bits v (k := 16) rfl
  | word => simp [openBusValue, widthBytes, Nat.mod_eq_of_lt v.isLt]

/-- Settles O21: the three answers of `memRead` and `memWrite` at these targets. -/
theorem openBusAndImageWritesDoNothing : Obligations.OpenBusAndImageWritesDoNothing := by
  intro s w a x hl
  simp only [exec_readRow_of_loaded hl, exec_writeRow_of_loaded hl, ← openBusValue_eq]
  exact ⟨fun hc => congrArg Host.Outcome.next (memRead_openBus hc w x),
    fun hc => congrArg Host.Outcome.next (memWrite_openBus hc w x),
    fun hc => congrArg Host.Outcome.next (memWrite_programImage hc w x)⟩

/-! ## The engines' windows (R82, R83, R85) -/

theorem zextBit_eq (b : Bool) : zextBit b = if b then 1#32 else 0#32 := by cases b <;> rfl

/-- Settles O22: the access and the row the phase selects both hand one event to the engine. -/
theorem eepromAccessIsOneSerialBit : Obligations.EepromAccessIsOneSerialBit := by
  intro s w a x hl hc
  have ha : s.EepromActive := ⟨hl, classify_serialEEPROM hc⟩
  rw [exec_readRow_of_loaded hl, memRead_serialEEPROM hc, exec_writeRow_of_loaded hl, memWrite_serialEEPROM hc,
    exec_decodeEepRead, exec_decodeEepBit, onEngine_of_active ha, onEngine_of_active ha]
  refine ⟨?_, rfl, rfl, rfl⟩
  simp only [← zextBit_eq]
  rfl

theorem flashOffset_eq (A : Word) : flashOffset A = BitVec.ofNat 16 A.toNat :=
  BitVec.eq_of_toNat_eq (by simp [flashOffset])

theorem flashByte_eq (v : Word) : flashByte v = BitVec.ofNat 8 v.toNat :=
  BitVec.eq_of_toNat_eq (by simp [flashByte])

/-- Settles O23: the write is one event of the engine, at the offset and with the byte of R48. -/
theorem flashWriteIsOneByteWrite : Obligations.FlashWriteIsOneByteWrite := by
  intro s w a v hl hc
  rw [exec_writeRow_of_loaded hl, memWrite_flashROM hc, flashOffset_eq, flashByte_eq]
  rfl

/-! ## While unloaded (R92, R203) -/

theorem requireLoaded_of_unloaded {s : State} (hl : s.cart.loaded = false) (t : State) :
    requireLoaded s t = .refused .unloaded := by
  simp [requireLoaded, hl]

theorem activeKind_of_unloaded {s : State} (hl : s.cart.loaded = false) : activeKind s = .none := by
  simp [activeKind, hl]

theorem powerActive_of_unloaded {s : State} (hl : s.cart.loaded = false) :
    powerActive s = { s with resp := .nothing } := by
  simp only [powerActive, activeKind_of_unloaded hl]

/-- Settles O15: a bus row needs a loaded cartridge, and power reaches no backend without one. -/
theorem unloadedAccessIsRefused : Obligations.UnloadedAccessIsRefused := by
  intro s w a x hl
  rw [exec_readRow, exec_writeRow]
  exact ⟨requireLoaded_of_unloaded hl _, requireLoaded_of_unloaded hl _,
    congrArg Host.Outcome.next (powerActive_of_unloaded hl)⟩

/-! ## Persistence accesses (R94, R95) -/

theorem activeKind_of_loaded {s : State} (hl : s.cart.loaded = true) : activeKind s = s.cart.kind := if_pos hl

/-- Within `contentSize()` the accesses answer the content accessors of the active backend. -/
theorem persistenceCall_within (s : State) :
    persistenceCall .contentPointer s = .next { s with resp := .pointer (contentPointer s) } ∧
      persistenceCall .contentSize s = .next { s with resp := .size (contentSize s) } ∧
      ∀ i b, i < contentSize s →
        persistenceCall (.readContent i) s = .next { s with resp := .contentByte (contentByte s i) } ∧
        persistenceCall (.writeContent i b) s = .next { setContentByte s i b with resp := .nothing } :=
  ⟨rfl, rfl, fun _ _ hi => ⟨if_pos hi, if_pos hi⟩⟩

theorem persistenceCall_outside {s : State} {i : Nat} (h : contentSize s ≤ i) (b : Byte) :
    persistenceCall (.readContent i) s = .refused .contentOutOfRange ∧
      persistenceCall (.writeContent i b) s = .refused .contentOutOfRange :=
  ⟨if_neg (Nat.not_lt.2 h), if_neg (Nat.not_lt.2 h)⟩

/-- Settles O60: the accessors of each active kind name its array and its size. -/
theorem persistenceReachesTheActiveArray : Obligations.PersistenceReachesTheActiveArray := by
  intro s
  have within := persistenceCall_within s
  refine ⟨fun hk => ?_, fun ⟨hl, hk⟩ => ?_, fun ⟨hl, hk⟩ => ?_, fun hl hk => ?_,
    fun i b hi => persistenceCall_outside hi b⟩
  · obtain ⟨hpointer, hsize, -⟩ := within
    simp only [contentPointer, contentSize, hk] at hpointer hsize
    exact ⟨hpointer, hsize⟩
  all_goals
    simpa only [contentPointer, contentSize, contentByte, setContentByte, activeKind_of_loaded hl, hk] using within

end Sys2Proof.Machine

/-!
PROOF. Where EEPROM content changes (R117): on the 64th data bit of a write, and where a read detects the width of an
unresolved write request. Every row that is no frame keeps the content everywhere else.
-/

namespace Sys2Proof.Machine

/-- The EEPROM is active, and its engine would commit a block on the next serial bit or the next serial read (R117). -/
def AtCommit (s : State) : Prop :=
  s.EepromActive ∧
    ((s.eep.phase = .writeData ∧ s.eep.count = 63) ∨
     (s.eep.phase = .address ∧ s.eep.bits = none ∧ s.eep.op = .write ∧
      widthDetect s.params.widthDetect (s.eep.stream.length - 65) ≠ none))

theorem eepDetectCount_of_write {e : Eep} (h : e.op = .write) : eepDetectCount e = (e.stream.length : Int) - 65 := by
  simp only [eepDetectCount, h]

theorem eepDetectCount_of_read {e : Eep} (h : e.op = .read) : eepDetectCount e = (e.stream.length : Int) - 1 := by
  simp only [eepDetectCount, h]

/-! ## The arm of a serial read (R113) -/

theorem eepReadBit_of_readData {e : Eep} (hp : e.phase = .readData) (p : Params) (d : Nat) :
    eepReadBit p d e = eepReadDataArm p d e := by
  simp only [eepReadBit, hp]

theorem eepReadBit_of_unresolved {e : Eep} (hp : e.phase = .address) (hb : e.bits = none) (p : Params) (d : Nat) :
    eepReadBit p d e = eepDetectArm p d e := by
  simp only [eepReadBit, hp, hb]

/-- Outside `ReadData` and `Address` of an unresolved width a read takes the arm of R116. -/
theorem eepReadBit_elsewhere {e : Eep} (hp : e.phase ≠ .readData) (hb : e.phase = .address → e.bits ≠ none)
    (p : Params) (d : Nat) : eepReadBit p d e = eepReadIdleArm d e := by
  unfold eepReadBit
  split
  · contradiction
  · rename_i hphase
    split
    · rfl
    · exact absurd ‹_› (hb hphase)
  all_goals rfl

/-! ## Content through reads -/

theorem eepReadDataArm_phase {e : Eep} (hp : e.phase = .readData) (p : Params) (d : Nat) :
    (eepReadDataArm p d e).eep.phase ≠ .address := by
  rcases eepReadDataArm_eep p d e with h | ⟨h, -⟩
  · simp [h, hp]
  · simp [h]

theorem eepDetectArm_phase (p : Params) (d : Nat) (e : Eep) : (eepDetectArm p d e).eep.phase ≠ .address := by
  unfold eepDetectArm
  split
  · nofun
  · split
    · exact eepReadDataArm_phase rfl _ _
    · nofun

/-- A read leaves no width to detect: after it the engine is not in `Address` of an unresolved width (R111, R112). -/
theorem eepReadBit_resolved (p : Params) (d : Nat) (e : Eep) :
    ¬((eepReadBit p d e).eep.phase = .address ∧ (eepReadBit p d e).eep.bits = none) := by
  rintro ⟨hphase, hbits⟩
  by_cases hp : e.phase = .readData
  · rw [eepReadBit_of_readData hp] at hphase
    exact eepReadDataArm_phase hp p d hphase
  by_cases hu : e.phase = .address ∧ e.bits = none
  · rw [eepReadBit_of_unresolved hu.1 hu.2] at hphase
    exact eepDetectArm_phase p d e hphase
  · rw [eepReadBit_elsewhere hp (not_and.1 hu)] at hphase hbits
    exact hu ⟨hphase, hbits⟩

/-- A run of reads changes content only where its first read detects the width of a write request (R117, R122). -/
theorem eepReadBits_content (p : Params) : ∀ (n d : Nat) (e : Eep),
    (eepReadBits p n d e).2.1.content = e.content ∨
      (e.phase = .address ∧ e.bits = none ∧ e.op = .write ∧ widthDetect p.widthDetect (eepDetectCount e) ≠ none)
  | 0, _, _ => .inl rfl
  | n + 1, d, e => by
    rcases eepReadBits_content p n (eepReadBit p d e).draws (eepReadBit p d e).eep with hrest | ⟨hp, hb, -⟩
    · exact (eepReadBit_content p d e).imp_left hrest.trans
    · exact absurd ⟨hp, hb⟩ (eepReadBit_resolved p d e)

/-! ## Content through a row -/

theorem deliverEepBit_content {s : State} (ha : s.EepromActive) (b : Bool) :
    (deliverEepBit b s).eep.content = s.eep.content ∨ AtCommit s :=
  (eepWriteBit_content b s.eep).imp_right fun ⟨hp, hc, _⟩ => ⟨ha, .inl ⟨hp, hc⟩⟩

theorem deliverEepRead_content {s : State} (ha : s.EepromActive) :
    (deliverEepRead s).eep.content = s.eep.content ∨ AtCommit s :=
  (eepReadBit_content s.params s.draws s.eep).imp_right fun ⟨hp, hb, ho, hd⟩ =>
    ⟨ha, .inr ⟨hp, hb, ho, eepDetectCount_of_write ho ▸ hd⟩⟩

theorem deliverEepRead64_content {s : State} (ha : s.EepromActive) :
    (deliverEepRead64 s).eep.content = s.eep.content ∨ AtCommit s :=
  (eepReadBits_content s.params _ s.draws s.eep).imp_right fun ⟨hp, hb, ho, hd⟩ =>
    ⟨ha, .inr ⟨hp, hb, ho, eepDetectCount_of_write ho ▸ hd⟩⟩

theorem memRead_eep_content {s : State} (hl : s.cart.loaded = true) (w : AccessWidth) (a openBus : Word) :
    (memRead w a openBus s).eep.content = s.eep.content ∨ AtCommit s := by
  cases hc : classify s a
  case serialEEPROM =>
    rw [memRead_serialEEPROM hc]
    exact deliverEepRead_content ⟨hl, classify_serialEEPROM hc⟩
  all_goals
    left
    simp [memRead, hc]

theorem memWrite_eep_content {s : State} (hl : s.cart.loaded = true) (w : AccessWidth) (a v : Word) :
    (memWrite w a v s).eep.content = s.eep.content ∨ AtCommit s := by
  cases hc : classify s a
  case serialEEPROM =>
    rw [memWrite_serialEEPROM hc]
    exact deliverEepBit_content ⟨hl, classify_serialEEPROM hc⟩ _
  all_goals
    left
    simp [memWrite, hc]

theorem powerActive_eep_content (s : State) : (powerActive s).eep.content = s.eep.content := by
  unfold powerActive
  split <;> rfl

/-- A row that is neither LOAD nor a frame keeps the content, but at a commit. -/
theorem exec_eep_content {i : Instr} {s s' : State} (hload : isLoad i = false) (hframe : isFrame i = false)
    (h : exec i s = .next s') : s'.eep.content = s.eep.content ∨ AtCommit s := by
  cases i
  case load => cases hload
  case eepReadFrame6 | eepReadFrame14 | eepWriteFrame6 | eepWriteFrame14 | eepFrameUnresolved => cases hframe
  case readB | readH | readW =>
    obtain ⟨hl, rfl⟩ := requireLoaded_eq_next.1 h
    exact memRead_eep_content hl _ _ _
  case writeB | writeH | writeW =>
    obtain ⟨hl, rfl⟩ := requireLoaded_eq_next.1 h
    exact memWrite_eep_content hl _ _ _
  case power | eepPower | flPower =>
    cases h
    exact .inl (powerActive_eep_content s)
  case unload =>
    cases h
    exact .inl rfl
  case eepReadBit | eepReadDetect | eepReadIdle =>
    obtain ⟨hl, hk, rfl⟩ := onEngine_eq_next.1 h
    exact deliverEepRead_content ⟨hl, hk⟩
  case eepRead64 =>
    obtain ⟨hl, hk, rfl⟩ := onEngine_eq_next.1 h
    exact deliverEepRead64_content ⟨hl, hk⟩
  case eepStart | eepReqRead | eepReqWrite | eepAddrBit | eepStreamBit | eepDataBit | eepReadStop | eepWriteStop |
      eepAbortRead =>
    obtain ⟨hl, hk, rfl⟩ := onEngine_eq_next.1 h
    exact deliverEepBit_content ⟨hl, hk⟩ _
  all_goals
    obtain ⟨-, -, rfl⟩ := onEngine_eq_next.1 h
    exact .inl rfl

/-- Settles O11: of the rows that are one event, only a serial bit, a serial read or a run of reads can commit. -/
theorem eepromContentChangesOnlyInACommit : Obligations.EepromContentChangesOnlyInACommit :=
  fun _ _ _ hload hframe h hne => (exec_eep_content hload hframe h).resolve_left hne

end Sys2Proof.Machine

/-!
PROOF. Which row an engine event is (R100, R113, R140): the row the decoder gives is the only one its words stand for.
-/

namespace Sys2Proof

open Machine

/-- A row that a call decodes to and encodes back to is the only row of the context with these words: any other such row
would decode to itself (O1). -/
theorem existsUnique_row {c : DecodeCtx} {p : Packet} {i : Instr} (hdecode : decode c p = .ok i)
    (hi : i.WellFormed ∧ selects c i = true ∧ encode i = p) :
    ∃! j : Instr, j.WellFormed ∧ selects c j = true ∧ encode j = p := by
  refine ⟨i, hi, fun j ⟨hwf, hsel, henc⟩ => ?_⟩
  have hj : decode c (encode j) = .ok j := decodeOfEncodeIsTheRow c j hwf hsel
  rw [henc, hdecode] at hj
  exact (Except.ok.inj hj).symm

/-- Settles O3: each event's decoder gives its one row. -/
theorem everyEngineEventSelectsExactlyOneRow : Obligations.EveryEngineEventSelectsExactlyOneRow := by
  intro c
  refine ⟨fun b => existsUnique_row rfl (row_of_decodeEepBit c b), existsUnique_row rfl (row_of_decodeEepRead c),
    fun w => existsUnique_row (i := decodeFlash c (cmdOff w) (cmdByte w)) rfl ?_⟩
  have hrow := row_of_decodeFlash c (cmdOff w) (cmdByte w)
  rwa [cmdWord_fields] at hrow

end Sys2Proof

/-!
PROOF. The EEP rows that are one serial event (R101 to R116): what each answers in the phase its table row names.
-/

namespace Sys2Proof.Machine

/-! ## A row that is one event -/

/-- A serial bit leaves the engine's next state and no response. -/
theorem onEngine_deliverEepBit {s : State} (ha : s.EepromActive) {b : Bool} {e : Eep} (h : eepWriteBit b s.eep = e) :
    onEngine .serialEEPROM s (deliverEepBit b s) = .next { s with eep := e, resp := .nothing } := by
  rw [onEngine_of_active ha, deliverEepBit, h]

/-- A serial read leaves the engine's next state and answers its bit, zero-extended. -/
theorem onEngine_deliverEepRead {s : State} (ha : s.EepromActive) {r : EepRead}
    (h : eepReadBit s.params s.draws s.eep = r) :
    onEngine .serialEEPROM s (deliverEepRead s) =
      .next { s with eep := r.eep, draws := r.draws, resp := .rdata (if r.bit then 1#32 else 0#32) } := by
  rw [onEngine_of_active ha, ← zextBit_eq, ← h]
  rfl

/-! ## The arm of a serial write bit (R100) -/

section WriteArms

variable {e : Eep}

theorem eepWriteBit_of_idle (hp : e.phase = .idle) (b : Bool) : eepWriteBit b e = eepStartArm b e := by
  simp only [eepWriteBit, hp]

theorem eepWriteBit_of_command (hp : e.phase = .command) (b : Bool) : eepWriteBit b e = eepRequestArm b e := by
  simp only [eepWriteBit, hp]

theorem eepWriteBit_of_known {w : AddrWidth} (hp : e.phase = .address) (hw : e.bits = some w) (b : Bool) :
    eepWriteBit b e = eepAddrArm w b e := by
  simp only [eepWriteBit, hp, hw]

theorem eepWriteBit_of_unresolved (hp : e.phase = .address) (hw : e.bits = none) (b : Bool) :
    eepWriteBit b e = eepStreamArm b e := by
  simp only [eepWriteBit, hp, hw]

theorem eepWriteBit_of_readStop (hp : e.phase = .readStop) (b : Bool) : eepWriteBit b e = eepReadStopArm b e := by
  simp only [eepWriteBit, hp]

theorem eepWriteBit_of_readData (hp : e.phase = .readData) (b : Bool) : eepWriteBit b e = eepAbortArm b e := by
  simp only [eepWriteBit, hp]

theorem eepWriteBit_of_writeData (hp : e.phase = .writeData) (b : Bool) : eepWriteBit b e = eepDataArm b e := by
  simp only [eepWriteBit, hp]

theorem eepWriteBit_of_writeStop (hp : e.phase = .writeStop) (b : Bool) : eepWriteBit b e = eepWriteStopArm b e := by
  simp only [eepWriteBit, hp]

end WriteArms

/-- A bit met in `Idle` changes the phase alone: a 1 starts a frame (R101). -/
theorem eepStartArm_eq {e : Eep} (hp : e.phase = .idle) (b : Bool) :
    eepStartArm b e = { e with phase := if b then .command else .idle } := by
  cases b
  · rw [if_neg Bool.false_ne_true, ← hp]
    rfl
  · rfl

/-! ## The write rows -/

/-- Settles O32: the bit is taken by the arm of R101. -/
theorem eepStartBeginsAFrameOnOne : Obligations.EepStartBeginsAFrameOnOne :=
  fun _ b ha hp => onEngine_deliverEepBit ha ((eepWriteBit_of_idle hp b).trans (eepStartArm_eq hp b))

/-- Settles O33: the bit is taken by the arm of R102. -/
theorem eepRequestTypeOpensTheAddress : Obligations.EepRequestTypeOpensTheAddress :=
  fun _ ha hp => ⟨onEngine_deliverEepBit ha (eepWriteBit_of_command hp true),
    onEngine_deliverEepBit ha (eepWriteBit_of_command hp false)⟩

/-- Settles O34: the bit is shifted in (R103), and the last one of the width latches the address (R104). -/
theorem eepAddressBitShiftsAndLatches : Obligations.EepAddressBitShiftsAndLatches := by
  intro s w b ha hp hw
  refine onEngine_deliverEepBit ha ((eepWriteBit_of_known hp hw b).trans ?_)
  rw [eepAddrArm, shiftIn_eq]
  by_cases hlast : s.eep.count + 1 = addrBits w
  · exact (if_pos hlast).trans (if_neg (not_not.2 hlast)).symm
  · exact (if_neg hlast).trans (if_pos hlast).symm

/-- Settles O35: the bit is taken by the arm of R105. -/
theorem eepStreamBitIsBuffered : Obligations.EepStreamBitIsBuffered :=
  fun _ b ha hp hw => onEngine_deliverEepBit ha (eepWriteBit_of_unresolved hp hw b)

/-- Settles O36: the bit is shifted in, and on the 64th the commit writes the block's bytes (R106, R108). -/
theorem eepDataBitShiftsAndCommits : Obligations.EepDataBitShiftsAndCommits := by
  intro s b hi ha hp
  have harm := eepWriteBit_of_writeData hp b
  rw [eepDataArm, shiftIn_eq] at harm
  constructor
  · intro hc
    exact onEngine_deliverEepBit ha (harm.trans (if_neg (by omega)))
  · intro hc
    refine ⟨_, onEngine_deliverEepBit ha (harm.trans (if_pos (by omega))), ?_⟩
    exact read_eepCommit { s.eep with buf := _, count := _ } hi.eep.content_wf

/-- Settles O37: the arms of R107 and R109 do not look at the bit. -/
theorem eepStopBitsOfEitherValueAreAccepted : Obligations.EepStopBitsOfEitherValueAreAccepted :=
  fun _ b ha => ⟨fun hp => onEngine_deliverEepBit ha (eepWriteBit_of_readStop hp b),
    fun hp => onEngine_deliverEepBit ha (eepWriteBit_of_writeStop hp b)⟩

/-- Settles O38: the read is dropped, and the bit is then taken by the arm of R101 (R110). -/
theorem eepWriteDuringReadDataAborts : Obligations.EepWriteDuringReadDataAborts :=
  fun _ b ha hp =>
    onEngine_deliverEepBit ha ((eepWriteBit_of_readData hp b).trans (eepStartArm_eq (eepToIdle_phase _) b))

/-! ## The read rows -/

/-- Settles O39: the read is `EepReadData()`, whose bit, draw and next state are those of R114. -/
theorem eepReadBitServesTheBlock : Obligations.EepReadBitServesTheBlock := by
  intro s ha hp
  refine ⟨_, _, onEngine_deliverEepRead ha (eepReadBit_of_readData hp s.params s.draws), fun hlead => ?_,
    fun hlead => if_pos hlead⟩
  have hdata := Nat.not_lt.2 hlead
  exact ⟨if_neg hdata, if_neg hdata⟩

/-- Read number 0 of the data sequence: drawn where there is a lead-in, else bit 7 of the block's first byte (R114). -/
theorem eepReadDataArm_of_count_zero {e : Eep} (hc : e.count = 0) (p : Params) (d : Nat) :
    (eepReadDataArm p d e).eep = { e with count := 1 } ∧
      (p.readLeadin = .zero →
        (eepReadDataArm p d e).draws = d ∧ (eepReadDataArm p d e).bit = (e.content.read (eepBase e)).getLsbD 7) ∧
      (p.readLeadin = .four → (eepReadDataArm p d e).bit = Config.freeBit d) := by
  refine ⟨?_, fun hL => ?_, fun hL => ?_⟩
  · simp [eepReadDataArm, hc]
  · simp [eepReadDataArm, hc, hL, leadinCount, eepDataBit]
  · simp [eepReadDataArm, hc, hL, leadinCount]

/-- A stream that holds `n` bits needs no drawn ones (entry 9). -/
theorem eepPadded_of_le {stream : List Bool} {n : Nat} (h : n ≤ stream.length) (d : Nat) :
    eepPadded stream n d = stream := by
  simp [eepPadded, Nat.sub_eq_zero_of_le h]

theorem addrBits_le (w : AddrWidth) : addrBits w ≤ 14 := by cases w <;> decide

/-- The address register holds every address of a width. -/
theorem toNat_ofNat_bitsVal {bits : List Bool} {w : AddrWidth} (h : bits.length ≤ addrBits w) :
    (BitVec.ofNat 14 (bitsVal bits)).toNat = bitsVal bits := by
  have hlt := bitsVal_lt bits
  have hpow : 2 ^ bits.length ≤ 2 ^ 14 := Nat.pow_le_pow_right (by decide) (h.trans (addrBits_le w))
  rw [BitVec.toNat_ofNat, Nat.mod_eq_of_lt (hlt.trans_le hpow)]

section Detection

variable {p : Params} {e : Eep} (hp : e.phase = .address) (hb : e.bits = none)
include hp hb

/-- A read in `Address` of an unresolved width drops the stream where the width parameter answers none (R112). -/
theorem eepReadBit_detects_none (h : widthDetect p.widthDetect (eepDetectCount e) = none) (d : Nat) :
    eepReadBit p d e = ⟨true, eepToIdle e, d⟩ := by
  simp only [eepReadBit_of_unresolved hp hb, eepDetectArm, h]

/-- A read in `Address` of an unresolved width detects the width of a read request (R111). -/
theorem eepReadBit_detects_read {w : AddrWidth} (ho : e.op = .read)
    (h : widthDetect p.widthDetect ((e.stream.length : Int) - 1) = some w) (d : Nat) :
    eepReadBit p d e = eepDetectRead w p d e := by
  rw [← eepDetectCount_of_read ho] at h
  simp only [eepReadBit_of_unresolved hp hb, eepDetectArm, h, ho]

/-- A read in `Address` of an unresolved width detects the width of a write request (R111). -/
theorem eepReadBit_detects_write {w : AddrWidth} (ho : e.op = .write)
    (h : widthDetect p.widthDetect ((e.stream.length : Int) - 65) = some w) (d : Nat) :
    eepReadBit p d e = eepDetectWrite w d e := by
  rw [← eepDetectCount_of_write ho] at h
  simp only [eepReadBit_of_unresolved hp hb, eepDetectArm, h, ho]

end Detection

/-- Detecting the width of a read request whose stream holds the address `k`: the engine after it, and read number 0 of
the data (R111, R114). -/
theorem eepDetectRead_eq {w : AddrWidth} {e : Eep} {k : List Bool} (hk : e.stream.take (addrBits w) = k)
    (hlen : addrBits w ≤ e.stream.length) (p : Params) (d : Nat) :
    (eepDetectRead w p d e).eep =
        { e with bits := some w, addr := BitVec.ofNat 14 (bitsVal k), stream := [], phase := .readData, count := 1 } ∧
      (p.readLeadin = .zero → (eepDetectRead w p d e).draws = d ∧
        (eepDetectRead w p d e).bit = (e.content.read (bitsVal k % (e.size / 8) * 8)).getLsbD 7) ∧
      (p.readLeadin = .four → (eepDetectRead w p d e).bit = Config.freeBit d) := by
  have haddr : (BitVec.ofNat 14 (bitsVal k)).toNat = bitsVal k := toNat_ofNat_bitsVal (hk ▸ List.length_take_le _ _)
  have hread := eepReadDataArm_of_count_zero
    (e := { e with bits := some w, addr := BitVec.ofNat 14 (bitsVal k), stream := [], phase := .readData, count := 0 })
    rfl p d
  rw [eepDetectRead, eepPadded_of_le hlen, Nat.sub_eq_zero_of_le hlen, hk]
  simp only [eepBase, haddr] at hread
  exact hread

/-- Settles O40: detection latches the address and serves read number 0 of the data (R111). -/
theorem eepDetectReadLatchesAndServes : Obligations.EepDetectReadLatchesAndServes := by
  intro s w ha hp hb ho hd hlen
  obtain ⟨heep, hzero, hfour⟩ := eepDetectRead_eq rfl hlen s.params s.draws
  have hrow := onEngine_deliverEepRead ha (eepReadBit_detects_read hp hb ho hd s.draws)
  rw [heep] at hrow
  exact ⟨_, _, hrow, hzero, hfour⟩

/-- Detecting the width of a write request whose stream holds the address `k` and `data`: a commit, then idle (R111,
R108). -/
theorem eepDetectWrite_eq {w : AddrWidth} {e : Eep} {k data : List Bool} (hk : e.stream.take (addrBits w) = k)
    (hdata : (e.stream.drop (addrBits w)).take 64 = data) (hlen : addrBits w + 64 ≤ e.stream.length) (d : Nat) :
    eepDetectWrite w d e =
      ⟨true, eepToIdle (eepCommit { e with
        bits := some w, addr := BitVec.ofNat 14 (bitsVal k), buf := BitVec.ofNat 64 (bitsVal data) }), d⟩ := by
  rw [eepDetectWrite, eepPadded_of_le hlen, Nat.sub_eq_zero_of_le hlen, hk, hdata]
  rfl

/-- The content after a commit, read through the block that the address register selects (R108, R50). -/
theorem blockWritten_eepCommit {e : Eep} {k : Nat} (hw : e.content.wf = true) (hk : e.addr.toNat = k) :
    blockWritten e.size k e.buf e.content (eepCommit e).content := by
  subst hk
  exact read_eepCommit e hw

/-- Settles O41: detection commits the block its stream holds (R111). -/
theorem eepDetectWriteCommits : Obligations.EepDetectWriteCommits := by
  intro s w hi ha hp hb ho hd hlen
  have hread := (eepReadBit_detects_write hp hb ho hd s.draws).trans (eepDetectWrite_eq rfl rfl hlen s.draws)
  refine ⟨_, onEngine_deliverEepRead ha hread, ?_⟩
  exact blockWritten_eepCommit (e := { s.eep with addr := _, buf := _ }) hi.eep.content_wf
    (toNat_ofNat_bitsVal (List.length_take_le _ _))

/-- Settles O42: with no width for its bit count the stream is dropped (R112). -/
theorem eepDetectFailureDropsTheStream : Obligations.EepDetectFailureDropsTheStream := by
  intro s ha hp hb hd
  have hcount : widthDetect s.params.widthDetect (eepDetectCount s.eep) = none := by
    rw [← hd, eepDetectCount]
    cases s.eep.op <;> rfl
  exact onEngine_deliverEepRead ha (eepReadBit_detects_none hp hb hcount s.draws)

/-- Settles O43: no other read has an effect (R116). -/
theorem eepReadElsewhereReturnsOne : Obligations.EepReadElsewhereReturnsOne :=
  fun s ha hp hb => onEngine_deliverEepRead ha (eepReadBit_elsewhere hp hb s.params s.draws)

end Sys2Proof.Machine

/-!
PROOF. The EEP rows that are sequences of serial events (R120, R122, R123, R124), and the EEPROM round trip: each row is
what its events do one at a time, and a whole frame is the request type, the address, the data and the stop bit in turn.
-/

namespace Sys2Proof.Machine

/-! ## A sequence row is its events one at a time (R53; entry 6) -/

/-- A row of serial bits answers what the bits answer one at a time, whatever the state. -/
theorem onEngine_deliverEepBits_eq_sendBits {bits : List Bool} (hne : bits ≠ []) (s : State) :
    onEngine .serialEEPROM s (deliverEepBits bits s) = sendBits bits s := by
  by_cases ha : s.EepromActive
  · rw [onEngine_of_active ha, sendBits_of_active bits s ha]
  · obtain ⟨b, bs, rfl⟩ := List.exists_cons_of_ne_nil hne
    obtain ⟨r, -, hrefused⟩ := onEngine_of_inactive ha s
    rw [sendBits, exec_decodeEepBit, hrefused, hrefused]
    rfl

/-- A row of serial bits and one read answers what they answer one at a time, whatever the state. -/
theorem onEngine_deliverEepRead_eq_sendBitsThenRead {bits : List Bool} (hne : bits ≠ []) (s : State) :
    onEngine .serialEEPROM s (deliverEepRead (deliverEepBits bits s)) = sendBitsThenRead bits s := by
  rw [sendBitsThenRead, ← onEngine_deliverEepBits_eq_sendBits hne]
  by_cases ha : s.EepromActive
  · have hafter : (deliverEepBits bits s).EepromActive := by
      rw [State.EepromActive, deliverEepBits_cart]
      exact ha
    rw [onEngine_of_active ha, onEngine_of_active ha, andThen, exec_decodeEepRead, onEngine_of_active hafter]
  · obtain ⟨r, -, hrefused⟩ := onEngine_of_inactive ha s
    rw [hrefused, hrefused]
    rfl

/-- The read-data sequence answers what its reads answer one at a time, whatever the state. -/
theorem execEepRead64_eq_takeReads (s : State) :
    execEepRead64 s = takeReads (leadinCount s.params.readLeadin + 64) [] s := by
  rw [execEepRead64]
  by_cases ha : s.EepromActive
  · rw [onEngine_of_active ha, takeReads_of_active _ _ s ha]
    rfl
  · obtain ⟨r, -, hrefused⟩ := onEngine_of_inactive ha s
    rw [takeReads, exec_decodeEepRead, hrefused, hrefused]
    rfl

/-- A row of serial bits leaves the engine after them, and no response. -/
theorem onEngine_deliverEepBits {s : State} (ha : s.EepromActive) {bits : List Bool} (hne : bits ≠ []) {e : Eep}
    (h : eepWriteBits bits s.eep = e) :
    onEngine .serialEEPROM s (deliverEepBits bits s) = .next { s with eep := e, resp := .nothing } := by
  rw [onEngine_of_active ha, deliverEepBits_eq bits s hne, h]

/-! ## Whole frames (R65, R66) -/

/-- The engine that has taken the start bit and the request type of a frame, and holds `stream` (R101, R102, R105). -/
def eepRequested (op : EepOp) (stream : List Bool) (e : Eep) : Eep :=
  { e with op := op, phase := .address, count := 0, addr := 0, buf := 0, stream := stream }

theorem eepWriteBits_singleton (b : Bool) (e : Eep) : eepWriteBits [b] e = eepWriteBit b e := rfl

/-- A frame is its request type and the bits after it. -/
theorem eepWriteBits_request {e : Eep} (hp : e.phase = .idle) (q : Bool) (bits : List Bool) :
    eepWriteBits (true :: q :: bits) e = eepWriteBits bits (eepRequested (if q then .read else .write) [] e) := by
  have hstart := eepWriteBit_of_idle hp true
  show eepWriteBits bits (eepWriteBit q (eepWriteBit true e)) = _
  rw [hstart, eepWriteBit_of_command rfl]
  rfl

/-- A read frame of the engine's width leaves `ReadData` with the address latched (R120). -/
theorem eepWriteBits_readFrame {w : AddrWidth} {e : Eep} (hp : e.phase = .idle) (hw : e.bits = some w) {k : List Bool}
    (hk : k.length = addrBits w) (stop : Bool) :
    eepWriteBits (true :: true :: (k ++ [stop])) e =
      { e with phase := .readData, op := .read, count := 0, addr := BitVec.ofNat 14 (bitsVal k), buf := 0,
               stream := [] } := by
  rw [eepWriteBits_request hp, eepWriteBits_append, eepWriteBits_latch k (eepRequested _ [] e) rfl hw rfl hk rfl,
    eepWriteBits_singleton, eepWriteBit_of_readStop]
  · rfl
  · rfl

/-- A write frame of the engine's width commits its block and returns to the canonical idle state (R123). -/
theorem eepWriteBits_writeFrame {w : AddrWidth} {e : Eep} (hp : e.phase = .idle) (hw : e.bits = some w)
    {k data : List Bool} (hk : k.length = addrBits w) (hd : data.length = 64) (stop : Bool) :
    eepWriteBits (true :: false :: (k ++ (data ++ [stop]))) e =
      eepToIdle (eepCommit { e with addr := BitVec.ofNat 14 (bitsVal k), buf := BitVec.ofNat 64 (bitsVal data) }) := by
  rw [eepWriteBits_request hp, eepWriteBits_append, eepWriteBits_latch k (eepRequested _ [] e) rfl hw rfl hk rfl,
    eepWriteBits_append, eepWriteBits_commit data _ rfl rfl hd rfl, eepWriteBits_singleton, eepWriteBit_of_writeStop]
  · rfl
  · rfl

/-- From the canonical idle state a commit and a return to idle change the content alone. -/
theorem eepToIdle_commit {e : Eep} (h : eepToIdle e = e) (bits : Option AddrWidth) (addr : BitVec 14)
    (buf : BitVec 64) :
    eepToIdle (eepCommit { e with bits := bits, addr := addr, buf := buf }) =
      { e with bits := bits, content := (eepCommit { e with addr := addr, buf := buf }).content } := by
  rw [← h]
  rfl

theorem readFrameBits_ne_nil (w k : Nat) (stop : Bool) : readFrameBits w k stop ≠ [] := List.cons_ne_nil _ _

theorem writeFrameBits_ne_nil (w k d : Nat) (stop : Bool) : writeFrameBits w k d stop ≠ [] := List.cons_ne_nil _ _

/-- The address register holds the address of a frame. -/
theorem toNat_ofNat_address {w : AddrWidth} (k : BitVec (addrBits w)) : (BitVec.ofNat 14 k.toNat).toNat = k.toNat := by
  have haddr := toNat_ofNat_bitsVal (w := w) (bitsOf_length _ k.toNat).le
  rwa [bitsVal_bitsOf_toNat] at haddr

/-- A read frame row of the engine's width, from `Idle` (R120). -/
theorem readFrame_latches {s : State} {w : AddrWidth} (ha : s.EepromActive) (hp : s.eep.phase = .idle)
    (hw : s.eep.bits = some w) (k : BitVec (addrBits w)) (stop : Bool) {addr : BitVec 14}
    (hk : BitVec.ofNat 14 k.toNat = addr) :
    onEngine .serialEEPROM s (deliverEepBits (readFrameBits (addrBits w) k.toNat stop) s) = .next { s with
      eep := { s.eep with phase := .readData, op := .read, count := 0, addr := addr, buf := 0, stream := [] }
      resp := .nothing } := by
  have hframe := eepWriteBits_readFrame hp hw (bitsOf_length _ k.toNat) stop
  rw [bitsVal_bitsOf_toNat, hk] at hframe
  exact onEngine_deliverEepBits ha (readFrameBits_ne_nil _ _ _) hframe

/-- Settles O44: the frame latches its address, and is its bits one at a time. -/
theorem readFrameLatchesTheAddress : Obligations.ReadFrameLatchesTheAddress := by
  intro s stop
  exact ⟨fun ha hp => ⟨fun k hw => readFrame_latches ha hp hw k stop (BitVec.ofNat_toNat 14 k),
      fun k hw => readFrame_latches ha hp hw k stop (BitVec.ofNat_toNat 14 k |>.trans (BitVec.setWidth_eq k))⟩,
    fun k => onEngine_deliverEepBits_eq_sendBits (readFrameBits_ne_nil 6 k.toNat stop) s,
    fun k => onEngine_deliverEepBits_eq_sendBits (readFrameBits_ne_nil 14 k.toNat stop) s⟩

/-- A write frame row of the engine's width, from `Idle` (R123). -/
theorem writeFrame_commits {s : State} {w : AddrWidth} (hi : s.Inv) (ha : s.EepromActive) (hp : s.eep.phase = .idle)
    (hw : s.eep.bits = some w) (k : BitVec (addrBits w)) (d : BitVec 64) (stop : Bool) : ∃ m : Memory,
    onEngine .serialEEPROM s (deliverEepBits (writeFrameBits (addrBits w) k.toNat d.toNat stop) s) =
        .next { s with eep := { s.eep with content := m }, resp := .nothing } ∧
      blockWritten s.eep.size k.toNat d s.eep.content m := by
  have hframe := eepWriteBits_writeFrame hp hw (bitsOf_length _ k.toNat) (bitsOf_length 64 d.toNat) stop
  have hbuf : BitVec.ofNat 64 (bitsVal (bitsOf 64 d.toNat)) = d := by simp
  rw [hbuf, bitsVal_bitsOf_toNat] at hframe
  refine ⟨_, onEngine_deliverEepBits ha (writeFrameBits_ne_nil _ _ _ _)
    (hframe.trans (eepToIdle_commit (hi.eep.idle_canonical hp) _ _ _)), ?_⟩
  exact blockWritten_eepCommit (e := { s.eep with addr := _, buf := _ }) hi.eep.content_wf (toNat_ofNat_address k)

/-- Settles O45: the frame commits its block, and is its bits one at a time. -/
theorem writeFrameReplacesTheBlock : Obligations.WriteFrameReplacesTheBlock := by
  intro s d stop
  refine ⟨fun hi ha hp => ⟨fun k hw => writeFrame_commits hi ha hp hw k d stop,
    fun k hw => writeFrame_commits hi ha hp hw k d stop⟩, fun k => ?_, fun k => ?_⟩
  · rw [List.append_assoc]
    exact onEngine_deliverEepBits_eq_sendBits (writeFrameBits_ne_nil 6 k.toNat d.toNat stop) s
  · rw [List.append_assoc]
    exact onEngine_deliverEepBits_eq_sendBits (writeFrameBits_ne_nil 14 k.toNat d.toNat stop) s

/-! ## The read-data sequence (R122) -/

/-- The last read of the data sequence answers data bit 63 and returns to the canonical idle state (R114). -/
theorem eepReadBit_last {p : Params} {e : Eep} (hp : e.phase = .readData) (hc : e.count = leadinCount p.readLeadin + 63)
    (d : Nat) : eepReadBit p d e = ⟨eepDataBit e 63, eepToIdle e, d⟩ := by
  simp [eepReadBit_of_readData hp, eepReadDataArm, hc, eepToIdle]

/-- From read number 0 the whole sequence draws its `L` lead-in bits, gives the block's bits, and returns to the canonical
idle state (R122). -/
theorem eepReadBits_sequence {p : Params} {L : Nat} (hL : leadinCount p.readLeadin = L) (d : Nat) {e : Eep}
    (hp : e.phase = .readData) (hc : e.count = 0) :
    (eepReadBits p (L + 64) d e).2 = (eepToIdle e, d + L) ∧
      ∀ j, j < 64 → (eepReadBits p (L + 64) d e).1[L + j]? = some (eepDataBit e j) := by
  obtain ⟨heep, hdraws, hbits⟩ := eepReadBits_data p (L + 63) d e hp (by omega)
  have hlen := eepReadBits_length p (L + 63) d e
  have hcount : e.count + (L + 63) = leadinCount p.readLeadin + 63 := by omega
  have hlast : eepReadBit p (d + L) (eepReadBits p (L + 63) d e).2.1 = ⟨eepDataBit e 63, eepToIdle e, d + L⟩ := by
    rw [heep]
    exact eepReadBit_last (e := { e with count := e.count + (L + 63) }) hp hcount _
  rw [hc, hL, show d + (min (0 + (L + 63)) L - min 0 L) = d + L by omega] at hdraws
  rw [show L + 64 = L + 63 + 1 from rfl, eepReadBits_succ, hdraws, hlast]
  refine ⟨rfl, fun j hj => ?_⟩
  by_cases h63 : j = 63
  · subst h63
    rw [List.getElem?_append_right hlen.le, hlen, Nat.sub_self]
    rfl
  · rw [List.getElem?_append_left (by omega), hbits (L + j) (by omega) (by omega)]
    simp [hc, hL]

/-- Settles O46: the sequence serves its lead-in and the block, and is its reads one at a time. -/
theorem read64GivesTheBlock : Obligations.Read64GivesTheBlock := by
  intro s
  refine ⟨fun ha hp hc => ?_, execEepRead64_eq_takeReads s⟩
  obtain ⟨hafter, hbits⟩ := eepReadBits_sequence rfl s.draws hp hc
  refine ⟨_, ?_, eepReadBits_length s.params _ s.draws s.eep, hbits⟩
  refine (onEngine_of_active ha _).trans (congrArg Host.Outcome.next ?_)
  rw [deliverEepRead64, hafter]
  rfl

/-! ## Frames of an unresolved width (R124) -/

/-- While the width is unresolved a frame of at most 79 bits after its request type is held in the stream (R105). -/
theorem eepWriteBits_unresolvedFrame {e : Eep} (hp : e.phase = .idle) (hb : e.bits = none) (q : Bool) {bits : List Bool}
    (h : bits.length ≤ eepStreamCap) :
    eepWriteBits (true :: q :: bits) e = eepRequested (if q then .read else .write) bits e := by
  rw [eepWriteBits_request hp, eepWriteBits_stream bits (eepRequested _ [] e) rfl hb (by simpa [eepRequested] using h)]
  rfl

/-- A row of serial bits and one read leaves the engine after the read, and answers its bit. -/
theorem onEngine_frameThenRead {s : State} (ha : s.EepromActive) {bits : List Bool} (hne : bits ≠ []) {e : Eep}
    (hbits : eepWriteBits bits s.eep = e) {r : EepRead} (hread : eepReadBit s.params s.draws e = r) :
    onEngine .serialEEPROM s (deliverEepRead (deliverEepBits bits s)) =
      .next { s with eep := r.eep, draws := r.draws, resp := .rdata (if r.bit then 1#32 else 0#32) } := by
  rw [onEngine_of_active ha, deliverEepBits_eq bits s hne, hbits, ← zextBit_eq, ← hread]
  rfl

/-- Settles O47: the stream of the frame holds its address, which the read detects and latches. -/
theorem unresolvedReadFrameAdapts : Obligations.UnresolvedReadFrameAdapts := by
  intro s
  refine ⟨fun w k stop ha hp hb hk hd => ?_,
    fun stream => onEngine_deliverEepRead_eq_sendBitsThenRead (List.cons_ne_nil _ _) s⟩
  have hwidth := addrBits_le w
  have hlen : (k ++ [stop]).length = addrBits w + 1 := by simp [hk]
  have hframe := eepWriteBits_unresolvedFrame hp hb true (bits := k ++ [stop]) (by rw [hlen, eepStreamCap]; omega)
  rw [← show ((k ++ [stop]).length : Int) - 1 = addrBits w by omega] at hd
  have hread := eepReadBit_detects_read (e := eepRequested .read (k ++ [stop]) s.eep) rfl hb rfl hd s.draws
  obtain ⟨heep, hzero, hfour⟩ := eepDetectRead_eq (e := eepRequested .read (k ++ [stop]) s.eep) (List.take_left' hk)
    (by simp only [eepRequested]; omega) s.params s.draws
  have hrow := onEngine_frameThenRead ha (List.cons_ne_nil _ _) hframe hread
  rw [heep] at hrow
  exact ⟨_, _, hrow, hzero, hfour⟩

/-- Settles O48: the stream of the frame holds its address and data, which the read detects and commits. -/
theorem unresolvedWriteFrameCommits : Obligations.UnresolvedWriteFrameCommits := by
  intro s
  refine ⟨fun w k data stop hi ha hp hb hk hdata hd => ?_,
    fun stream => onEngine_deliverEepRead_eq_sendBitsThenRead (List.cons_ne_nil _ _) s⟩
  rw [List.append_assoc]
  have hwidth := addrBits_le w
  have hlen : (k ++ (data ++ [stop])).length = addrBits w + 65 := by simp [hk, hdata]
  have hframe := eepWriteBits_unresolvedFrame hp hb false (bits := k ++ (data ++ [stop]))
    (by rw [hlen, eepStreamCap]; omega)
  rw [← show ((k ++ (data ++ [stop])).length : Int) - 65 = addrBits w by omega] at hd
  have hread := eepReadBit_detects_write (e := eepRequested .write (k ++ (data ++ [stop])) s.eep) rfl hb rfl hd s.draws
  have hdetect := eepDetectWrite_eq (e := eepRequested .write (k ++ (data ++ [stop])) s.eep) (List.take_left' hk)
    (show ((k ++ (data ++ [stop])).drop (addrBits w)).take 64 = data by
      rw [List.drop_left' hk, List.take_left' hdata])
    (by simp only [eepRequested]; omega) s.draws
  have hidle := eepToIdle_commit (hi.eep.idle_canonical hp) (some w) (BitVec.ofNat 14 (bitsVal k))
    (BitVec.ofNat 64 (bitsVal data))
  refine ⟨_, (onEngine_frameThenRead ha (List.cons_ne_nil _ _) hframe (hread.trans hdetect)).trans
    (congrArg (fun e => Host.Outcome.next { s with eep := e, resp := .rdata 1#32 }) hidle), ?_⟩
  exact blockWritten_eepCommit (e := { s.eep with addr := _, buf := _ }) hi.eep.content_wf (toNat_ofNat_bitsVal hk.le)

/-! ## The round trip (P2) -/

/-- Bit `j` of the low `n` bits of `v`, most significant first (R68). -/
theorem bitsOf_getElem? : ∀ (n v j : Nat), j < n → (bitsOf n v)[j]? = some (v.testBit (n - 1 - j))
  | n + 1, v, 0, _ => by simp [bitsOf]
  | n + 1, v, j + 1, h => by
    rw [bitsOf, List.getElem?_cons_succ, bitsOf_getElem? n v j (by omega),
      show n - 1 - j = n + 1 - 1 - (j + 1) by omega]

/-- Data bit `j` of a block that holds `d` is bit `63 - j` of `d` (R68). -/
theorem getLsbD_block_byte (d : BitVec 64) {j : Nat} (hj : j < 64) :
    (d.extractLsb' (56 - 8 * (j / 8)) 8).getLsbD (7 - j % 8) = d.toNat.testBit (63 - j) := by
  rw [BitVec.getLsbD_extractLsb', show 56 - 8 * (j / 8) + (7 - j % 8) = 63 - j by omega, BitVec.testBit_toNat,
    decide_eq_true (show 7 - j % 8 < 8 by omega), Bool.true_and]

/-- READ64 of a block that holds `d` answers, after the lead-in, the bits of `d` (R68, R122). -/
theorem read64_of_blockWritten {s : State} (ha : s.EepromActive) (hp : s.eep.phase = .readData) (hc : s.eep.count = 0)
    {d : BitVec 64} {before : Memory} (hm : blockWritten s.eep.size s.eep.addr.toNat d before s.eep.content) :
    ∃ s' bits, exec .eepRead64 s = .next s' ∧ s'.resp = .bits bits ∧
      bits.drop (leadinCount s.params.readLeadin) = bitsOf 64 d.toNat := by
  obtain ⟨bits, hexec, hlen, hbits⟩ := (read64GivesTheBlock s).1 ha hp hc
  obtain ⟨hblock, -⟩ := hm
  refine ⟨_, bits, hexec, rfl, List.ext_getElem? fun j => ?_⟩
  rw [List.getElem?_drop]
  by_cases hj : j < 64
  · refine (hbits j hj).trans ?_
    rw [hblock (j / 8) (by omega), getLsbD_block_byte d hj, bitsOf_getElem? 64 d.toNat j hj]
  · have hbelow := List.getElem?_eq_none (l := bitsOf 64 d.toNat) ((bitsOf_length _ _).trans_le (Nat.not_lt.1 hj))
    exact (List.getElem?_eq_none (hlen.trans_le (Nat.add_le_add_left (Nat.not_lt.1 hj) _))).trans hbelow.symm

/-- A write frame, a read frame for the same address and READ64, at the engine's width. -/
theorem roundTrip_of_width {s : State} {w : AddrWidth} (hi : s.Inv) (ha : s.EepromActive) (hp : s.eep.phase = .idle)
    (hw : s.eep.bits = some w) (k : BitVec (addrBits w)) (d : BitVec 64) (stop stop' : Bool) : ∃ s₁ s₂ s₃ bits,
    onEngine .serialEEPROM s (deliverEepBits (writeFrameBits (addrBits w) k.toNat d.toNat stop) s) = .next s₁ ∧
    onEngine .serialEEPROM s₁ (deliverEepBits (readFrameBits (addrBits w) k.toNat stop') s₁) = .next s₂ ∧
    exec .eepRead64 s₂ = .next s₃ ∧ s₃.resp = .bits bits ∧
    bits.drop (leadinCount s.params.readLeadin) = bitsOf 64 d.toNat := by
  obtain ⟨m, hwrite, hm⟩ := writeFrame_commits hi ha hp hw k d stop
  have hread := readFrame_latches (s := { s with eep := { s.eep with content := m }, resp := .nothing }) ha hp hw k stop'
    rfl
  rw [← toNat_ofNat_address k] at hm
  obtain ⟨s₃, bits, hrun, hresp, hbits⟩ := read64_of_blockWritten (s := { s with
    eep := { s.eep with content := m, phase := .readData, op := .read, count := 0, addr := BitVec.ofNat 14 k.toNat,
                        buf := 0, stream := [] }
    resp := .nothing }) ha rfl rfl hm
  exact ⟨_, _, s₃, bits, hwrite, hread, hrun, hresp, hbits⟩

/-- Settles O49: both widths are one round trip. -/
theorem eepromRoundTrip : Obligations.EepromRoundTrip := by
  intro s d stop stop' hi ha hp
  exact ⟨fun k hw => roundTrip_of_width hi ha hp hw k d stop stop',
    fun k hw => roundTrip_of_width hi ha hp hw k d stop stop'⟩

end Sys2Proof.Machine

/-!
PROOF. The FlashROM engine (R140 to R161): one equation per phase of `FlashWriteByte`, in the spec's numbers, from which
the rows, the transition table, and erase-then-program follow; and where content and bank change (R158).
-/

namespace Sys2Proof.Machine

/-! ## The words of the command set (R71, R151) -/

theorem isUnlock1_iff {off : BitVec 16} {v : Byte} : isUnlock1 off v = true ↔ off = 0x5555#16 ∧ v = 0xAA#8 := by
  simp [isUnlock1, flashCmdAddr, unlock1Byte]

theorem isUnlock2_iff {off : BitVec 16} {v : Byte} : isUnlock2 off v = true ↔ off = 0x2AAA#16 ∧ v = 0x55#8 := by
  simp [isUnlock2, flashUnlock2Addr, unlock2Byte]

/-- The low 12 bits of an offset are its place in the sector. -/
theorem toNat_and_low12 (off : BitVec 16) : (off &&& 0x0FFF#16).toNat = off.toNat % 4096 :=
  Nat.and_two_pow_sub_one_eq_mod off.toNat 12

theorem isSectorOffset_iff {off : BitVec 16} : isSectorOffset off = true ↔ off.toNat % 4096 = 0 := by
  rw [isSectorOffset, beq_iff_eq, ← BitVec.toNat_inj, toNat_and_low12]
  rfl

/-- An offset is the start of its sector and its place in it. -/
theorem sector_add_place (off : BitVec 16) : (off &&& 0xF000#16).toNat + off.toNat % 4096 = off.toNat := by
  have hdisjoint : (off &&& 0xF000#16) &&& (off &&& 0x0FFF#16) = 0#16 :=
    calc (off &&& 0xF000#16) &&& (off &&& 0x0FFF#16) = off &&& (0xF000#16 &&& 0x0FFF#16) := by ac_rfl
      _ = 0#16 := BitVec.and_zero
  rw [← toNat_and_low12, ← BitVec.toNat_add_of_and_eq_zero hdisjoint, BitVec.add_eq_or_of_and_eq_zero _ _ hdisjoint,
    ← BitVec.and_or_distrib_left]
  exact congrArg BitVec.toNat BitVec.and_allOnes

/-! ## `FlashWriteByte`, phase by phase (R140) -/

/-- A write that goes to `p` on its word and to `Idle` otherwise changes the phase alone. -/
theorem advance_or_toIdle {P Q : Prop} [Decidable P] [Decidable Q] (h : P ↔ Q) (p : FlashPhase) (f : Flash) :
    (if P then { f with phase := p } else flashToIdle f) = { f with phase := if Q then p else .idle } := by
  by_cases hQ : Q
  · rw [if_pos (h.2 hQ), if_pos hQ]
  · rw [if_neg (mt h.1 hQ), if_neg hQ]
    rfl

section Phases

variable {f : Flash}

/-- A write in `Idle` (R142). -/
theorem flashWriteByte_of_idle (hp : f.phase = .idle) (off : BitVec 16) (v : Byte) :
    flashWriteByte off v f = { f with phase := if off = 0x5555#16 ∧ v = 0xAA#8 then .unlock1 else .idle } := by
  simp only [flashWriteByte, hp]
  exact advance_or_toIdle isUnlock1_iff .unlock1 f

/-- A write in `Unlock1` (R143). -/
theorem flashWriteByte_of_unlock1 (hp : f.phase = .unlock1) (off : BitVec 16) (v : Byte) :
    flashWriteByte off v f = { f with phase := if off = 0x2AAA#16 ∧ v = 0x55#8 then .unlock2 else .idle } := by
  simp only [flashWriteByte, hp]
  exact advance_or_toIdle isUnlock2_iff .unlock2 f

/-- A write in `Unlock2` (R144, R145, R146, R152, R154, R156); 0xF0 goes to `Idle` as every unlisted word does. -/
theorem flashWriteByte_of_unlock2 (hp : f.phase = .unlock2) (off : BitVec 16) (v : Byte) :
    flashWriteByte off v f = { f with
      phase :=
        if off = 0x5555#16 ∧ v = 0x90#8 then .idMode
        else if off = 0x5555#16 ∧ v = 0x80#8 then .eraseArmed
        else if off = 0x5555#16 ∧ v = 0xA0#8 then .writeMode
        else if (off = 0x5555#16 ∧ v = 0xB0#8) ∧ f.size = 131072 then .bankSwitch
        else .idle } := by
  simp only [flashWriteByte, hp, isCommand_iff, flashCmdAddr, cmdIdEnter, cmdIdExit, cmdEraseSetup, cmdProgram,
    cmdBankSelect]
  split
  · rfl
  split
  · rename_i hexit
    simp [hexit, flashIdExitArm, flashToIdle]
  split
  · rfl
  split
  · rfl
  split
  · rename_i hbank
    simp only [hbank, and_self, true_and]
    exact advance_or_toIdle Iff.rfl .bankSwitch f
  · rename_i hother
    simp only [hother, false_and, if_false]
    rfl

/-- A write in `IdMode` leaves it and is then taken as one in `Idle` (R147). -/
theorem flashWriteByte_of_idMode (hp : f.phase = .idMode) (off : BitVec 16) (v : Byte) :
    flashWriteByte off v f = { f with phase := if off = 0x5555#16 ∧ v = 0xAA#8 then .unlock1 else .idle } := by
  simp only [flashWriteByte, hp]
  exact advance_or_toIdle isUnlock1_iff .unlock1 (flashToIdle f)

/-- A write in `EraseArmed` (R148). -/
theorem flashWriteByte_of_eraseArmed (hp : f.phase = .eraseArmed) (off : BitVec 16) (v : Byte) :
    flashWriteByte off v f = { f with phase := if off = 0x5555#16 ∧ v = 0xAA#8 then .eraseUnlock1 else .idle } := by
  simp only [flashWriteByte, hp]
  exact advance_or_toIdle isUnlock1_iff .eraseUnlock1 f

/-- A write in `EraseUnlock1` (R149). -/
theorem flashWriteByte_of_eraseUnlock1 (hp : f.phase = .eraseUnlock1) (off : BitVec 16) (v : Byte) :
    flashWriteByte off v f = { f with phase := if off = 0x2AAA#16 ∧ v = 0x55#8 then .eraseUnlock2 else .idle } := by
  simp only [flashWriteByte, hp]
  exact advance_or_toIdle isUnlock2_iff .eraseUnlock2 f

/-- A write in `EraseUnlock2` (R150, R151 and R157). -/
theorem flashWriteByte_of_eraseUnlock2 (hp : f.phase = .eraseUnlock2) (off : BitVec 16) (v : Byte) :
    flashWriteByte off v f = { f with
      phase := .idle
      content :=
        if off = 0x5555#16 ∧ v = 0x10#8 then f.content.erase 0 f.size
        else if off.toNat % 4096 = 0 ∧ v = 0x30#8 then f.content.erase (f.bank.toNat * 65536 + off.toNat) 4096
        else f.content } := by
  simp only [flashWriteByte, hp, isCommand_iff, isSectorErase_iff, isSectorOffset_iff, flashCmdAddr, cmdChipErase,
    cmdSectorErase]
  split
  · rfl
  split
  · rfl
  · rfl

/-- A write in `WriteMode` (R153). -/
theorem flashWriteByte_of_writeMode (hp : f.phase = .writeMode) (off : BitVec 16) (v : Byte) :
    flashWriteByte off v f = { f with
      phase := .idle
      content := f.content.write (f.bank.toNat * 65536 + off.toNat)
        (f.content.read (f.bank.toNat * 65536 + off.toNat) &&& v) } := by
  simp only [flashWriteByte, hp]
  rfl

/-- A write in `BankSwitch` (R155). -/
theorem flashWriteByte_of_bankSwitch (hp : f.phase = .bankSwitch) (off : BitVec 16) (v : Byte) :
    flashWriteByte off v f =
      { f with phase := .idle, bank := if off = 0#16 then BitVec.ofNat 1 v.toNat else f.bank } := by
  simp only [flashWriteByte, hp, flashBankSelectArm, bankDataOffset, BitVec.ofNat_toNat]
  split
  · rfl
  · rfl

end Phases

/-- Settles O58: the table is the nine phases' equations. -/
theorem flashTransitionTable : Obligations.FlashTransitionTable := by
  intro f off v
  cases hp : f.phase with
  | idle => simp [flashWriteByte_of_idle hp]
  | unlock1 => simp [flashWriteByte_of_unlock1 hp]
  | unlock2 => simp [flashWriteByte_of_unlock2 hp]
  | idMode => simp [flashWriteByte_of_idMode hp]
  | eraseArmed => simp [flashWriteByte_of_eraseArmed hp]
  | eraseUnlock1 => simp [flashWriteByte_of_eraseUnlock1 hp]
  | eraseUnlock2 => simp [flashWriteByte_of_eraseUnlock2 hp]
  | writeMode => simp [flashWriteByte_of_writeMode hp]
  | bankSwitch => simp [flashWriteByte_of_bankSwitch hp]

/-! ## The write rows (R142 to R157) -/

theorem onEngine_flashROM {s : State} (ha : s.FlashActive) (t : State) : onEngine .flashROM s t = .next t :=
  onEngine_next ha.1 ha.2

/-- A byte write to the active FlashROM leaves the engine's next state and answers nothing. -/
theorem onEngine_deliverFlashByte {s : State} (ha : s.FlashActive) {off : BitVec 16} {v : Byte} {f : Flash}
    (h : flashWriteByte off v s.flash = f) :
    onEngine .flashROM s (deliverFlashByte off v s) = .next { s with flash := f, resp := .nothing } := by
  rw [onEngine_flashROM ha, deliverFlashByte, h]

/-- Settles O50: each row's word is the one of its phase's equation. -/
theorem flashUnlockWritesAdvanceOrAbort : Obligations.FlashUnlockWritesAdvanceOrAbort := by
  intro s off v ha next
  exact ⟨fun hp => (onEngine_deliverFlashByte ha (flashWriteByte_of_idle hp off v)).trans (apply_ite next ..),
    fun hp => (onEngine_deliverFlashByte ha (flashWriteByte_of_unlock1 hp off v)).trans (apply_ite next ..),
    fun hp => (onEngine_deliverFlashByte ha (flashWriteByte_of_eraseArmed hp off v)).trans (apply_ite next ..),
    fun hp => (onEngine_deliverFlashByte ha (flashWriteByte_of_eraseUnlock1 hp off v)).trans (apply_ite next ..)⟩

/-- A word that is no command of `Unlock2` returns to `Idle` (R156). -/
theorem flashWriteByte_of_unlock2_other {f : Flash} (hp : f.phase = .unlock2) {off : BitVec 16} {v : Byte}
    (h : isUnlock2Command off v = false) : flashWriteByte off v f = { f with phase := .idle } := by
  obtain ⟨⟨⟨⟨hidEnter, hidExit⟩, herase⟩, hprogram⟩, hbank⟩ := by simpa [isUnlock2Command] using h
  simp only [flashWriteByte, hp, hidEnter, hidExit, herase, hprogram, hbank, Bool.false_eq_true, if_false]
  rfl

/-- Settles O51: the words of the rows in the equation of `Unlock2`. -/
theorem flashCommandsAfterUnlock : Obligations.FlashCommandsAfterUnlock := by
  intro s ha hp next
  have command : ∀ {c : Byte} {p : FlashPhase}, flashWriteByte flashCmdAddr c s.flash = { s.flash with phase := p } →
      onEngine .flashROM s (deliverFlashByte flashCmdAddr c s) = next p := onEngine_deliverFlashByte ha
  refine ⟨command (flashWriteByte_of_unlock2 hp _ _), command (flashWriteByte_of_unlock2 hp _ _),
    command (flashWriteByte_of_unlock2 hp _ _), command (flashWriteByte_of_unlock2 hp _ _), fun hsize => command ?_,
    fun hsize => command ?_, fun off v hwf => onEngine_deliverFlashByte ha (flashWriteByte_of_unlock2_other hp ?_)⟩
  · simp [flashWriteByte_of_unlock2 hp, flashCmdAddr, cmdBankSelect, hsize]
  · simp [flashWriteByte_of_unlock2 hp, flashCmdAddr, cmdBankSelect, hsize]
  · simpa [Instr.WellFormed, Instr.wf] using hwf

/-- Settles O52: the equation of `IdMode`. -/
theorem flashIdModeWriteLeavesIdMode : Obligations.FlashIdModeWriteLeavesIdMode :=
  fun _ off v ha hp => onEngine_deliverFlashByte ha (flashWriteByte_of_idMode hp off v)

/-- Settles O53: the erase covers the indices below the size. -/
theorem flashChipEraseSetsEveryByte : Obligations.FlashChipEraseSetsEveryByte := by
  intro s hi ha hp
  refine ⟨_, onEngine_deliverFlashByte ha (flashWriteByte_of_eraseUnlock2 hp flashCmdAddr cmdChipErase), fun j => ?_⟩
  refine (Memory.read_erase hi.flash.content_wf 0 s.flash.size j).trans ?_
  simp [erasedByte]

/-- A sector-erase word erases the 4 KiB sector in the current bank (R151). -/
theorem flashWriteByte_sectorErase {f : Flash} (hp : f.phase = .eraseUnlock2) {off : BitVec 16}
    (hoff : off.toNat % 4096 = 0) :
    flashWriteByte off 0x30#8 f =
      { f with phase := .idle, content := f.content.erase (f.bank.toNat * 65536 + off.toNat) 4096 } := by
  rw [flashWriteByte_of_eraseUnlock2 hp, if_neg fun hchip => absurd hchip.2 (by decide), if_pos ⟨hoff, rfl⟩]

/-- A word that confirms no erase returns to `Idle` (R157). -/
theorem flashWriteByte_of_eraseUnlock2_other {f : Flash} (hp : f.phase = .eraseUnlock2) {off : BitVec 16} {v : Byte}
    (h : isEraseConfirm off v = false) : flashWriteByte off v f = { f with phase := .idle } := by
  obtain ⟨hchip, hsector⟩ := by simpa [isEraseConfirm] using h
  simp only [flashWriteByte, hp, hchip, hsector, Bool.false_eq_true, if_false]
  rfl

/-- Settles O54: the erase covers the sector's indices, and an unaccepted word erases nothing. -/
theorem flashSectorEraseSetsItsSector : Obligations.FlashSectorEraseSetsItsSector := by
  intro s hi ha hp
  refine ⟨fun off hoff => ⟨_, onEngine_deliverFlashByte ha (flashWriteByte_sectorErase hp hoff),
    Memory.read_erase hi.flash.content_wf _ _⟩, fun off v hwf => ?_⟩
  exact onEngine_deliverFlashByte ha (flashWriteByte_of_eraseUnlock2_other hp
    (by simpa [Instr.WellFormed, Instr.wf] using hwf))

/-- A program changes the byte at its index to the AND, and no other byte (R153). -/
theorem Memory.read_write_and {m : Memory} (hm : m.wf = true) (i j : Nat) (v : Byte) :
    (m.write i (m.read i &&& v)).read j = if j = i then m.read j &&& v else m.read j := by
  rw [Memory.read_write hm]
  split
  · rename_i hj
    rw [hj]
  · rfl

/-- Settles O55: the equation of `WriteMode`, and what a read gives after its write. -/
theorem flashProgramAndsOneByte : Obligations.FlashProgramAndsOneByte :=
  fun _ off v hi ha hp => ⟨_, onEngine_deliverFlashByte ha (flashWriteByte_of_writeMode hp off v), fun j =>
    Memory.read_write_and hi.flash.content_wf _ j v⟩

/-- Settles O56: the equation of `BankSwitch`; the bank's one bit is the value's lowest. -/
theorem flashBankSelectSetsTheBank : Obligations.FlashBankSelectSetsTheBank := by
  intro s off v ha hp
  have hlow : BitVec.ofNat 1 (v.toNat % 2) = BitVec.ofNat 1 v.toNat := BitVec.eq_of_toNat_eq (by simp)
  rw [hlow]
  exact onEngine_deliverFlashByte ha (flashWriteByte_of_bankSwitch hp off v)

/-! ## The read row (R161) -/

/-- One byte composes to its zero extension (R45). -/
theorem leWord_singleton (b : Byte) : leWord [b] = BitVec.ofNat 32 b.toNat := by simp [leWord]

/-- Settles O57: the row reads one byte. -/
theorem flashReadGivesIdOrContent : Obligations.FlashReadGivesIdOrContent := by
  intro s off ha
  have hid := s.flash.id.isLt
  refine ⟨(flashReadByte s.flash off s.draws).1, (flashReadByte s.flash off s.draws).2, ?_, ?_⟩
  · rw [← leWord_singleton]
    exact onEngine_flashROM ha _
  · rw [flashReadByte_fst]
    refine ⟨fun hp => if_pos hp, fun hp hoff => ?_, fun hp hoff => ?_, fun hp h0 h1 => ?_⟩
    · simp [hp, hoff]
    · simp [hp, hoff]
      omega
    · simp [hp, mt (offset_eq_zero_iff off).2 h0, mt (offset_eq_one_iff off).2 h1]

/-! ## Erase then program (P3) -/

/-- The two unlock writes (R142, R143, R148, R149). -/
def unlockWrites (f : Flash) : Flash := flashWriteByte 0x2AAA#16 0x55#8 (flashWriteByte 0x5555#16 0xAA#8 f)

/-- The two unlock writes and a command byte (R144 to R154). -/
def commandWrites (c : Byte) (f : Flash) : Flash := flashWriteByte 0x5555#16 c (unlockWrites f)

section Sequences

variable {f : Flash}

theorem unlockWrites_of_idle (hp : f.phase = .idle) : unlockWrites f = { f with phase := .unlock2 } := by
  rw [unlockWrites, flashWriteByte_of_idle hp]
  exact flashWriteByte_of_unlock1 rfl _ _

theorem unlockWrites_of_eraseArmed (hp : f.phase = .eraseArmed) :
    unlockWrites f = { f with phase := .eraseUnlock2 } := by
  rw [unlockWrites, flashWriteByte_of_eraseArmed hp]
  exact flashWriteByte_of_eraseUnlock1 rfl _ _

/-- After the writes of a sector erase, from `Idle`: the sector reads as erased, all else as before. -/
theorem sectorErase_writes (hp : f.phase = .idle) (hwf : f.content.wf = true) {sector : BitVec 16}
    (hs : sector.toNat % 4096 = 0) {g : Flash}
    (hg : g = flashWriteByte sector 0x30#8 (unlockWrites (commandWrites 0x80#8 f))) :
    g.phase = .idle ∧ g.bank = f.bank ∧ g.content.wf = true ∧ ∀ j, g.content.read j =
      if f.bank.toNat * 65536 + sector.toNat ≤ j ∧ j < f.bank.toNat * 65536 + sector.toNat + 4096 then 0xFF#8
      else f.content.read j := by
  have hsetup : commandWrites 0x80#8 f = { f with phase := .eraseArmed } := by
    rw [commandWrites, unlockWrites_of_idle hp]
    exact flashWriteByte_of_unlock2 rfl _ _
  rw [hsetup, unlockWrites_of_eraseArmed rfl, flashWriteByte_sectorErase rfl hs] at hg
  subst hg
  exact ⟨rfl, rfl, Memory.wf_erase hwf _ _, Memory.read_erase hwf _ _⟩

/-- After the writes of a byte program, from `Idle`: the byte at the offset is ANDed with the value, all else as
before. -/
theorem program_writes (hp : f.phase = .idle) (hwf : f.content.wf = true) {off : BitVec 16} {v : Byte} {g : Flash}
    (hg : g = flashWriteByte off v (commandWrites 0xA0#8 f)) :
    g.phase = .idle ∧ g.bank = f.bank ∧ g.content.wf = true ∧ ∀ j, g.content.read j =
      if j = f.bank.toNat * 65536 + off.toNat then f.content.read j &&& v else f.content.read j := by
  have hsetup : commandWrites 0xA0#8 f = { f with phase := .writeMode } := by
    rw [commandWrites, unlockWrites_of_idle hp]
    exact flashWriteByte_of_unlock2 rfl _ _
  rw [hsetup, flashWriteByte_of_writeMode rfl] at hg
  subst hg
  exact ⟨rfl, rfl, Memory.wf_write hwf _ _, fun j => Memory.read_write_and hwf _ j v⟩

end Sequences

/-- Settles O59: the erased byte is all ones, so the first program leaves its value and the second ANDs into it. -/
theorem eraseThenProgramGivesTheValue : Obligations.EraseThenProgramGivesTheValue := by
  intro s off sector x y hi ha hp hsector unlock command erased once twice idx
  have hplace := sector_add_place off
  rw [← hsector] at hplace
  obtain ⟨hphase, hbank, hwf, herased⟩ :=
    sectorErase_writes (g := erased.flash) hp hi.flash.content_wf (sector := sector) (by omega) rfl
  obtain ⟨hphase₁, hbank₁, hwf₁, honce⟩ := program_writes (g := once.flash) (off := off) (v := x) hphase hwf rfl
  obtain ⟨hphase₂, hbank₂, -, htwice⟩ := program_writes (g := twice.flash) (off := off) (v := y) hphase₁ hwf₁ rfl
  rw [hbank] at hbank₁ honce
  rw [hbank₁] at hbank₂ htwice
  have hvalue : once.flash.content.read idx = x := by
    rw [honce, if_pos rfl, herased, if_pos (by omega)]
    exact BitVec.allOnes_and
  refine ⟨hvalue, ?_, fun j hj => ?_, hphase₂, hbank₂⟩
  · rw [htwice, if_pos rfl, hvalue]
  · rw [htwice, if_neg (by omega), honce, if_neg (by omega), herased, if_neg (by omega)]

/-! ## Where content and bank change (R158) -/

/-- An effect changes content only in `EraseUnlock2` and `WriteMode`. -/
theorem Effect.flash_content {s s' : State} (h : Effect s s') :
    s'.flash.content = s.flash.content ∨
      (s.FlashActive ∧ (s.flash.phase = .eraseUnlock2 ∨ s.flash.phase = .writeMode)) := by
  cases h
  case flashByte off v ha => exact (flashWriteByte_content off v s.flash).imp_right fun hp => ⟨ha, hp⟩
  case eepFrame | eepFrameRead => simp
  all_goals exact .inl rfl

/-- An effect changes the bank only in `BankSwitch`. -/
theorem Effect.flash_bank {s s' : State} (h : Effect s s') :
    s'.flash.bank = s.flash.bank ∨ (s.FlashActive ∧ s.flash.phase = .bankSwitch) := by
  cases h
  case flashByte off v ha => exact (flashWriteByte_bank off v s.flash).imp_right fun hp => ⟨ha, hp⟩
  case eepFrame | eepFrameRead => simp
  all_goals exact .inl rfl

/-- Settles O12: content and bank by the row's effect, the aborts by the equations of the two unlock phases. -/
theorem flashContentAndBankChangeOnlyInTheirPhases : Obligations.FlashContentAndBankChangeOnlyInTheirPhases := by
  refine ⟨fun i s s' hi h => ?_, fun off v f hp hword => ?_, fun off v f hp => flashWriteByte_of_unlock2_other hp⟩
  · have he := exec_effect hi h
    exact ⟨he.flash_content.resolve_left, he.flash_bank.resolve_left⟩
  · rw [flashWriteByte_of_unlock1 hp, if_neg (mt isUnlock2_iff.2 (Bool.eq_false_iff.1 hword))]

end Sys2Proof.Machine

/-!
PROOF. What never fails and what LOAD raises or refuses (R180, R181): the transactions of a loaded cartridge, the conditions
of ConfigurationError, and the declared sizes outside the legal sets (entries 12, 13).
-/

namespace Sys2Proof.Machine

/-! ## Transactions of a loaded cartridge (R180) -/

/-- A row whose words are a transaction's is a bus row or a power row, and on a loaded cartridge each of them answers. -/
theorem exec_transaction_next {i : Instr} {t : BitVec 4} {addr data : Word} (henc : encode i = .txn4 t addr data)
    {s : State} (hl : s.cart.loaded = true) : ∃ s', exec i s = .next s' := by
  cases i
  case readB | readH | readW | writeB | writeH | writeW => exact ⟨_, requireLoaded_next hl⟩
  case power | eepPower | flPower => exact ⟨_, rfl⟩
  all_goals cases henc

theorem isLoad_of_transaction {i : Instr} {t : BitVec 4} {addr data : Word} (henc : encode i = .txn4 t addr data) :
    isLoad i = false := by
  cases i
  case load => cases henc
  all_goals rfl

/-- Settles O9: a code that is not reserved is a transaction row, which answers, keeps `cart` and takes no other call. -/
theorem loadedTransactionsNeverFail : Obligations.LoadedTransactionsNeverFail := by
  intro s t addr data rest hl ht hin
  obtain ⟨i, hdecode, -, -, henc⟩ := row_of_decodeTxn ht (decodeCtx s) addr data
  obtain ⟨t', addr', data', henc⟩ : ∃ t' addr' data', encode i = .txn4 t' addr' data' :=
    henc.elim (fun h => ⟨_, _, _, h⟩) fun ⟨_, h⟩ => ⟨_, _, _, h⟩
  have hload := isLoad_of_transaction henc
  have hunload : i ≠ .unload := by
    rintro rfl
    cases henc
  obtain ⟨s', hexec⟩ := exec_transaction_next henc (s := { s with input := rest }) hl
  obtain ⟨-, -, -, -, -, -, -, -, -, -, -, -, hinput⟩ := (exec_effect hload hexec).config
  have hcart := exec_cart hload hunload hexec
  exact ⟨s', (step_of_decode_ok hin hdecode).trans hexec, hcart, hinput⟩

/-! ## The conditions of ConfigurationError (R181) -/

/-- The codes that LOAD finds are the codes whose condition holds. -/
theorem mem_loadErrors_iff {p : Params} {d : Descriptor} {code : ConfigError} :
    code ∈ loadErrors p d ↔ raises p d code := by
  cases hstore : d.store with
  | none => cases code <;> simp [loadErrors, storeErrors, raises, hstore, romMax]
  | some st =>
    cases hkind : st.kind
    all_goals
      cases code <;> simp [loadErrors, storeErrors, raises, hstore, hkind, romMax, eepMax, flashMax]

theorem loadErrors_eq_nil_iff {p : Params} {d : Descriptor} :
    loadErrors p d = [] ↔ ∀ code, ¬raises p d code := by
  simp only [List.eq_nil_iff_forall_not_mem, mem_loadErrors_iff]

/-- Where a condition holds, LOAD raises a code whose condition holds; two of them take a draw (entry 12). -/
theorem execLoad_of_error {d : Descriptor} {s : State} (h : loadErrors s.params d ≠ []) :
    ∃ code n, raises s.params d code ∧ execLoad d s = .next (raiseConfigurationError code { s with draws := n }) := by
  simp only [← mem_loadErrors_iff]
  unfold execLoad
  split
  · rename_i hnone
    exact absurd hnone h
  · rename_i code hone
    exact ⟨code, s.draws, by simp [hone], rfl⟩
  · rename_i code other more htwo
    refine ⟨_, s.draws + 1, ?_, rfl⟩
    rw [htwo]
    split <;> simp

/-- Where no condition holds, the declared sizes decide. -/
theorem execLoad_of_no_error {d : Descriptor} {s : State} (h : loadErrors s.params d = []) :
    execLoad d s = if legalSizes d then .next (loadSuccess d s) else .refused .illegalSize := by
  simp only [execLoad, h]

/-- Settles O29: LOAD either finds a code, and raises one it found, or finds none, and then its response is no code. -/
theorem loadRaisesConfigurationError : Obligations.LoadRaisesConfigurationError := by
  intro s d
  constructor
  · intro code hcode
    obtain ⟨code', n, hraises, hexec⟩ := execLoad_of_error (List.ne_nil_of_mem (mem_loadErrors_iff.2 hcode))
    exact ⟨code', n, hraises, hexec⟩
  · intro code s' hexec hresp
    by_cases hnone : loadErrors s.params d = []
    · have hloaded := (execLoad_of_no_error hnone).symm.trans hexec
      split at hloaded
      · cases hloaded
        cases hresp
      · cases hloaded
    · obtain ⟨code', n, hraises, hraised⟩ := execLoad_of_error hnone
      cases hraised.symm.trans hexec
      cases hresp
      exact hraises

/-! ## Sizes outside the legal sets (R7, R181; entry 13) -/

theorem execLoad_of_illegal {d : Descriptor} {s : State} (h : loadErrors s.params d = []) (hl : legalSizes d = false) :
    execLoad d s = .refused .illegalSize := by
  simp [execLoad_of_no_error h, hl]

/-- A store within its maximum but outside its legal set is refused, whatever the image, if that is not too large. -/
theorem execLoad_of_illegal_store {d : Descriptor} {s : State} (hrom : d.romSize ≤ romMax)
    (hmax : storeErrors s.params d.store = []) (hl : legalStoreSize d.store = false) :
    execLoad d s = .refused .illegalSize :=
  execLoad_of_illegal (by simp [loadErrors, hrom, hmax]) (by simp [legalSizes, hl])

theorem legalSramSize_eq_false {n : Nat} (h : n < 4 ∨ ∀ k, n ≠ 2 ^ k) : legalSramSize n = false := by
  rw [legalSramSize, decide_eq_false_iff_not]
  rintro ⟨h4, hpow⟩
  rcases h with hlt | hne
  · omega
  · exact hne _ hpow.symm

/-- Settles O30: each size raises no code and is not legal. -/
theorem illegalSizesAreRefused : Obligations.IllegalSizesAreRefused := by
  intro s d
  refine ⟨fun k size id hrom hstore => ⟨?_, ?_, ?_⟩, fun hzero hnone => ?_⟩
  · rintro rfl hmax h8
    exact execLoad_of_illegal_store hrom (by simp [hstore, storeErrors, eepMax, hmax])
      (by simp [hstore, legalStoreSize, legalEepSize, h8])
  · rintro rfl hmax h64
    exact execLoad_of_illegal_store hrom (by simp [hstore, storeErrors, flashMax, hmax.le])
      (by simp [hstore, legalStoreSize, legalFlashSize, flashBankSize, flashMax, h64, hmax.ne])
  · intro hk hmax hillegal
    have hsize := legalSramSize_eq_false hillegal
    rcases hk with rfl | rfl
    all_goals
      exact execLoad_of_illegal_store hrom (by simp [hstore, storeErrors, hmax]) (by simp [hstore, legalStoreSize, hsize])
  · exact execLoad_of_illegal (loadErrors_eq_nil_iff.2 hnone) (by simp [legalSizes, hzero])

end Sys2Proof.Machine

/-!
PROOF. The machine at creation, and what LOAD, UNLOAD and POWER do (R200 to R203): the arrays that LOAD leaves, the
state after a LOAD of each kind, and the active engine that POWER reaches.
-/

namespace Sys2Proof.Machine

/-! ## The machine at creation (R200) -/

/-- Settles O8: every array of the reset state is empty, and its engines are in their canonical idle states. -/
theorem resetHasTheInvariant : Obligations.ResetHasTheInvariant :=
  ⟨{ legal := nofun
     eep := eepToIdle_inv (e := State.reset.eep) rfl rfl
     flash := { one_bank := fun _ => rfl, bank_switch := nofun, content_wf := rfl, content_within := rfl }
     sram_wf := rfl
     sram_within := rfl
     rom_wf := rfl
     rom_within := rfl }, rfl⟩

/-! ## The bytes that LOAD leaves (R201) -/

theorem Memory.read_ofBytes_zero (bs : List Byte) (j : Nat) :
    (Memory.ofBytes 0 bs).read j = (bs[j]?).getD erasedByte := by
  rw [Memory.read_ofBytes]
  by_cases hj : j < bs.length <;> simp [hj]

theorem preseeded_read (size : Nat) (blob : Option (List Byte)) (j : Nat) :
    (preseeded size blob).read j = preseedByte size blob j := by
  cases blob with
  | none => simp [preseeded, preseedByte, erasedByte]
  | some bytes =>
    rw [preseeded, Memory.read_ofBytes_zero, List.getElem?_take]
    unfold preseedByte
    split <;> rfl

/-- Inside `ROM_SIZE` the image holds the bytes given; a byte not given is left open (entry 11). -/
theorem loadRom_read {d : Descriptor} {j : Nat} (hsize : j < d.romSize) (hgiven : j < d.romBytes.length) :
    (loadRom d).image.read j = d.romBytes.getD j 0 := by
  simp [loadRom, Memory.read_ofBytes_zero, List.getElem?_take_of_lt hsize, hgiven]

/-! ## A successful LOAD of each kind (R201) -/

/-- LOAD of an image and a store that meet no condition of R181 and have legal sizes. -/
theorem exec_load_of_legal {d : Descriptor} {s : State} (hpos : 1 ≤ d.romSize) (hrom : d.romSize ≤ romMax)
    (hmax : storeErrors s.params d.store = []) (hlegal : legalStoreSize d.store = true) :
    exec (.load d) s = .next (loadSuccess d s) := by
  have hnone : loadErrors s.params d = [] := by simp [loadErrors, hrom, hmax]
  have hsizes : legalSizes d = true := by simp [legalSizes, hpos, hlegal]
  exact (execLoad_of_no_error hnone).trans (if_pos hsizes)

section
variable {d : Descriptor} {size : Nat} {id : BitVec 16}

theorem loadSuccess_serialEEPROM (h : d.store = some ⟨.serialEEPROM, size, id⟩) (s : State) :
    loadSuccess d s =
      { s with cart := ⟨true, .serialEEPROM⟩, rom := loadRom d, eep := loadEep d size s.eep, resp := .loadOk } := by
  simp [loadSuccess, loadStore, h]

theorem loadSuccess_flashROM (h : d.store = some ⟨.flashROM, size, id⟩) (s : State) :
    loadSuccess d s =
      { s with cart := ⟨true, .flashROM⟩, rom := loadRom d, flash := loadFlash d size id, resp := .loadOk } := by
  simp [loadSuccess, loadStore, h]

/-- A descriptor of kind FRAM is loaded as StaticRAM (R181; entry 21). -/
theorem loadSuccess_staticRAM {k : KindName} (hk : k = .staticRAM ∨ k = .fram) (h : d.store = some ⟨k, size, id⟩)
    (s : State) :
    loadSuccess d s =
      { s with cart := ⟨true, .staticRAM⟩, rom := loadRom d, sram := loadSram d size, resp := .loadOk } := by
  rcases hk with rfl | rfl <;> simp [loadSuccess, loadStore, h]

theorem loadSuccess_none (h : d.store = none) (s : State) :
    loadSuccess d s = { s with cart := ⟨true, .none⟩, rom := loadRom d, resp := .loadOk } := by
  simp [loadSuccess, loadStore, h]

end

/-- The EEPROM engine after LOAD has its window from the image size (R42), its size and width from the declared size
(R25), and the canonical idle state. -/
theorem loadEep_eq (d : Descriptor) (size : Nat) (e : Eep) :
    loadEep d size e =
      { size := if size = 0 then 8192 else size
        bits := if size = 0 then none else if size ≤ 512 then some .six else some .fourteen
        winMask := if d.romSize > 0x01000000 then 0x0FFFFF00#32 else 0x0F000000#32
        winMatch := if d.romSize > 0x01000000 then 0x0DFFFF00#32 else 0x0D000000#32
        phase := .idle, op := .read, count := 0, addr := 0, buf := 0, stream := []
        content := preseeded (if size = 0 then 8192 else size) d.preseed } := by
  have hwindow : eepWindow d.romSize = (if d.romSize > 0x01000000 then 0x0FFFFF00#32 else 0x0F000000#32,
      if d.romSize > 0x01000000 then 0x0DFFFF00#32 else 0x0D000000#32) := by
    split
    next hlarge => exact eepWindow_large hlarge
    next hsmall => exact eepWindow_small (Nat.not_lt.1 hsmall)
  rw [loadEep, hwindow]
  rfl

theorem legalSramSize_two_pow {n : Nat} (h : 2 ≤ n) : legalSramSize (2 ^ n) = true := by
  have h4 : 2 ^ 2 ≤ 2 ^ n := Nat.pow_le_pow_right (by decide) h
  simpa [legalSramSize] using h4

/-- Settles O26: the declared sizes are legal, and the store loaded is the EEPROM. -/
theorem loadOfAnEeprom : Obligations.LoadOfAnEeprom := by
  intro s d size id hstore h8 hmax hpos hrom
  have hload : exec (.load d) s = .next (loadSuccess d s) :=
    exec_load_of_legal hpos hrom (by simp [hstore, storeErrors, eepMax, hmax])
      (by simp [hstore, legalStoreSize, legalEepSize, eepMax, h8, hmax])
  rw [loadSuccess_serialEEPROM hstore, loadEep_eq] at hload
  exact ⟨_, _, hload, preseeded_read _ _, fun _ => loadRom_read⟩

/-- Settles O27: the declared sizes are legal, and the store loaded is the FlashROM. -/
theorem loadOfAFlashRom : Obligations.LoadOfAFlashRom := by
  intro s d size id hstore hsize hpos hrom
  have hmax : size ≤ 131072 := by omega
  have hload : exec (.load d) s = .next (loadSuccess d s) :=
    exec_load_of_legal hpos hrom (by simp [hstore, storeErrors, flashMax, hmax])
      (by simp [hstore, legalStoreSize, legalFlashSize, flashBankSize, flashMax, hsize])
  rw [loadSuccess_flashROM hstore] at hload
  exact ⟨_, _, hload, preseeded_read _ _, fun _ => loadRom_read⟩

/-- Settles O28: both kind names load the StaticRAM, and no descriptor loads no store. -/
theorem loadOfAStaticRamOrNone : Obligations.LoadOfAStaticRamOrNone := by
  intro s d hpos hrom
  constructor
  · intro k n id hk hstore hn hmax
    have hnone : storeErrors s.params d.store = [] := by
      rcases hk with rfl | rfl <;> simp [hstore, storeErrors, hmax]
    have hlegal : legalStoreSize d.store = true := by
      rcases hk with rfl | rfl <;> simp [hstore, legalStoreSize, legalSramSize_two_pow hn]
    have hload := exec_load_of_legal hpos hrom hnone hlegal
    rw [loadSuccess_staticRAM hk hstore] at hload
    exact ⟨_, _, hload, preseeded_read _ _, fun _ => loadRom_read⟩
  · intro hstore
    have hload : exec (.load d) s = .next (loadSuccess d s) :=
      exec_load_of_legal hpos hrom (by simp [hstore, storeErrors]) (by simp [hstore, legalStoreSize])
    rw [loadSuccess_none hstore] at hload
    exact ⟨_, hload, fun _ => loadRom_read⟩

/-! ## UNLOAD (R202) -/

theorem contentPointer_of_unloaded {s : State} (hl : s.cart.loaded = false) : contentPointer s = none := by
  simp only [contentPointer, activeKind_of_unloaded hl]

/-- Settles O31: after UNLOAD the cartridge is unloaded, which refuses the bus rows and leaves no active backend. -/
theorem unloadKeepsTheArrays : Obligations.UnloadKeepsTheArrays := by
  intro s t
  have hl : t.cart.loaded = false := rfl
  refine ⟨rfl, fun w a x => ?_, ?_⟩
  · obtain ⟨hread, hwrite, -⟩ := unloadedAccessIsRefused t w a x hl
    exact ⟨hread, hwrite⟩
  · obtain ⟨hpointer, -⟩ := persistenceCall_within t
    rwa [contentPointer_of_unloaded hl] at hpointer

/-! ## POWER (R203, R118, R160) -/

/-- The three rows of POWER are one transaction (entry 15). -/
theorem exec_powerRow {i : Instr} (hi : i = .power ∨ i = .eepPower ∨ i = .flPower) (s : State) :
    exec i s = .next (powerActive s) := by
  rcases hi with rfl | rfl | rfl <;> rfl

theorem powerActive_of_eepromActive {s : State} (ha : s.EepromActive) : powerActive s = eepPower s := by
  obtain ⟨hl, hk⟩ := ha
  simp only [powerActive, activeKind_of_loaded hl, hk]

theorem powerActive_of_flashActive {s : State} (ha : s.FlashActive) : powerActive s = flashPower s := by
  obtain ⟨hl, hk⟩ := ha
  simp only [powerActive, activeKind_of_loaded hl, hk]

/-- With no engine active, POWER reaches nothing. -/
theorem powerActive_of_no_engine {s : State} (he : ¬s.EepromActive) (hf : ¬s.FlashActive) :
    powerActive s = { s with resp := .nothing } := by
  cases hl : s.cart.loaded with
  | false => exact powerActive_of_unloaded hl
  | true =>
    cases hk : s.cart.kind with
    | serialEEPROM => exact absurd ⟨hl, hk⟩ he
    | flashROM => exact absurd ⟨hl, hk⟩ hf
    | staticRAM | none => simp only [powerActive, activeKind_of_loaded hl, hk]

/-- Settles O25: each row is the POWER transaction, which returns the active engine to its idle state. -/
theorem powerResetsOnlyTheProtocol : Obligations.PowerResetsOnlyTheProtocol := by
  intro i s hi
  rw [exec_powerRow hi]
  exact ⟨fun ha => congrArg Host.Outcome.next (powerActive_of_eepromActive ha),
    fun ha => congrArg Host.Outcome.next (powerActive_of_flashActive ha),
    fun he hf => congrArg Host.Outcome.next (powerActive_of_no_engine he hf)⟩

end Sys2Proof.Machine
